-- ==== Sys2Proof/Word.lean ====
section
/-! DEFINITION. The byte and the 32-bit register word of the sc4 LZ77 codec core (00_scope R9, 10_state R23). -/

namespace Sys2Proof

/-- A cell of IN or OUT: 8 bits, value 0..255 (00_scope R9). -/
abbrev Byte := BitVec 8

/-- Every length, capacity and pointer register is LEN_BITS = 32 bits wide and unsigned (10_state R23; log 2). -/
abbrev Word := BitVec 32

/-- The register value that holds a natural number; no rule writes one of `2 ^ 32` or more (00_scope R13). -/
abbrev word (k : Nat) : Word := BitVec.ofNat 32 k

end Sys2Proof
end

