-- ==== Sys2Proof/Syntax.lean ====
section
/-! DEFINITION. The instructions: one constructor per row of spec/opcode_table.json. -/

namespace Sys2Proof

/-- The five opcode forms of the compressed stream (30_encoding R93). -/
inductive Form where
  | shortCopy
  | mediumCopy
  | longCopy
  | literalRun
  | streamEnd
  deriving DecidableEq, Repr

/-- An instruction: an opcode of the compressed stream as the value `parse` gives (30_encoding R102), its
fields unbiased, or a host command (43_host_commands R230). The literal bytes of an opcode are inline data
in IN, read when it executes (30_encoding R93, 40_decoder_opcodes R133), and no field of the value. -/
inductive Instr where
  | shortCopy (lit len off : Nat)
  | mediumCopy (lit len off : Nat)
  | longCopy (lit len off : Nat)
  | literalRun (lit : Nat)
  | streamEnd (lit : Nat)
  | compress
  | decompress
  deriving DecidableEq, Repr

end Sys2Proof
end

