-- ==== Sys2Proof/WellFormed.lean ====
section
/-! DEFINITION. The ranges of the operands of an instruction (00_scope R7, 30_encoding R93). -/

namespace Sys2Proof

/-- `lo..hi` holds `v`. -/
def inRange (lo hi v : Nat) : Bool := decide (lo ≤ v) && decide (v ≤ hi)

/-- The operands lie in the ranges of 30_encoding R93; a LiteralRun counts a multiple of 4. -/
def Instr.wellFormed : Instr → Bool
  | .shortCopy lit len off => inRange 0 3 lit && inRange 3 10 len && inRange 1 1024 off
  | .mediumCopy lit len off => inRange 0 3 lit && inRange 4 67 len && inRange 1 16384 off
  | .longCopy lit len off => inRange 0 3 lit && inRange 5 1028 len && inRange 1 131072 off
  | .literalRun lit => inRange 4 112 lit && decide (lit % 4 = 0)
  | .streamEnd lit => inRange 0 3 lit
  | .compress => true
  | .decompress => true

/-- The instruction is an opcode of the compressed stream, not a host command. -/
def Instr.isOpcode : Instr → Bool
  | .compress => false
  | .decompress => false
  | .shortCopy _ _ _ => true
  | .mediumCopy _ _ _ => true
  | .longCopy _ _ _ => true
  | .literalRun _ => true
  | .streamEnd _ => true

/-- The instruction is one of the three copy opcodes. -/
def Instr.isCopy : Instr → Bool
  | .shortCopy _ _ _ => true
  | .mediumCopy _ _ _ => true
  | .longCopy _ _ _ => true
  | .literalRun _ => false
  | .streamEnd _ => false
  | .compress => false
  | .decompress => false

end Sys2Proof
end

