-- ==== Sys2Proof/Decode.lean ====
section
/-! DEFINITION. The decoder, from bytes to an instruction or a rejection by name, and the encoder
(30_encoding R91 to R110, 10_state R36). -/

namespace Sys2Proof

/-- `b[hi:lo]`, the unsigned value of bits `hi` down to `lo` (00_scope R10). -/
def bitsOf (b : Byte) (hi lo : Nat) : Nat := b.toNat / 2 ^ lo % 2 ^ (hi + 1 - lo)

/-- `BE(s)`, the big-endian value of a byte sequence, the first byte the most significant (00_scope R11). -/
def beValue (s : List Byte) : Nat := s.foldl (fun v b => v * 256 + b.toNat) 0

/-- `BEbytes(v, k)`, the `k`-byte big-endian sequence of `v` (00_scope R11). -/
def beBytes (v : Nat) : Nat → List Byte
  | 0 => []
  | k + 1 => beBytes (v / 256) k ++ [BitVec.ofNat 8 v]

/-- The form that control byte 0 selects, by the first test that succeeds (30_encoding R99). -/
def classify (b0 : Byte) : Form :=
  if b0.toNat < 0x80 then .shortCopy
  else if b0.toNat < 0xC0 then .mediumCopy
  else if b0.toNat < 0xE0 then .longCopy
  else if b0.toNat < 0xFC then .literalRun
  else .streamEnd

/-- The number of control bytes of a form (30_encoding R93). -/
def controlSize : Form → Nat
  | .shortCopy => 2
  | .mediumCopy => 3
  | .longCopy => 4
  | .literalRun => 1
  | .streamEnd => 1

/-- ShortCopy's fields, `0oolllpp oooooooo` (30_encoding R94, R102). -/
def parseShort (b0 b1 : Byte) : Instr :=
  .shortCopy (bitsOf b0 1 0) (bitsOf b0 4 2 + 3) (bitsOf b0 6 5 * 2 ^ 8 + b1.toNat + 1)

/-- MediumCopy's fields, `10llllll ppoooooo oooooooo` (30_encoding R95, R102). -/
def parseMedium (b0 b1 b2 : Byte) : Instr :=
  .mediumCopy (bitsOf b1 7 6) (bitsOf b0 5 0 + 4) (bitsOf b1 5 0 * 2 ^ 8 + b2.toNat + 1)

/-- LongCopy's fields, `110ollpp oooooooo oooooooo llllllll` (30_encoding R96, R102). -/
def parseLong (b0 b1 b2 b3 : Byte) : Instr :=
  .longCopy (bitsOf b0 1 0) (bitsOf b0 3 2 * 2 ^ 8 + b3.toNat + 5)
    (bitsOf b0 4 4 * 2 ^ 16 + b1.toNat * 2 ^ 8 + b2.toNat + 1)

/-- LiteralRun's field, `111rrrrr`: `4 * (r + 1)` literal bytes (30_encoding R97, R102). -/
def parseRun (b0 : Byte) : Instr := .literalRun (bitsOf b0 4 0 * 4 + 4)

/-- StreamEnd's field, `111111pp` (30_encoding R98, R102). -/
def parseEnd (b0 : Byte) : Instr := .streamEnd (bitsOf b0 1 0)

/-- Why bytes are no instruction. There is no illegal opcode (30_encoding R108): an opcode can only be cut
short, and a command code can only be one that 43_host_commands R234 does not accept. -/
inductive DecodeError where
  /-- There is no control byte 0. -/
  | noBytes
  /-- Control byte 0 selects `form`, and not all its control bytes are there. -/
  | controlBytesCut (form : Form)
  /-- CMD bits 7:0 hold a code other than 0x01 and 0x02. -/
  | unknownCommand (code : Nat)
  deriving DecidableEq, Repr

/-- Reads one opcode from the front of a byte sequence and gives it with the bytes after its control bytes
(30_encoding R99, R102). -/
def decode : List Byte → Except DecodeError (Instr × List Byte)
  | [] => .error .noBytes
  | b0 :: rest =>
    match classify b0, rest with
    | .shortCopy, b1 :: after => .ok (parseShort b0 b1, after)
    | .mediumCopy, b1 :: b2 :: after => .ok (parseMedium b0 b1 b2, after)
    | .longCopy, b1 :: b2 :: b3 :: after => .ok (parseLong b0 b1 b2 b3, after)
    | .literalRun, after => .ok (parseRun b0, after)
    | .streamEnd, after => .ok (parseEnd b0, after)
    | form, _ => .error (.controlBytesCut form)

/-- The command that a value written to CMD names: bits 7:0 hold the code, bits 31:8 are ignored
(10_state R36). -/
def decodeCommand (v : Word) : Except DecodeError Instr :=
  if v.toNat % 256 = 0x01 then .ok .compress
  else if v.toNat % 256 = 0x02 then .ok .decompress
  else .error (.unknownCommand (v.toNat % 256))

/-- `emit(form, lit, len, off)`: the control bytes of an opcode (30_encoding R103), the bit groups put together
by addition since they are disjoint (40_decoder_opcodes R146); of a command, its code (10_state R36). -/
def encode : Instr → List Byte
  | .shortCopy lit len off =>
    [BitVec.ofNat 8 ((off - 1) / 2 ^ 8 * 2 ^ 5 + (len - 3) * 2 ^ 2 + lit),
     BitVec.ofNat 8 (off - 1)]
  | .mediumCopy lit len off =>
    [BitVec.ofNat 8 (0x80 + (len - 4)),
     BitVec.ofNat 8 (lit * 2 ^ 6 + (off - 1) / 2 ^ 8),
     BitVec.ofNat 8 (off - 1)]
  | .longCopy lit len off =>
    [BitVec.ofNat 8 (0xC0 + (off - 1) / 2 ^ 16 * 2 ^ 4 + (len - 5) / 2 ^ 8 * 2 ^ 2 + lit),
     BitVec.ofNat 8 ((off - 1) / 2 ^ 8),
     BitVec.ofNat 8 (off - 1),
     BitVec.ofNat 8 (len - 5)]
  | .literalRun lit => [BitVec.ofNat 8 (0xE0 + (lit / 4 - 1))]
  | .streamEnd lit => [BitVec.ofNat 8 (0xFC + lit)]
  | .compress => [0x01#8]
  | .decompress => [0x02#8]

/-- The number of control bytes of an opcode (30_encoding R93); a command is no opcode. -/
def controlBytes : Instr → Nat
  | .shortCopy _ _ _ => controlSize .shortCopy
  | .mediumCopy _ _ _ => controlSize .mediumCopy
  | .longCopy _ _ _ => controlSize .longCopy
  | .literalRun _ => controlSize .literalRun
  | .streamEnd _ => controlSize .streamEnd
  | .compress => 0
  | .decompress => 0

/-- The literalCount of an opcode (30_encoding R93). -/
def literalCount : Instr → Nat
  | .shortCopy lit _ _ => lit
  | .mediumCopy lit _ _ => lit
  | .longCopy lit _ _ => lit
  | .literalRun lit => lit
  | .streamEnd lit => lit
  | .compress => 0
  | .decompress => 0

/-- The matchLength of an opcode, 0 where it carries no copy (10_state R29). -/
def matchLength : Instr → Nat
  | .shortCopy _ len _ => len
  | .mediumCopy _ len _ => len
  | .longCopy _ len _ => len
  | .literalRun _ => 0
  | .streamEnd _ => 0
  | .compress => 0
  | .decompress => 0

/-- The matchOffset of an opcode, 0 where it carries no copy (10_state R29). -/
def matchOffset : Instr → Nat
  | .shortCopy _ _ off => off
  | .mediumCopy _ _ off => off
  | .longCopy _ _ off => off
  | .literalRun _ => 0
  | .streamEnd _ => 0
  | .compress => 0
  | .decompress => 0

/-- The longest opcode: a LiteralRun of 112, 113 bytes with its literals (30_encoding R101). -/
def longestOpcode : Nat := 113

/-- The bytes of an instruction whose bits are `w`, numbered as spec/opcode_table.json numbers them: each row's
`encoding`, `fixed` and `fields` put control byte 0 in the most significant byte (DEDUCED, log 16). -/
def tableBytes (nbits w : Nat) : List Byte := beBytes w (nbits / 8)

/-- The word is one of the 8-bit command rows, which are codes of CMD and no bytes of the stream; the 8-bit
opcode rows, LiteralRun and StreamEnd, begin at 0xE0. -/
def isCommandWord (nbits w : Nat) : Bool := decide (nbits = 8) && decide (w % 256 < 0xE0)

/-- The instruction the decoder reads from a word of the opcode table, the bytes after it zero. -/
def decodeTableWord (nbits w : Nat) : Option Instr :=
  if isCommandWord nbits w then
    match decodeCommand (word w) with
    | .ok i => some i
    | .error _ => none
  else
    match decode (tableBytes nbits w ++ List.replicate 3 0#8) with
    | .ok (i, _) => some i
    | .error _ => none

end Sys2Proof
end

