-- ==== Sys2Proof/Config.lean ====
section
/-! DEFINITION. What an implementation fixes (00_scope R8), and the free values of everything the spec leaves
unspecified (93_implementation_defined U10 to U13). -/

namespace Sys2Proof

/-- The open parameters of 00_scope R8. LEN_BITS is 32 in the type `Word` (log 2); the match finder's strategy
does not show (41_match_finder R177; log 17). -/
structure Config where
  /-- First magic byte. -/
  magic0 : Byte
  /-- Second magic byte, the flag bit clear. -/
  magic1 : Byte
  /-- The bit of the second magic byte that flags the 4-byte size. -/
  largeMask : Byte
  /-- IN_SIZE, the number of bytes of IN. -/
  inSize : Nat
  /-- OUT_SIZE, the number of bytes of OUT. -/
  outSize : Nat
  deriving DecidableEq, Repr

/-- The defaults of 00_scope R8 for the magic (PRESUMED, the legacy family's: log 1); for IN_SIZE and OUT_SIZE,
which R8 leaves OPEN, the largest value it allows (DESIGN CHOICE, log 3). -/
def Config.standard : Config where
  magic0 := 0x10#8
  magic1 := 0xFB#8
  largeMask := 0x04#8
  inSize := 2 ^ 32 - 1
  outSize := 2 ^ 32 - 1

/-- The constraints of 00_scope R8: LARGE_MASK has exactly one bit set, MAGIC1 has that bit clear, and both
memories have at most `2 ^ 32 - 1` bytes. -/
def Config.wf (c : Config) : Bool :=
  decide (c.largeMask ≠ 0#8) && decide (c.largeMask &&& (c.largeMask - 1#8) = 0#8) &&
    decide (c.magic1 &&& c.largeMask = 0#8) &&
    decide (c.inSize ≤ 2 ^ 32 - 1) && decide (c.outSize ≤ 2 ^ 32 - 1)

/-- The free values (log 8): `w` unspecified bits, number `index` of the unspecified values that stand under
`tag`. It has no body: nothing can be proved of any of them. -/
opaque Config.freeBits (w tag index : Nat) : BitVec w

end Sys2Proof
end

