-- ==== Sys2Proof/Machine/State.lean ====
section
/-! DEFINITION. The state of the codec core as plain data (10_state), its reset value, and the reasons a step can
stop. -/

namespace Sys2Proof.Machine

/-- A memory: IN or OUT (10_state R43, R44). `cells` lists the bytes written, addresses strictly rising. A byte
that is not listed is unspecified, and reads as a free value (log 5): `tags`, starts strictly falling, gives
for each address the tag its free value stands under, that of the first entry `(start, tag)` with
`start ≤ address`. -/
structure Memory where
  cells : List Host.Cell
  tags : List (Nat × Nat)
  deriving DecidableEq, Repr

/-- The opcode latch (10_state R29). -/
structure Latch where
  form : Form
  size : Nat
  lit : Nat
  len : Nat
  off : Nat
  deriving DecidableEq, Repr

/-- The two units, of which the busy phase runs one (10_state R22). -/
inductive EngineUnit where
  | dec
  | enc
  deriving DecidableEq, Repr

/-- The host registers, in the order of their numbers 0 to 9 (10_state R35). -/
inductive HostReg where
  | cmd
  | status
  | errInfo
  | inLen
  | outCap
  | outLen
  | expect
  | ctrl
  | errIp
  | errOp
  deriving DecidableEq, Repr

/-- What the host can do (43_host_commands R238, R239; log 9). -/
inductive HostMove where
  /-- Write a register. -/
  | writeReg (r : HostReg) (v : Word)
  /-- Read a register into `readData`. -/
  | readReg (r : HostReg)
  /-- Write a byte of IN. -/
  | writeIn (a : Nat) (b : Byte)
  /-- Read a byte of OUT into `readData`. -/
  | readOut (a : Nat)
  /-- Let the engine take one step. -/
  | tick
  /-- Poll STATUS until BUSY = 0. -/
  | await
  /-- The reset event (70_reset_and_hazards R290). -/
  | reset
  deriving DecidableEq, Repr

/-- The machine. The spec's own state is of 10_state R24 to R30 (working registers), R35 to R42 (host registers)
and R43, R44 (memories); CMD holds nothing (R36) and MF has no architectural state (R46; log 17). -/
structure State where
  /-- The parameters of 00_scope R8; no step changes them (10_state R21; log 1). -/
  cfg : Config
  /-- DEC's program counter (10_state R30). -/
  ip : Word
  /-- Output pointer (10_state R24). -/
  op : Word
  /-- Declared size (10_state R25). -/
  dsize : Word
  /-- Input length latch (10_state R26). -/
  n : Word
  /-- ENC's cursor (10_state R27). -/
  cur : Word
  /-- ENC's literal-run start (10_state R27). -/
  ls : Word
  /-- The header is the 6-byte form (10_state R28). -/
  large : Bool
  /-- Header length in bytes (10_state R28). -/
  hdr : BitVec 3
  /-- The opcode latch (10_state R29). -/
  latch : Latch
  /-- The unit a busy phase runs (10_state R22); it means nothing while idle (log 18). -/
  unit : EngineUnit
  /-- STATUS (10_state R37). -/
  status : Word
  /-- ERRINFO (10_state R38). -/
  errInfo : Word
  /-- IN_LEN (10_state R39). -/
  inLen : Word
  /-- OUT_CAP (10_state R40). -/
  outCap : Word
  /-- OUT_LEN (10_state R41). -/
  outLen : Word
  /-- EXPECT (10_state R42). -/
  expect : Word
  /-- CTRL (10_state R42). -/
  ctrl : Word
  /-- ERR_IP (10_state R42). -/
  errIp : Word
  /-- ERR_OP (10_state R42). -/
  errOp : Word
  /-- IN (10_state R43). -/
  inMem : Memory
  /-- OUT (10_state R44). -/
  outMem : Memory
  /-- The model's own: the moves the host will make, the next one first (log 9). -/
  host : List HostMove
  /-- The model's own: what the host's last read returned (log 19). -/
  readData : Word
  /-- The model's own: the first tag no free value stands under yet (log 8). -/
  freeTag : Nat
  deriving DecidableEq, Repr

/-- Why the machine stops. Both are addresses that do not exist (20_memory R67), and no run from reset reaches
either (log 12). -/
inductive Fault where
  /-- An access to IN at or above IN_SIZE, by the opcodes, the fetch, ENC or the host. Safe. -/
  | inAddressAbsent
  /-- An access to OUT at or above OUT_SIZE, by the opcodes, ENC or the host. Safe. -/
  | outAddressAbsent
  deriving DecidableEq, Repr

/-- What the model gives no meaning to. -/
inductive Refusal where
  /-- Raised by `exec` for an instruction that has no meaning yet. Safe. -/
  | notModelled (mnemonic : String)
  /-- Raised by COMPRESS and DECOMPRESS started with IN_LEN > IN_SIZE or OUT_CAP > OUT_SIZE, which is outside
  the spec (10_state R39, 93_implementation_defined U6; log 11). Safe. -/
  | operandsBeyondMemory
  /-- Raised by a host access to IN or OUT while BUSY = 1, a move the spec gives the host none of
  (20_memory R71, 93_implementation_defined U5; log 10). Safe. -/
  | hostMemoryAccessWhileBusy
  deriving DecidableEq, Repr

/-- A memory nothing has been written to, its unspecified bytes under `tag`. -/
def Memory.unspecified (tag : Nat) : Memory := { cells := [], tags := [(0, tag)] }

/-- The machine right after reset (10_state R47, 70_reset_and_hazards R291, R292). The working registers, which
the spec leaves unspecified, are 0 (DESIGN CHOICE, log 4); the host has no move to make (log 9). -/
def State.reset : State where
  cfg := Config.standard
  ip := 0
  op := 0
  dsize := 0
  n := 0
  cur := 0
  ls := 0
  large := false
  hdr := 0
  latch := { form := .shortCopy, size := 0, lit := 0, len := 0, off := 0 }
  unit := .dec
  status := 0
  errInfo := 0
  inLen := 0
  outCap := 0
  outLen := 0
  expect := 0
  ctrl := 0
  errIp := 0
  errOp := 0
  inMem := Memory.unspecified 0
  outMem := Memory.unspecified 1
  host := []
  readData := 0
  freeTag := 2

end Sys2Proof.Machine
end

