-- ==== Sys2Proof/Machine/Flags.lean ====
section
/-! DEFINITION. The bits of STATUS, ERRINFO and CTRL, and the error classes and causes (10_state R33 to R42,
60_exceptions R250, R251). -/

namespace Sys2Proof.Machine

/-- The STATUS word: BUSY in bit 0, DONE in bit 1, ERR in bit 2, bits 31:3 zero (10_state R37). -/
def statusWord (busy done err : Bool) : Word := word (busy.toNat + 2 * done.toNat + 4 * err.toNat)

/-- STATUS.BUSY. -/
def State.busy (s : State) : Bool := s.status.getLsbD 0

/-- STATUS.DONE. -/
def State.done (s : State) : Bool := s.status.getLsbD 1

/-- STATUS.ERR. -/
def State.err (s : State) : Bool := s.status.getLsbD 2

/-- CTRL.EXPECT_EN (10_state R42). -/
def State.expectEn (s : State) : Bool := s.ctrl.getLsbD 0

/-- What CTRL keeps of a written value: bits 31:1 ignore writes (10_state R42). -/
def ctrlKept (v : Word) : Word := v &&& 1#32

/-- The error classes (60_exceptions R250). -/
inductive ErrClass where
  | formatError
  | resourceError
  deriving DecidableEq, Repr

/-- The error causes (60_exceptions R251). -/
inductive Cause where
  | hdrTruncated
  | badMagic
  | inputExhausted
  | badOffset
  | sizeMismatch
  | expectMismatch
  | outCapacity
  deriving DecidableEq, Repr

/-- ERRCLASS of a class (10_state R38). -/
def errClassNumber : ErrClass → Nat
  | .formatError => 1
  | .resourceError => 2

/-- ERRCAUSE of a cause (60_exceptions R251). -/
def causeNumber : Cause → Nat
  | .hdrTruncated => 1
  | .badMagic => 2
  | .inputExhausted => 3
  | .badOffset => 4
  | .sizeMismatch => 5
  | .expectMismatch => 6
  | .outCapacity => 7

/-- The class of a cause (60_exceptions R251). -/
def causeClass : Cause → ErrClass
  | .hdrTruncated => .formatError
  | .badMagic => .formatError
  | .inputExhausted => .formatError
  | .badOffset => .formatError
  | .sizeMismatch => .formatError
  | .expectMismatch => .formatError
  | .outCapacity => .resourceError

/-- The ERRINFO word: ERRCLASS in bits 3:0, ERRCAUSE in bits 11:4, bits 31:12 zero (10_state R38). -/
def errInfoWord (c : Cause) : Word := word (errClassNumber (causeClass c) + 16 * causeNumber c)

end Sys2Proof.Machine
end

