-- ==== Sys2Proof/Machine/Ops.lean ====
section
/-! DEFINITION. The named operations over the memories and registers: one-byte reads and writes, free values,
taking an error and the normal end, accepting a command, the reset event, and the copy primitives. -/

namespace Sys2Proof.Machine

/-! ### The memories -/

/-- The byte a list of cells holds at an address. -/
def lookupCell : List Host.Cell → Nat → Option Byte
  | [], _ => none
  | c :: cs, a => if c.1 = a then some c.2 else lookupCell cs a

/-- The list of cells with one byte written, in the order of the addresses. -/
def insertCell : List Host.Cell → Nat → Byte → List Host.Cell
  | [], a, b => [(a, b)]
  | c :: cs, a, b =>
    if a < c.1 then (a, b) :: c :: cs
    else if c.1 = a then (a, b) :: cs
    else c :: insertCell cs a b

/-- The tag an unlisted address stands under. -/
def tagAt : List (Nat × Nat) → Nat → Nat
  | [], _ => 0
  | e :: es, a => if e.1 ≤ a then e.2 else tagAt es a

/-- One byte of a memory, `IN[a]` or `OUT[a]` (00_scope R11); a byte that is not listed is a free value, the same
at every read (20_memory R65; log 5). -/
def Memory.read (m : Memory) (a : Nat) : Byte :=
  match lookupCell m.cells a with
  | some b => b
  | none => Config.freeBits 8 (tagAt m.tags a) a

/-- Writes one byte. -/
def Memory.write (m : Memory) (a : Nat) (b : Byte) : Memory :=
  { m with cells := insertCell m.cells a b }

/-- Every byte at or above `k` becomes unspecified, under `tag` (60_exceptions R264, 43_host_commands R237,
70_reset_and_hazards R292; log 6). -/
def Memory.forgetFrom (k tag : Nat) (m : Memory) : Memory :=
  { cells := m.cells.filter (fun c => decide (c.1 < k))
    tags := (k, tag) :: m.tags.dropWhile (fun e => decide (k ≤ e.1)) }

/-- The canonical form: addresses strictly rising, and the starts of the tags strictly falling. No listed byte
equals what an unlisted address holds, since that is no stored byte at all (log 5). -/
abbrev Memory.wf (m : Memory) : Prop :=
  m.cells.Pairwise (fun c d => c.1 < d.1) ∧ m.tags.Pairwise (fun c d => d.1 < c.1)

/-- `MemRead(space, a, k)`: `k` bytes, lowest address first (00_scope R11). -/
def Memory.readBytes (m : Memory) (a : Nat) : Nat → List Byte
  | 0 => []
  | k + 1 => m.read a :: m.readBytes (a + 1) k

/-- `MemWrite(space, a, k, v)`: the bytes of `v` from address `a` up (00_scope R11). -/
def Memory.writeBytes (m : Memory) (a : Nat) : List Byte → Memory
  | [] => m
  | b :: bs => (m.writeBytes (a + 1) bs).write a b

/-! ### How far an operation has come -/

/-- What a part of an instruction answers: the instruction goes on in `s`, or it has ended, by an error the
hardware takes or by a stop of the model. -/
inductive Flow where
  | go (s : State)
  | ended (o : Host.Outcome State Fault Refusal)

/-- No statement after a `raise` is executed (00_scope R12). -/
def Flow.andThen (f : Flow) (g : State → Flow) : Flow :=
  match f with
  | .go s => g s
  | .ended o => .ended o

/-- The outcome of an instruction whose last part this is. -/
def Flow.outcome : Flow → Host.Outcome State Fault Refusal
  | .go s => .next s
  | .ended o => o

/-! ### Free values -/

/-- The working registers hold unspecified values (10_state R23, R47, 60_exceptions R264; log 7). -/
def State.workUnspecified (tag : Nat) (s : State) : State :=
  { s with
    ip := Config.freeBits 32 tag 0
    op := Config.freeBits 32 tag 1
    dsize := Config.freeBits 32 tag 2
    n := Config.freeBits 32 tag 3
    cur := Config.freeBits 32 tag 4
    ls := Config.freeBits 32 tag 5
    large := (Config.freeBits 1 tag 6).getLsbD 0
    hdr := Config.freeBits 3 tag 7
    latch :=
      { form := classify (Config.freeBits 8 tag 8)
        size := (Config.freeBits 3 tag 9).toNat
        lit := (Config.freeBits 7 tag 10).toNat
        len := (Config.freeBits 11 tag 11).toNat
        off := (Config.freeBits 18 tag 12).toNat } }

/-! ### Errors, the normal end, and the start of a command -/

/-- `raise C(cause)`, which records the input position `ip` and the output position `op` (60_exceptions R263).
All of OUT and the working registers become unspecified (R264). -/
def State.raise (c : Cause) (ip op : Word) (s : State) : State :=
  { s.workUnspecified (s.freeTag + 1) with
    errInfo := errInfoWord c
    errIp := ip
    errOp := op
    outLen := 0
    status := statusWord false true true
    outMem := s.outMem.forgetFrom 0 s.freeTag
    freeTag := s.freeTag + 2 }

/-- `halt(DONE)` (43_host_commands R236), after OUT_LEN has been written. The bytes of OUT at and above OUT_LEN
and the working registers become unspecified (43_host_commands R237, 10_state R23). -/
def State.halt (s : State) : State :=
  { s.workUnspecified (s.freeTag + 1) with
    status := statusWord false true false
    outMem := s.outMem.forgetFrom s.outLen.toNat s.freeTag
    freeTag := s.freeTag + 2 }

/-- The acceptance of a command (43_host_commands R233). It is also the only way out of the error state: there is
no return from an error (60_exceptions R266). -/
def State.accept (u : EngineUnit) (s : State) : State :=
  { s with
    unit := u
    status := statusWord true false false
    errInfo := 0
    errIp := 0
    errOp := 0
    outLen := 0
    n := s.inLen }

/-- The reset event (70_reset_and_hazards R290 to R292): the host registers are 0, the phase is idle, the working
registers and both memories are unspecified. The parameters and the host are outside the core (log 22). -/
def State.resetEvent (s : State) : State :=
  { State.reset.workUnspecified (s.freeTag + 2) with
    cfg := s.cfg
    inMem := s.inMem.forgetFrom 0 s.freeTag
    outMem := s.outMem.forgetFrom 0 (s.freeTag + 1)
    host := s.host
    readData := s.readData
    freeTag := s.freeTag + 3 }

/-! ### The copy primitives -/

/-- Writes a byte at `OUT[op]` and advances `op` (10_state R44). -/
def State.outPush (v : Byte) (s : State) : State :=
  { s with outMem := s.outMem.write s.op.toNat v, op := s.op + 1#32 }

/-- `CopyLiterals(src, cnt)` (40_decoder_opcodes R143). -/
def copyLiterals (src : Nat) : Nat → State → State
  | 0, s => s
  | k + 1, s => copyLiterals (src + 1) k (s.outPush (s.inMem.read src))

/-- `CopyMatch(off, len)`, byte by byte: each byte is read after the one before it is written
(40_decoder_opcodes R144, 20_memory R70). -/
def copyMatch (off : Nat) : Nat → State → State
  | 0, s => s
  | k + 1, s => copyMatch off k (s.outPush (s.outMem.read (s.op.toNat - off)))

/-- The addresses of IN below `hi` exist (20_memory R67). -/
def State.inCovers (hi : Nat) (s : State) : Bool := decide (hi ≤ s.cfg.inSize)

/-- The addresses of OUT below `hi` exist (20_memory R67). -/
def State.outCovers (hi : Nat) (s : State) : Bool := decide (hi ≤ s.cfg.outSize)

/-- The operands of a command are legal: IN_LEN in 0 .. IN_SIZE, OUT_CAP in 0 .. OUT_SIZE (10_state R39, R40). -/
def State.operandsFit (s : State) : Bool := s.inCovers s.inLen.toNat && s.outCovers s.outCap.toNat

end Sys2Proof.Machine
end

