-- ==== Sys2Proof/Machine/MatchFinder.lean ====
section
/-! DEFINITION. The match finder MF, a pure function of IN, `cur` and `n` (41_match_finder). -/

namespace Sys2Proof.Machine

/-- The largest offset MF searches (00_scope R7). -/
def maxLookback : Nat := 131072

/-- The largest length MF reports (00_scope R7). -/
def maxMatch : Nat := 1028

/-- The number of equal bytes from `a` and from `b` upward, at most `cap`. -/
def equalRun (m : Memory) (a b : Nat) : Nat → Nat
  | 0 => 0
  | cap + 1 => if m.read a = m.read b then equalRun m (a + 1) (b + 1) cap + 1 else 0

/-- `runlen(cur, o)` (41_match_finder R171). -/
def runlen (m : Memory) (n cur o : Nat) : Nat := equalRun m (cur - o) cur (min maxMatch (n - cur))

/-- At least one copy class covers the offset and the length (41_match_finder R172). -/
def encodable (o len : Nat) : Bool :=
  (decide (3 ≤ len) && decide (o ≤ 1024)) || (decide (4 ≤ len) && decide (o ≤ 16384)) ||
    (decide (5 ≤ len) && decide (o ≤ 131072))

/-- The candidate `(o, len)` is longer than the best so far. -/
def longerThan (best : Option (Nat × Nat)) (len : Nat) : Bool :=
  match best with
  | none => true
  | some (_, l) => decide (l < len)

/-- The best match among the offsets `1 .. k`, in increasing order of the offset (41_match_finder R173). -/
def bestMatch (m : Memory) (n cur : Nat) : Nat → Option (Nat × Nat)
  | 0 => none
  | k + 1 =>
    let best := bestMatch m n cur k
    let len := runlen m n cur (k + 1)
    if encodable (k + 1) len && longerThan best len then some (k + 1, len) else best

/-- `MF(cur, n)` (41_match_finder R173): offset and length, or none. -/
def matchFinder (m : Memory) (n cur : Nat) : Option (Nat × Nat) :=
  bestMatch m n cur (min cur maxLookback)

end Sys2Proof.Machine
end

