-- ==== Sys2Proof/Machine/Operands.lean ====
section
/-! DEFINITION. The operand forms: the header of a stream (30_encoding R91, R92), the literal and match phases of an
opcode (40_decoder_opcodes R133, R134), ENC's output primitive (42_encoder R191), and the opcode latch. -/

namespace Sys2Proof.Machine

/-! ### The header -/

/-- The largest declared size the 3-byte form holds (00_scope R7). -/
def smallSizeMax : Nat := 2 ^ 24 - 1

/-- The two bytes are a recognised magic (30_encoding R92). -/
def magicRecognised (c : Config) (h0 h1 : Byte) : Bool :=
  decide (h0 = c.magic0) && decide (h1 &&& ~~~c.largeMask = c.magic1)

/-- The flag bit of the second magic byte is set: the large form (30_encoding R92). -/
def headerIsLarge (c : Config) (h1 : Byte) : Bool := decide (h1 &&& c.largeMask ≠ 0#8)

/-- HDR_SMALL = 5 or HDR_LARGE = 6 (00_scope R7, 10_state R28). -/
def headerLength (large : Bool) : Nat := 5 + large.toNat

/-- The header's bytes for a declared size (30_encoding R91). -/
def headerBytes (c : Config) (large : Bool) (size : Nat) : List Byte :=
  c.magic0 :: (if large then c.magic1 ||| c.largeMask else c.magic1) ::
    beBytes size (headerLength large - 2)

/-! ### The opcode latch -/

/-- The form of an opcode; a command has none. -/
def formOf : Instr → Option Form
  | .shortCopy _ _ _ => some .shortCopy
  | .mediumCopy _ _ _ => some .mediumCopy
  | .longCopy _ _ _ => some .longCopy
  | .literalRun _ => some .literalRun
  | .streamEnd _ => some .streamEnd
  | .compress => none
  | .decompress => none

/-- The opcode latch for an opcode (10_state R29); a command leaves the latch as it is. -/
def latchOf (old : Latch) (i : Instr) : Latch :=
  match formOf i with
  | none => old
  | some form =>
    { form := form
      size := controlSize form
      lit := literalCount i
      len := matchLength i
      off := matchOffset i }

/-- The latch holds the opcode (40_decoder_opcodes R132). -/
def State.latchOpcode (i : Instr) (s : State) : State := { s with latch := latchOf s.latch i }

/-! ### The phases of an opcode -/

/-- LiteralPhase (40_decoder_opcodes R133), `ip` at the opcode's control byte 0. -/
def literalPhase (size lit : Nat) (s : State) : Flow :=
  if s.n.toNat < s.ip.toNat + size + lit then .ended (.next (s.raise .inputExhausted s.ip s.op))
  else if s.dsize.toNat < s.op.toNat + lit then .ended (.next (s.raise .sizeMismatch s.ip s.op))
  else if !s.inCovers (s.ip.toNat + size + lit) then .ended (.fault .inAddressAbsent)
  else if !s.outCovers (s.op.toNat + lit) then .ended (.fault .outAddressAbsent)
  else .go { copyLiterals (s.ip.toNat + size) lit s with ip := s.ip + word (size + lit) }

/-- MatchPhase (40_decoder_opcodes R134) of the opcode whose control byte 0 is at `ip0`. -/
def matchPhase (ip0 : Word) (len off : Nat) (s : State) : Flow :=
  if s.op.toNat < off then .ended (.next (s.raise .badOffset ip0 s.op))
  else if s.dsize.toNat < s.op.toNat + len then .ended (.next (s.raise .sizeMismatch ip0 s.op))
  else if !s.outCovers (s.op.toNat + len) then .ended (.fault .outAddressAbsent)
  else .go (copyMatch off len s)

/-- StreamEnd after its literals (40_decoder_opcodes R140), the opcode's control byte 0 at `ip0`. -/
def endPhase (ip0 : Word) (s : State) : Flow :=
  if s.op ≠ s.dsize then .ended (.next (s.raise .sizeMismatch ip0 s.op))
  else if s.expectEn && decide (s.op ≠ s.expect) then .ended (.next (s.raise .expectMismatch ip0 s.op))
  else .go ({ s with outLen := s.op }).halt

/-! ### ENC's output primitive -/

/-- `Put(v)` (42_encoder R191). -/
def put (v : Byte) (s : State) : Flow :=
  if s.outCap.toNat ≤ s.op.toNat then .ended (.next (s.raise .outCapacity s.cur s.op))
  else if !s.outCovers (s.op.toNat + 1) then .ended (.fault .outAddressAbsent)
  else .go (s.outPush v)

/-- `PutBytes(s)` (42_encoder R191). -/
def putBytes : List Byte → State → Flow
  | [], s => .go s
  | v :: vs, s => (put v s).andThen (putBytes vs)

/-- `PutInput(a, c)` (42_encoder R191). -/
def putInput (a c : Nat) (s : State) : Flow :=
  if !s.inCovers (a + c) then .ended (.fault .inAddressAbsent)
  else putBytes (s.inMem.readBytes a c) s

end Sys2Proof.Machine
end

