-- ==== Sys2Proof/Machine/Encoder.lean ====
section
/-! DEFINITION. The encoder ENC after its start: one step per cursor position, and the end of the stream
(42_encoder R193 to R201). -/

namespace Sys2Proof.Machine

/-- The literals of the next LiteralRun of a flush: the largest multiple of 4 up to 112 (42_encoder R195). -/
def flushChunk (pending : Nat) : Nat := min 112 (4 * (pending / 4))

/-- The number of pending literals, `cur - ls` (42_encoder R194). -/
def State.pending (s : State) : Nat := s.cur.toNat - s.ls.toNat

/-- One LiteralRun of a flush (42_encoder R195, R200). -/
def flushOne (s : State) : Flow :=
  let c := flushChunk s.pending
  ((putBytes (encode (.literalRun c)) s).andThen (putInput s.ls.toNat c)).andThen
    fun t => .go { t with ls := t.ls + word c }

/-- At most `fuel` LiteralRuns, until at most 3 literals are pending. -/
def flushLoop : Nat → State → Flow
  | 0, s => .go s
  | fuel + 1, s => if 4 ≤ s.pending then (flushOne s).andThen (flushLoop fuel) else .go s

/-- `Flush()` (42_encoder R195). Each round takes at least 4 pending literals, so their number is fuel enough. -/
def flush (s : State) : Flow := flushLoop s.pending s

/-- `class(o, L)` (42_encoder R196). -/
def copyClass (o len : Nat) : Form :=
  if o ≤ 1024 ∧ 3 ≤ len ∧ len ≤ 10 then .shortCopy
  else if o ≤ 16384 ∧ 4 ≤ len ∧ len ≤ 67 then .mediumCopy
  else .longCopy

/-- The copy opcode of a match, in the class that `copyClass` gives it (42_encoder R197 to R199). -/
def copyInstr (lit o len : Nat) : Instr :=
  match copyClass o len with
  | .shortCopy => .shortCopy lit len o
  | .mediumCopy => .mediumCopy lit len o
  | .longCopy => .longCopy lit len o
  | .literalRun => .longCopy lit len o
  | .streamEnd => .longCopy lit len o

/-- The emission of a match `(o, len)` after the flush (42_encoder R193): the opcode latch, the control bytes, the
pending literals, and the cursor past the match (log 26). -/
def emitMatch (o len : Nat) (s : State) : Flow :=
  let i := copyInstr s.pending o len
  ((putBytes (encode i) (s.latchOpcode i)).andThen (putInput s.ls.toNat s.pending)).andThen
    fun t => .go { t with cur := t.cur + word len, ls := t.cur + word len }

/-- The emission of StreamEnd after the flush (42_encoder R201). -/
def emitEnd (s : State) : Flow :=
  ((putBytes (encode (.streamEnd s.pending)) s).andThen (putInput s.ls.toNat s.pending)).andThen
    fun t => .go ({ t with outLen := t.op }).halt

/-- ENC_STEP at a cursor below `n` (42_encoder R193). -/
def encCursorStep (s : State) : Flow :=
  if !s.inCovers (min s.n.toNat (s.cur.toNat + maxMatch)) then .ended (.fault .inAddressAbsent)
  else
    match matchFinder s.inMem s.n.toNat s.cur.toNat with
    | none => .go { s with cur := s.cur + 1#32 }
    | some (o, len) => (flush s).andThen (emitMatch o len)

/-- ENC_END (42_encoder R201). -/
def encEnd (s : State) : Flow := (flush s).andThen emitEnd

/-- One step of ENC: ENC_STEP while `cur < n`, then ENC_END (43_host_commands R231). -/
def encStep (s : State) : Host.Outcome State Fault Refusal :=
  if s.cur.toNat < s.n.toNat then (encCursorStep s).outcome else (encEnd s).outcome

end Sys2Proof.Machine
end

