-- ==== Sys2Proof/Machine/Commands.lean ====
section
/-! DEFINITION. The two host commands (43_host_commands R230 to R233): a write of the command's code to CMD. A
command's meaning is its acceptance and its unit's start rule; the unit's own steps follow (43_host_commands
R235; log 14). -/

namespace Sys2Proof.Machine

/-- DEC_START after the acceptance has latched `n` (40_decoder_opcodes R131), the checks in the order of
60_exceptions R260. -/
def decStart (s : State) : State :=
  if s.n.toNat < 2 then s.raise .hdrTruncated 0 0
  else if !magicRecognised s.cfg (s.inMem.read 0) (s.inMem.read 1) then s.raise .badMagic 0 0
  else
    let large := headerIsLarge s.cfg (s.inMem.read 1)
    let hdr := headerLength large
    if s.n.toNat < hdr then s.raise .hdrTruncated 0 0
    else
      let dsize := beValue (s.inMem.readBytes 2 (hdr - 2))
      if s.outCap.toNat < dsize then s.raise .outCapacity 0 0
      else
        { s with
          large := large
          hdr := BitVec.ofNat 3 hdr
          dsize := word dsize
          ip := word hdr
          op := 0 }

/-- ENC_START after the acceptance has latched `n` (42_encoder R192). -/
def encStart (s : State) : Flow :=
  let large := decide (smallSizeMax < s.n.toNat)
  putBytes (headerBytes s.cfg large s.n.toNat)
    { s with
      op := 0
      cur := 0
      ls := 0
      large := large
      hdr := BitVec.ofNat 3 (headerLength large) }

/-- COMPRESS (43_host_commands R231): without effect while BUSY (R234); with operands beyond the memories it is
outside the spec (10_state R39; log 11). -/
def execCompress (s : State) : Host.Outcome State Fault Refusal :=
  if s.busy then .next s
  else if !s.operandsFit then .refused .operandsBeyondMemory
  else (encStart (s.accept .enc)).outcome

/-- DECOMPRESS (43_host_commands R232): without effect while BUSY (R234); with operands beyond the memories it is
outside the spec (10_state R39; log 11). -/
def execDecompress (s : State) : Host.Outcome State Fault Refusal :=
  if s.busy then .next s
  else if !s.operandsFit then .refused .operandsBeyondMemory
  else .next (decStart (s.accept .dec))

end Sys2Proof.Machine
end

