-- ==== Sys2Proof/Machine/Copies.lean ====
section
/-! DEFINITION. The three copy opcodes (40_decoder_opcodes R136 to R138). The state is that of a DEC run with `ip` at
the opcode's control byte 0; `step` executes an opcode in no other (log 20). -/

namespace Sys2Proof.Machine

/-- A copy opcode of `size` control bytes: the literal phase, then the match phase. -/
def copyOpcode (size lit len off : Nat) (s : State) : Host.Outcome State Fault Refusal :=
  ((literalPhase size lit s).andThen (matchPhase s.ip len off)).outcome

/-- ShortCopy (40_decoder_opcodes R136). -/
def execShortCopy (lit len off : Nat) (s : State) : Host.Outcome State Fault Refusal :=
  copyOpcode (controlSize .shortCopy) lit len off s

/-- MediumCopy (40_decoder_opcodes R137). -/
def execMediumCopy (lit len off : Nat) (s : State) : Host.Outcome State Fault Refusal :=
  copyOpcode (controlSize .mediumCopy) lit len off s

/-- LongCopy (40_decoder_opcodes R138). -/
def execLongCopy (lit len off : Nat) (s : State) : Host.Outcome State Fault Refusal :=
  copyOpcode (controlSize .longCopy) lit len off s

end Sys2Proof.Machine
end

