-- ==== Sys2Proof/Machine/Literals.lean ====
section
/-! DEFINITION. The two opcodes without a copy (40_decoder_opcodes R139, R140). The state is that of a DEC run with
`ip` at the opcode's control byte 0; `step` executes an opcode in no other (log 20). -/

namespace Sys2Proof.Machine

/-- LiteralRun (40_decoder_opcodes R139). -/
def execLiteralRun (lit : Nat) (s : State) : Host.Outcome State Fault Refusal :=
  (literalPhase (controlSize .literalRun) lit s).outcome

/-- StreamEnd (40_decoder_opcodes R140). -/
def execStreamEnd (lit : Nat) (s : State) : Host.Outcome State Fault Refusal :=
  ((literalPhase (controlSize .streamEnd) lit s).andThen (endPhase s.ip)).outcome

end Sys2Proof.Machine
end

