-- ==== Sys2Proof/Machine/Dispatch.lean ====
section
/-! DEFINITION. The meaning of each instruction, one arm per constructor. -/

namespace Sys2Proof.Machine

-- ONE match: each arm a direct call of a meaning.
def exec (i : Instr) (s : State) : Host.Outcome State Fault Refusal :=
  match i with
  | .shortCopy lit len off => Sys2Proof.Machine.execShortCopy lit len off s
  | .mediumCopy lit len off => Sys2Proof.Machine.execMediumCopy lit len off s
  | .longCopy lit len off => Sys2Proof.Machine.execLongCopy lit len off s
  | .literalRun lit => Sys2Proof.Machine.execLiteralRun lit s
  | .streamEnd lit => Sys2Proof.Machine.execStreamEnd lit s
  | .compress => Sys2Proof.Machine.execCompress s
  | .decompress => Sys2Proof.Machine.execDecompress s

end Sys2Proof.Machine
end

