-- ==== Sys2Proof/Machine/Fetch.lean ====
section
/-! DEFINITION. The busy phase: DEC's fetch and step (40_decoder_opcodes R132), and the step of whichever unit runs
(10_state R22). -/

namespace Sys2Proof.Machine

/-- What a fetch answers. -/
inductive Fetch where
  /-- A whole opcode. -/
  | got (i : Instr)
  /-- The input ends at or inside the control bytes. -/
  | exhausted
  /-- The control bytes lie at addresses of IN that do not exist. -/
  | absent
  deriving DecidableEq, Repr

/-- DEC's fetch at `ip` (40_decoder_opcodes R132): control byte 0 gives the number of control bytes. -/
def fetch (s : State) : Fetch :=
  if s.n.toNat ≤ s.ip.toNat then .exhausted
  else if !s.inCovers (s.ip.toNat + 1) then .absent
  else
    let size := controlSize (classify (s.inMem.read s.ip.toNat))
    if s.n.toNat < s.ip.toNat + size then .exhausted
    else if !s.inCovers (s.ip.toNat + size) then .absent
    else
      match decode (s.inMem.readBytes s.ip.toNat size) with
      | .ok (i, _) => .got i
      | .error _ => .exhausted

/-- DEC_STEP (40_decoder_opcodes R132): fetch, latch the opcode, execute it. -/
def decStep (s : State) : Host.Outcome State Fault Refusal :=
  match fetch s with
  | .got i => exec i (s.latchOpcode i)
  | .exhausted => .next (s.raise .inputExhausted s.ip s.op)
  | .absent => .fault .inAddressAbsent

end Sys2Proof.Machine
end

