-- ==== Sys2Proof/Machine/Engine.lean ====
section
/-! DEFINITION. One step of the engine: of DEC or ENC while busy, none while idle (10_state R22). -/

namespace Sys2Proof.Machine

/-- One step of the engine. While idle nothing executes (70_reset_and_hazards R293; log 23). -/
def engineStep (s : State) : Host.Outcome State Fault Refusal :=
  if s.busy then
    match s.unit with
    | .dec => decStep s
    | .enc => encStep s
  else .next s

end Sys2Proof.Machine
end

