-- ==== Sys2Proof/Machine/HostMoves.lean ====
section
/-! DEFINITION. The host's moves: registers, memories, polling and reset (10_state R35 to R44, 43_host_commands
R233 to R239). -/

namespace Sys2Proof.Machine

/-- What an idle host read of a register returns (10_state R35): CMD reads 0. -/
def State.readIdle (s : State) : HostReg → Word
  | .cmd => 0
  | .status => s.status
  | .errInfo => s.errInfo
  | .inLen => s.inLen
  | .outCap => s.outCap
  | .outLen => s.outLen
  | .expect => s.expect
  | .ctrl => s.ctrl
  | .errIp => s.errIp
  | .errOp => s.errOp

/-- What a host read of a register returns while BUSY (43_host_commands R235): STATUS itself, 0 for CMD, ERRINFO,
OUT_LEN, ERR_IP and ERR_OP, and for the RW registers, whose read has no defined result, a free value, of
which CTRL shows bit 0 only (log 13). -/
def State.readBusy (s : State) : HostReg → Word
  | .cmd => 0
  | .status => s.status
  | .errInfo => 0
  | .inLen => Config.freeBits 32 s.freeTag 0
  | .outCap => Config.freeBits 32 s.freeTag 0
  | .outLen => 0
  | .expect => Config.freeBits 32 s.freeTag 0
  | .ctrl => ctrlKept (Config.freeBits 32 s.freeTag 0)
  | .errIp => 0
  | .errOp => 0

/-- A host read of a register; while BUSY it takes one tag of free values. -/
def readReg (r : HostReg) (s : State) : State :=
  if s.busy then { s with readData := s.readBusy r, freeTag := s.freeTag + 1 }
  else { s with readData := s.readIdle r }

/-- A host write to a register other than CMD while idle: read-only registers ignore it (10_state R35). -/
def writeIdle (r : HostReg) (v : Word) (s : State) : State :=
  match r with
  | .cmd => s
  | .status => s
  | .errInfo => s
  | .inLen => { s with inLen := v }
  | .outCap => { s with outCap := v }
  | .outLen => s
  | .expect => { s with expect := v }
  | .ctrl => { s with ctrl := ctrlKept v }
  | .errIp => s
  | .errOp => s

/-- A host write to CMD: a legal code runs that command's meaning, any other has no effect (43_host_commands
R233, R234). -/
def writeCmd (v : Word) (s : State) : Host.Outcome State Fault Refusal :=
  match decodeCommand v with
  | .ok i => exec i s
  | .error _ => .next s

/-- A host write to a register; the RW registers ignore it while BUSY (10_state R35, 43_host_commands R235). -/
def writeReg (r : HostReg) (v : Word) (s : State) : Host.Outcome State Fault Refusal :=
  match r with
  | .cmd => writeCmd v s
  | r => if s.busy then .next s else .next (writeIdle r v s)

/-- A host write of a byte of IN (10_state R43): while idle only (20_memory R71; log 10). -/
def writeIn (a : Nat) (b : Byte) (s : State) : Host.Outcome State Fault Refusal :=
  if s.busy then .refused .hostMemoryAccessWhileBusy
  else if !s.inCovers (a + 1) then .fault .inAddressAbsent
  else .next { s with inMem := s.inMem.write a b }

/-- A host read of a byte of OUT (10_state R44): while idle only (20_memory R71; log 10). -/
def readOut (a : Nat) (s : State) : Host.Outcome State Fault Refusal :=
  if s.busy then .refused .hostMemoryAccessWhileBusy
  else if !s.outCovers (a + 1) then .fault .outAddressAbsent
  else .next { s with readData := (s.outMem.read a).setWidth 32 }

/-- The move `m`, in the state with the moves that follow it pending. -/
def hostMove (m : HostMove) (s : State) : Host.Outcome State Fault Refusal :=
  match m with
  | .writeReg r v => writeReg r v s
  | .readReg r => .next (readReg r s)
  | .writeIn a b => writeIn a b s
  | .readOut a => readOut a s
  | .tick => engineStep s
  | .await => if s.busy then engineStep { s with host := .await :: s.host } else .next s
  | .reset => .next s.resetEvent

/-- One step of the machine: the host's next move, or the engine's step when the host makes none (log 9). -/
def machineStep (s : State) : Host.Outcome State Fault Refusal :=
  match s.host with
  | [] => engineStep s
  | m :: rest => hostMove m { s with host := rest }

/-- Where a table word is placed for DEC: at `ip`, or at address 0 where the longest opcode would not fit in IN
from `ip` (log 21). -/
def tableWordAddress (s : State) : Nat :=
  if s.ip.toNat + longestOpcode ≤ min s.cfg.inSize (2 ^ 32 - 1) then s.ip.toNat else 0

/-- A table word where the next step takes it from (log 21): a command's as the host's next write to CMD; an
opcode's in IN at `ip`, with zeros up to the longest opcode, in a running DEC whose engine is the next to
step. -/
def placeTableWord (s : State) (nbits w : Nat) : State :=
  if isCommandWord nbits w then { s with host := .writeReg .cmd (word w) :: s.host }
  else
    let a := tableWordAddress s
    let bytes := tableBytes nbits w
    { s with
      ip := word a
      n := word (max s.n.toNat (a + longestOpcode))
      unit := .dec
      status := statusWord true false false
      inMem := s.inMem.writeBytes a (bytes ++ List.replicate (longestOpcode - bytes.length) 0#8)
      host := .tick :: s.host }

end Sys2Proof.Machine
end

