-- ==== Sys2Proof/Safety.lean ====
section
/-! DEFINITION. What counts as a sound state, in the terms the statements use: the memories in canonical form, the
registers in the combinations the spec calls reachable, and the pointers of a running unit in order. -/

namespace Sys2Proof.Machine

/-- No byte is listed at an address the memory does not have (20_memory R67). -/
abbrev Memory.within (size : Nat) (m : Memory) : Prop := ∀ c ∈ m.cells, c.1 < size

/-- The free values of the memory stand under tags already taken (log 8). -/
abbrev Memory.tagsBelow (t : Nat) (m : Memory) : Prop := ∀ e ∈ m.tags, e.2 < t

/-- (BUSY, DONE, ERR) is one of the four legal combinations, the reserved bits 0 (10_state R37). -/
abbrev State.statusLegal (s : State) : Prop :=
  s.status = 0#32 ∨ s.status = 1#32 ∨ s.status = 2#32 ∨ s.status = 6#32

/-- ERRINFO is a class with one of its causes (10_state R38, 60_exceptions R251). -/
abbrev State.errInfoLegal (s : State) : Prop :=
  s.errInfo = 0x011#32 ∨ s.errInfo = 0x021#32 ∨ s.errInfo = 0x031#32 ∨ s.errInfo = 0x041#32 ∨
    s.errInfo = 0x051#32 ∨ s.errInfo = 0x061#32 ∨ s.errInfo = 0x072#32

/-- DEC's pointers between opcodes: `hdr <= ip <= n` and `op <= dsize <= OUT_CAP` (40_decoder_opcodes R147). -/
structure State.DecPointers (s : State) : Prop where
  hdr_le_ip : s.hdr.toNat ≤ s.ip.toNat
  ip_le_n : s.ip.toNat ≤ s.n.toNat
  op_le_dsize : s.op.toNat ≤ s.dsize.toNat
  dsize_le_outCap : s.dsize.toNat ≤ s.outCap.toNat

/-- ENC's pointers between steps: `ls <= cur <= n` (10_state R27) and `op <= OUT_CAP` (10_state R24), the header
written. -/
structure State.EncPointers (s : State) : Prop where
  hdr_le_op : s.hdr.toNat ≤ s.op.toNat
  op_le_outCap : s.op.toNat ≤ s.outCap.toNat
  ls_le_cur : s.ls.toNat ≤ s.cur.toNat
  cur_le_n : s.cur.toNat ≤ s.n.toNat

/-- What holds between the steps of a running command. -/
structure State.Running (s : State) : Prop where
  n_eq : s.n = s.inLen
  in_fits : s.inLen.toNat ≤ s.cfg.inSize
  out_fits : s.outCap.toNat ≤ s.cfg.outSize
  hdr_eq : s.hdr.toNat = headerLength s.large
  dec_pointers : s.unit = .dec → s.DecPointers
  enc_pointers : s.unit = .enc → s.EncPointers

/-- The invariant of the machine. -/
structure State.Inv (s : State) : Prop where
  cfg_wf : s.cfg.wf = true
  in_wf : s.inMem.wf
  out_wf : s.outMem.wf
  in_within : s.inMem.within s.cfg.inSize
  out_within : s.outMem.within s.cfg.outSize
  in_tags : s.inMem.tagsBelow s.freeTag
  out_tags : s.outMem.tagsBelow s.freeTag
  status_legal : s.statusLegal
  err_info : s.err = true → s.errInfoLegal
  no_err_info : s.err = false → s.errInfo = 0#32 ∧ s.errIp = 0#32 ∧ s.errOp = 0#32
  no_result : s.status ≠ 2#32 → s.outLen = 0#32
  result_fits : s.outLen.toNat ≤ s.cfg.outSize
  ctrl_kept : ctrlKept s.ctrl = s.ctrl
  running : s.busy = true → s.Running

/-- What a command that ended by error leaves (60_exceptions R263, R264, 43_host_commands R237): the cause with the
positions it records, no result; IN, the RW registers and what stands outside the core unchanged. Nothing is said of
OUT, which is unspecified. -/
structure State.EndedByError (s t : State) (errInfo : Nat) (errIp errOp : Word) : Prop where
  status : t.status = 6#32
  errInfo : t.errInfo = word errInfo
  errIp : t.errIp = errIp
  errOp : t.errOp = errOp
  outLen : t.outLen = 0#32
  inMem : t.inMem = s.inMem
  inLen : t.inLen = s.inLen
  outCap : t.outCap = s.outCap
  expect : t.expect = s.expect
  ctrl : t.ctrl = s.ctrl
  cfg : t.cfg = s.cfg
  host : t.host = s.host
  readData : t.readData = s.readData

/-- What a command that ended normally leaves (43_host_commands R236): no new error; IN, the RW registers and what stands
outside the core unchanged. Nothing is said of OUT. -/
structure State.EndedNormally (s t : State) : Prop where
  status : t.status = 2#32
  errInfo : t.errInfo = s.errInfo
  errIp : t.errIp = s.errIp
  errOp : t.errOp = s.errOp
  inMem : t.inMem = s.inMem
  inLen : t.inLen = s.inLen
  outCap : t.outCap = s.outCap
  expect : t.expect = s.expect
  ctrl : t.ctrl = s.ctrl
  cfg : t.cfg = s.cfg
  host : t.host = s.host
  readData : t.readData = s.readData

/-- The state with the host's pending moves `h` (log 9). -/
def State.withHost (h : List HostMove) (s : State) : State := { s with host := h }

/-- The outcome with the host's pending moves `h` in the state it leaves; a stop stays the same stop (log 9). -/
def outcomeWithHost (h : List HostMove) : Host.Outcome State Fault Refusal → Host.Outcome State Fault Refusal
  | .next t => .next (t.withHost h)
  | .fault r => .fault r
  | .refused r => .refused r

/-- `len` is the run length at offset `o`: the largest `L` up to 1028 and up to the end of the input such that
`IN[cur - o + k] = IN[cur + k]` for all `k` below it (41_match_finder R171). -/
def RunLengthIs (m : Memory) (n cur o len : Nat) : Prop :=
  len ≤ 1028 ∧ cur + len ≤ n ∧ (∀ k, k < len → m.read (cur - o + k) = m.read (cur + k)) ∧
    ∀ len', len' ≤ 1028 → cur + len' ≤ n →
      (∀ k, k < len' → m.read (cur - o + k) = m.read (cur + k)) → len' ≤ len

/-- At least one copy class covers the offset and the length (41_match_finder R172). -/
def Covered (o len : Nat) : Prop :=
  (3 ≤ len ∧ o ≤ 1024) ∨ (4 ≤ len ∧ o ≤ 16384) ∨ (5 ≤ len ∧ o ≤ 131072)

/-- A candidate of the match finder: an offset of the window with its run, which some class covers
(41_match_finder R173). -/
def Candidate (m : Memory) (n cur o len : Nat) : Prop :=
  1 ≤ o ∧ o ≤ cur ∧ o ≤ 131072 ∧ RunLengthIs m n cur o len ∧ Covered o len

/-- The opcode of a match in the first class that covers it (42_encoder R196). -/
def classOpcode (lit o len : Nat) : Instr :=
  if o ≤ 1024 ∧ 3 ≤ len ∧ len ≤ 10 then .shortCopy lit len o
  else if o ≤ 16384 ∧ 4 ≤ len ∧ len ≤ 67 then .mediumCopy lit len o
  else .longCopy lit len o

/-- The number of bytes a flush of `p` pending literals writes: the literals that LiteralRuns take, a multiple of 4,
and one control byte per LiteralRun, of which all but possibly the last carry 112 (42_encoder R195). -/
def flushLength (p : Nat) : Nat := (p - p % 4) + (p - p % 4 + 111) / 112

/-- OUT of `t` holds, from the `op` of `s` up, the flush of `p` literals of IN that start at the `ls` of `s`: LiteralRun
number `j` has its control byte 113 `j` bytes on and carries 112 literals, the last one those that remain
(42_encoder R195, R200). -/
def FlushedAt (s t : State) (p : Nat) : Prop :=
  (∀ j, 112 * j < p - p % 4 →
    t.outMem.read (s.op.toNat + 113 * j) =
      BitVec.ofNat 8 (0xE0 ||| (min 112 (p - p % 4 - 112 * j) / 4 - 1))) ∧
  (∀ k, k < p - p % 4 →
    t.outMem.read (s.op.toNat + k + k / 112 + 1) = s.inMem.read (s.ls.toNat + k))

end Sys2Proof.Machine
end

