-- ==== Sys2Proof/Certificates/Slice0/Obligations.lean ====
section
/-! DEFINITION. The statements for the provers, each with the rule of spec/ it formalises. -/

open Sys2Proof Sys2Proof.Machine

/-! ### The encoding -/

/-- 30_encoding R105: `parse` and `emit` are inverse on every opcode value in range and on every control-byte
string. -/
def Obligations.OpcodesRoundTrip : Prop :=
  (∀ (i : Instr) (rest : List Byte), i.isOpcode = true → i.wellFormed = true →
    decode (encode i ++ rest) = .ok (i, rest)) ∧
  (∀ (bs : List Byte) (i : Instr) (rest : List Byte), decode bs = .ok (i, rest) → encode i ++ rest = bs)

/-- 30_encoding R106: every parsed field lies in its range, and the ends of the ranges are reached. -/
def Obligations.ParsedFieldsInRange : Prop :=
  (∀ (bs : List Byte) (i : Instr) (rest : List Byte), decode bs = .ok (i, rest) →
    i.isOpcode = true ∧ i.wellFormed = true) ∧
  decode [0x7F#8, 0xFF#8] = .ok (.shortCopy 3 10 1024, []) ∧
  decode [0xBF#8, 0xFF#8, 0xFF#8] = .ok (.mediumCopy 3 67 16384, []) ∧
  decode [0xDF#8, 0xFF#8, 0xFF#8, 0xFF#8] = .ok (.longCopy 3 1028 131072, []) ∧
  decode [0xFB#8] = .ok (.literalRun 112, []) ∧
  decode [0xFF#8] = .ok (.streamEnd 3, []) ∧
  decode [0x00#8, 0x00#8] = .ok (.shortCopy 0 3 1, []) ∧
  decode [0x80#8, 0x00#8, 0x00#8] = .ok (.mediumCopy 0 4 1, []) ∧
  decode [0xC0#8, 0x00#8, 0x00#8, 0x00#8] = .ok (.longCopy 0 5 1, []) ∧
  decode [0xE0#8] = .ok (.literalRun 4, []) ∧
  decode [0xFC#8] = .ok (.streamEnd 0, [])

/-- 30_encoding R99, R107: control byte 0 selects the form by the thresholds 0x80, 0xC0, 0xE0, 0xFC. -/
def Obligations.FirstByteSelectsForm : Prop :=
  ∀ b : Byte,
    (classify b = .shortCopy ↔ b.toNat < 0x80) ∧
    (classify b = .mediumCopy ↔ 0x80 ≤ b.toNat ∧ b.toNat < 0xC0) ∧
    (classify b = .longCopy ↔ 0xC0 ≤ b.toNat ∧ b.toNat < 0xE0) ∧
    (classify b = .literalRun ↔ 0xE0 ≤ b.toNat ∧ b.toNat < 0xFC) ∧
    (classify b = .streamEnd ↔ 0xFC ≤ b.toNat)

/-- 30_encoding R102: the fields by the spec's masks and shifts. -/
def Obligations.ParseByMasksAndShifts : Prop :=
  ∀ (b0 b1 b2 b3 : Byte) (rest : List Byte),
    (b0.toNat < 0x80 → decode (b0 :: b1 :: rest) = .ok (.shortCopy
      (b0.toNat &&& 0x03) (((b0.toNat &&& 0x1C) >>> 2) + 3)
      (((b0.toNat &&& 0x60) <<< 3) + b1.toNat + 1), rest)) ∧
    (0x80 ≤ b0.toNat → b0.toNat < 0xC0 → decode (b0 :: b1 :: b2 :: rest) = .ok (.mediumCopy
      (b1.toNat >>> 6) ((b0.toNat &&& 0x3F) + 4)
      (((b1.toNat &&& 0x3F) <<< 8) + b2.toNat + 1), rest)) ∧
    (0xC0 ≤ b0.toNat → b0.toNat < 0xE0 → decode (b0 :: b1 :: b2 :: b3 :: rest) = .ok (.longCopy
      (b0.toNat &&& 0x03) (((b0.toNat &&& 0x0C) <<< 6) + b3.toNat + 5)
      (((b0.toNat &&& 0x10) <<< 12) + (b1.toNat <<< 8) + b2.toNat + 1), rest)) ∧
    (0xE0 ≤ b0.toNat → b0.toNat < 0xFC → decode (b0 :: rest) =
      .ok (.literalRun (((b0.toNat &&& 0x1F) <<< 2) + 4), rest)) ∧
    (0xFC ≤ b0.toNat → decode (b0 :: rest) = .ok (.streamEnd (b0.toNat &&& 0x03), rest))

/-- 30_encoding R103: the control bytes by the spec's shifts and ors, for fields in range. -/
def Obligations.EmitByShiftsAndOrs : Prop :=
  ∀ (lit len off : Nat),
    ((Instr.shortCopy lit len off).wellFormed = true → encode (.shortCopy lit len off) =
      [BitVec.ofNat 8 ((((off - 1) >>> 8) <<< 5) ||| ((len - 3) <<< 2) ||| lit),
       BitVec.ofNat 8 ((off - 1) &&& 0xFF)]) ∧
    ((Instr.mediumCopy lit len off).wellFormed = true → encode (.mediumCopy lit len off) =
      [BitVec.ofNat 8 (0x80 ||| (len - 4)),
       BitVec.ofNat 8 ((lit <<< 6) ||| ((off - 1) >>> 8)),
       BitVec.ofNat 8 ((off - 1) &&& 0xFF)]) ∧
    ((Instr.longCopy lit len off).wellFormed = true → encode (.longCopy lit len off) =
      [BitVec.ofNat 8 (0xC0 ||| (((off - 1) >>> 16) <<< 4) ||| (((len - 5) >>> 8) <<< 2) ||| lit),
       BitVec.ofNat 8 (((off - 1) >>> 8) &&& 0xFF),
       BitVec.ofNat 8 ((off - 1) &&& 0xFF),
       BitVec.ofNat 8 ((len - 5) &&& 0xFF)]) ∧
    ((Instr.literalRun lit).wellFormed = true → encode (.literalRun lit) =
      [BitVec.ofNat 8 (0xE0 ||| (lit / 4 - 1))]) ∧
    ((Instr.streamEnd lit).wellFormed = true → encode (.streamEnd lit) = [BitVec.ofNat 8 (0xFC ||| lit)])

/-- 30_encoding R108, R110: the control bytes that control byte 0 asks for decode whatever their values, and what
follows them is left. -/
def Obligations.DecodeTotalOnEnoughBytes : Prop :=
  ∀ (b0 : Byte) (bs : List Byte), controlSize (classify b0) ≤ (b0 :: bs).length →
    ∃ i, decode (b0 :: bs) = .ok (i, (b0 :: bs).drop (controlSize (classify b0))) ∧
      (encode i).length = controlSize (classify b0)

/-- Words written out from the formats of 30_encoding R94 to R98 and 10_state R36. -/
def Obligations.SpecWordsDecode : Prop :=
  decode [0x16#8, 0x01#8] = .ok (.shortCopy 2 8 2, []) ∧
  decode [0x80#8, 0x40#8, 0x03#8] = .ok (.mediumCopy 1 4 4, []) ∧
  decode [0xD4#8, 0x11#8, 0x6F#8, 0x27#8] = .ok (.longCopy 0 300 70000, []) ∧
  decode [0xEE#8] = .ok (.literalRun 60, []) ∧
  decode [0xFE#8] = .ok (.streamEnd 2, []) ∧
  decodeCommand 0x00000101#32 = .ok .compress ∧
  decodeCommand 0x00000102#32 = .ok .decompress ∧
  decodeCommand 0x00000003#32 = .error (.unknownCommand 3)

/-! ### The step and the fetch -/

/-- 40_decoder_opcodes R132 and 43_host_commands R233: where the bytes at `ip` are the control bytes of an opcode, a
step of DEC is `exec` of that opcode with the opcode latched; a host write of a command's code to CMD is `exec`
of that command. The model's own: the host's pending moves say who steps (log 9). -/
def Obligations.StepRunsDecodedInstruction : Prop :=
  (∀ (s : State) (i : Instr), s.host = [] → s.busy = true → s.unit = .dec →
    i.isOpcode = true → i.wellFormed = true →
    s.inMem.readBytes s.ip.toNat (encode i).length = encode i →
    s.ip.toNat + (encode i).length ≤ s.n.toNat → s.n.toNat ≤ s.cfg.inSize →
    step s = exec i { s with latch := latchOf s.latch i }) ∧
  (∀ (s : State) (i : Instr) (rest : List HostMove), s.host = .tick :: rest → s.busy = true → s.unit = .dec →
    i.isOpcode = true → i.wellFormed = true →
    s.inMem.readBytes s.ip.toNat (encode i).length = encode i →
    s.ip.toNat + (encode i).length ≤ s.n.toNat → s.n.toNat ≤ s.cfg.inSize →
    step s = exec i { s with host := rest, latch := latchOf s.latch i }) ∧
  (∀ (s : State) (i : Instr) (rest : List HostMove), s.host = .await :: rest → s.busy = true → s.unit = .dec →
    i.isOpcode = true → i.wellFormed = true →
    s.inMem.readBytes s.ip.toNat (encode i).length = encode i →
    s.ip.toNat + (encode i).length ≤ s.n.toNat → s.n.toNat ≤ s.cfg.inSize →
    step s = exec i { s with latch := latchOf s.latch i }) ∧
  (∀ (s : State) (v : Word) (i : Instr) (rest : List HostMove), s.host = .writeReg .cmd v :: rest →
    decodeCommand v = .ok i → step s = exec i { s with host := rest })

/-- 43_host_commands R238, R240 and 70_reset_and_hazards R303, in the model's form of the host (log 9): while a command
runs, a step at a `tick` is the step the engine takes where the host makes no move, with the further moves
pending, and a step at an `await` is that same step with the `await` kept, whether DEC or ENC runs and whatever
the step answers. So what is stated of the engine with no move pending holds of polled runs. -/
def Obligations.PolledStepIsEngineStep : Prop :=
  ∀ (s : State) (rest : List HostMove), s.busy = true →
    (s.host = .tick :: rest → step s = outcomeWithHost rest (step (s.withHost []))) ∧
    (s.host = .await :: rest → step s = outcomeWithHost (.await :: rest) (step (s.withHost [])))

/-- 60_exceptions R254: the three places where DEC raises INPUT_EXHAUSTED. -/
def Obligations.InputExhaustedRaised : Prop :=
  (∀ s : State, s.host = [] → s.busy = true → s.unit = .dec → s.n.toNat ≤ s.ip.toNat →
    ∃ t, step s = .next t ∧ s.EndedByError t 0x031 s.ip s.op) ∧
  (∀ s : State, s.host = [] → s.busy = true → s.unit = .dec → s.ip.toNat < s.n.toNat →
    s.n.toNat ≤ s.cfg.inSize →
    s.n.toNat < s.ip.toNat + controlSize (classify (s.inMem.read s.ip.toNat)) →
    ∃ t, step s = .next t ∧ s.EndedByError t 0x031 s.ip s.op) ∧
  (∀ (s : State) (i : Instr), i.isOpcode = true →
    s.n.toNat < s.ip.toNat + controlBytes i + literalCount i →
    ∃ t, exec i s = .next t ∧ s.EndedByError t 0x031 s.ip s.op)

/-! ### The opcodes -/

/-- 40_decoder_opcodes R136 to R138 with the overlap law R145: a copy opcode whose checks pass copies its literals
from IN, then appends the periodic extension of the last `off` bytes, advances `ip` and `op`, and changes nothing
else. -/
def Obligations.CopyOpcodesComplete : Prop :=
  ∀ (s : State) (i : Instr) (size lit len off : Nat),
    (i = .shortCopy lit len off ∧ size = 2) ∨ (i = .mediumCopy lit len off ∧ size = 3) ∨
      (i = .longCopy lit len off ∧ size = 4) →
    i.wellFormed = true →
    s.ip.toNat + size + lit ≤ s.n.toNat → s.n.toNat ≤ s.cfg.inSize →
    s.op.toNat + lit + len ≤ s.dsize.toNat → s.dsize.toNat ≤ s.cfg.outSize →
    off ≤ s.op.toNat + lit →
    ∃ t, exec i s = .next t ∧
      t = { s with
        ip := s.ip + word (size + lit)
        op := s.op + word (lit + len)
        outMem := t.outMem } ∧
      (∀ k, k < lit →
        t.outMem.read (s.op.toNat + k) = s.inMem.read (s.ip.toNat + size + k)) ∧
      (∀ k, k < len →
        t.outMem.read (s.op.toNat + lit + k) =
          t.outMem.read (s.op.toNat + lit - off + k % off)) ∧
      (∀ a, a < s.op.toNat ∨ s.op.toNat + lit + len ≤ a → t.outMem.read a = s.outMem.read a)

/-- 40_decoder_opcodes R139: a LiteralRun whose checks pass copies its literals from IN and changes nothing else. -/
def Obligations.LiteralRunCompletes : Prop :=
  ∀ (s : State) (lit : Nat), (Instr.literalRun lit).wellFormed = true →
    s.ip.toNat + 1 + lit ≤ s.n.toNat → s.n.toNat ≤ s.cfg.inSize →
    s.op.toNat + lit ≤ s.dsize.toNat → s.dsize.toNat ≤ s.cfg.outSize →
    ∃ t, exec (.literalRun lit) s = .next t ∧
      t = { s with ip := s.ip + word (1 + lit), op := s.op + word lit, outMem := t.outMem } ∧
      (∀ k, k < lit → t.outMem.read (s.op.toNat + k) = s.inMem.read (s.ip.toNat + 1 + k)) ∧
      (∀ a, a < s.op.toNat ∨ s.op.toNat + lit ≤ a → t.outMem.read a = s.outMem.read a)

/-- 40_decoder_opcodes R140, R142: a StreamEnd whose checks pass ends the command: OUT_LEN is the declared size, the
literals follow the bytes of OUT produced before. -/
def Obligations.StreamEndCompletes : Prop :=
  ∀ (s : State) (lit : Nat), (Instr.streamEnd lit).wellFormed = true →
    s.ip.toNat + 1 + lit ≤ s.n.toNat → s.n.toNat ≤ s.cfg.inSize →
    s.op.toNat + lit = s.dsize.toNat → s.dsize.toNat ≤ s.cfg.outSize →
    (s.expectEn = true → s.expect = s.dsize) →
    ∃ t, exec (.streamEnd lit) s = .next t ∧ s.EndedNormally t ∧ t.outLen = s.dsize ∧
      (∀ k, k < lit → t.outMem.read (s.op.toNat + k) = s.inMem.read (s.ip.toNat + 1 + k)) ∧
      (∀ a, a < s.op.toNat → t.outMem.read a = s.outMem.read a)

/-- 60_exceptions R255: BAD_OFFSET when the offset reaches before `OUT[0]`, the opcode's own literals counted. -/
def Obligations.BadOffsetRaised : Prop :=
  ∀ (s : State) (i : Instr), i.isCopy = true →
    s.ip.toNat + controlBytes i + literalCount i ≤ s.n.toNat → s.n.toNat ≤ s.cfg.inSize →
    s.op.toNat + literalCount i ≤ s.dsize.toNat → s.dsize.toNat ≤ s.cfg.outSize →
    s.op.toNat + literalCount i < matchOffset i →
    ∃ t, exec i s = .next t ∧ s.EndedByError t 0x041 s.ip (s.op + word (literalCount i))

/-- 60_exceptions R256: the three places where DEC raises SIZE_MISMATCH. -/
def Obligations.SizeMismatchRaised : Prop :=
  (∀ (s : State) (i : Instr), i.isOpcode = true →
    s.ip.toNat + controlBytes i + literalCount i ≤ s.n.toNat →
    s.dsize.toNat < s.op.toNat + literalCount i →
    ∃ t, exec i s = .next t ∧ s.EndedByError t 0x051 s.ip s.op) ∧
  (∀ (s : State) (i : Instr), i.isCopy = true →
    s.ip.toNat + controlBytes i + literalCount i ≤ s.n.toNat → s.n.toNat ≤ s.cfg.inSize →
    s.op.toNat + literalCount i ≤ s.dsize.toNat → s.dsize.toNat ≤ s.cfg.outSize →
    matchOffset i ≤ s.op.toNat + literalCount i →
    s.dsize.toNat < s.op.toNat + literalCount i + matchLength i →
    ∃ t, exec i s = .next t ∧ s.EndedByError t 0x051 s.ip (s.op + word (literalCount i))) ∧
  (∀ (s : State) (lit : Nat), s.ip.toNat + 1 + lit ≤ s.n.toNat → s.n.toNat ≤ s.cfg.inSize →
    s.op.toNat + lit < s.dsize.toNat → s.dsize.toNat ≤ s.cfg.outSize →
    ∃ t, exec (.streamEnd lit) s = .next t ∧ s.EndedByError t 0x051 s.ip (s.op + word lit))

/-- 60_exceptions R257: EXPECT_MISMATCH, and never with EXPECT_EN = 0. -/
def Obligations.ExpectMismatchRaised : Prop :=
  (∀ (s : State) (lit : Nat), s.ip.toNat + 1 + lit ≤ s.n.toNat → s.n.toNat ≤ s.cfg.inSize →
    s.op.toNat + lit = s.dsize.toNat → s.dsize.toNat ≤ s.cfg.outSize →
    s.expectEn = true → s.expect ≠ s.dsize →
    ∃ t, exec (.streamEnd lit) s = .next t ∧ s.EndedByError t 0x061 s.ip s.dsize) ∧
  (∀ (s t : State) (i : Instr), i.isOpcode = true → s.expectEn = false → s.errInfo ≠ 0x061#32 →
    exec i s = .next t → t.errInfo ≠ 0x061#32)

/-- 40_decoder_opcodes R135: an opcode that completes changes `ip`, `op` and the bytes of OUT it appends, and
StreamEnd in addition OUT_LEN and STATUS; the unit has stopped after StreamEnd, and only then are its working
registers and the bytes of OUT from OUT_LEN up unspecified. -/
def Obligations.OpcodeChangesOnly : Prop :=
  ∀ (s t : State) (i : Instr), i.isOpcode = true → s.status = 1#32 → exec i s = .next t →
    t.status ≠ 6#32 →
    (t.status = 1#32 ∧ t = { s with
        ip := s.ip + word (controlBytes i + literalCount i)
        op := s.op + word (literalCount i + matchLength i)
        outMem := t.outMem } ∧
      ∀ a, a < s.op.toNat ∨ s.op.toNat + literalCount i + matchLength i ≤ a →
        t.outMem.read a = s.outMem.read a) ∨
    ((∃ lit, i = .streamEnd lit) ∧ s.EndedNormally t ∧ t.outLen = s.op + word (literalCount i) ∧
      ∀ a, a < s.op.toNat → t.outMem.read a = s.outMem.read a)

/-! ### The commands -/

/-- 43_host_commands R232, R233 and 40_decoder_opcodes R131: an accepted DECOMPRESS whose header checks pass leaves
DEC running at the first opcode, and changes nothing else. The declared size is big-endian (20_memory R60). -/
def Obligations.DecompressStarts : Prop :=
  ∀ (s : State) (large : Bool) (dsize : Nat), s.busy = false → s.operandsFit = true →
    s.inMem.read 0 = s.cfg.magic0 → s.inMem.read 1 &&& ~~~s.cfg.largeMask = s.cfg.magic1 →
    (large = true ↔ s.inMem.read 1 &&& s.cfg.largeMask ≠ 0#8) →
    (large = false → 5 ≤ s.inLen.toNat ∧ dsize =
      (s.inMem.read 2).toNat * 65536 + (s.inMem.read 3).toNat * 256 + (s.inMem.read 4).toNat) →
    (large = true → 6 ≤ s.inLen.toNat ∧ dsize = (s.inMem.read 2).toNat * 2 ^ 24 +
      (s.inMem.read 3).toNat * 65536 + (s.inMem.read 4).toNat * 256 + (s.inMem.read 5).toNat) →
    dsize ≤ s.outCap.toNat →
    exec .decompress s = .next { s with
      unit := .dec
      status := 1#32
      errInfo := 0#32
      errIp := 0#32
      errOp := 0#32
      outLen := 0#32
      n := s.inLen
      large := large
      hdr := if large then 6#3 else 5#3
      dsize := word dsize
      ip := if large then 6#32 else 5#32
      op := 0#32 }

/-- 60_exceptions R260, R252, R253, R258: the checks of DEC_START in their order, the first that fails reported. -/
def Obligations.DecompressHeaderErrors : Prop :=
  ∀ (s : State) (dsize : Nat), s.busy = false → s.operandsFit = true →
    let recognised := s.inMem.read 0 = s.cfg.magic0 ∧ s.inMem.read 1 &&& ~~~s.cfg.largeMask = s.cfg.magic1
    let large := s.inMem.read 1 &&& s.cfg.largeMask ≠ 0#8
    let hdr := if large then 6 else 5
    (dsize = if large then
        (s.inMem.read 2).toNat * 2 ^ 24 + (s.inMem.read 3).toNat * 65536 + (s.inMem.read 4).toNat * 256 +
          (s.inMem.read 5).toNat
      else (s.inMem.read 2).toNat * 65536 + (s.inMem.read 3).toNat * 256 + (s.inMem.read 4).toNat) →
    (s.inLen.toNat < 2 → ∃ t, exec .decompress s = .next t ∧ s.EndedByError t 0x011 0#32 0#32) ∧
    (2 ≤ s.inLen.toNat → ¬recognised →
      ∃ t, exec .decompress s = .next t ∧ s.EndedByError t 0x021 0#32 0#32) ∧
    (2 ≤ s.inLen.toNat → recognised → s.inLen.toNat < hdr →
      ∃ t, exec .decompress s = .next t ∧ s.EndedByError t 0x011 0#32 0#32) ∧
    (hdr ≤ s.inLen.toNat → recognised → s.outCap.toNat < dsize →
      ∃ t, exec .decompress s = .next t ∧ s.EndedByError t 0x072 0#32 0#32)

/-- 43_host_commands R231, R233 and 42_encoder R192: an accepted COMPRESS whose header fits leaves ENC running at the
first input byte with the header in OUT, and changes nothing else. -/
def Obligations.CompressStarts : Prop :=
  ∀ (s : State) (large : Bool), s.busy = false → s.operandsFit = true →
    (large = true ↔ 2 ^ 24 - 1 < s.inLen.toNat) →
    (if large then 6 else 5) ≤ s.outCap.toNat →
    ∃ t, exec .compress s = .next t ∧
      t = { s with
        unit := .enc
        status := 1#32
        errInfo := 0#32
        errIp := 0#32
        errOp := 0#32
        outLen := 0#32
        n := s.inLen
        large := large
        hdr := if large then 6#3 else 5#3
        op := if large then 6#32 else 5#32
        cur := 0#32
        ls := 0#32
        outMem := t.outMem } ∧
      t.outMem.read 0 = s.cfg.magic0 ∧
      (large = false → t.outMem.read 1 = s.cfg.magic1 ∧
        s.inLen.toNat = (t.outMem.read 2).toNat * 65536 + (t.outMem.read 3).toNat * 256 +
          (t.outMem.read 4).toNat) ∧
      (large = true → t.outMem.read 1 = s.cfg.magic1 ||| s.cfg.largeMask ∧
        s.inLen.toNat = (t.outMem.read 2).toNat * 2 ^ 24 + (t.outMem.read 3).toNat * 65536 +
          (t.outMem.read 4).toNat * 256 + (t.outMem.read 5).toNat) ∧
      (∀ a, (if large then 6 else 5) ≤ a → t.outMem.read a = s.outMem.read a)

/-- 42_encoder R191, R192: a COMPRESS whose header does not fit ends in ResourceError at input position 0. -/
def Obligations.CompressHeaderDoesNotFit : Prop :=
  ∀ s : State, s.busy = false → s.operandsFit = true →
    s.outCap.toNat < (if 2 ^ 24 - 1 < s.inLen.toNat then 6 else 5) →
    ∃ t, exec .compress s = .next t ∧ s.EndedByError t 0x072 0#32 s.outCap

/-- 43_host_commands R234: a write to CMD of another code at any time, and any write while BUSY, has no effect. -/
def Obligations.UnacceptedCommandsHaveNoEffect : Prop :=
  ∀ (s : State) (v : Word) (rest : List HostMove), s.host = .writeReg .cmd v :: rest →
    (v.toNat % 256 ≠ 1 ∧ v.toNat % 256 ≠ 2) ∨ s.busy = true →
    step s = .next { s with host := rest }

/-- 10_state R39, 93_implementation_defined U6: a command with operands beyond the memories is outside the spec, and
the model refuses it (log 11). -/
def Obligations.OperandsBeyondMemoryRefused : Prop :=
  ∀ s : State, s.busy = false → s.cfg.inSize < s.inLen.toNat ∨ s.cfg.outSize < s.outCap.toNat →
    exec .compress s = .refused .operandsBeyondMemory ∧ exec .decompress s = .refused .operandsBeyondMemory

/-! ### The match finder and the encoder -/

/-- 41_match_finder R171 to R174: MF reports the longest candidate, among equal lengths that of the smallest offset,
and none only where there is no candidate. -/
def Obligations.MatchFinderSelectsLongestNearest : Prop :=
  ∀ (m : Memory) (n cur : Nat), cur ≤ n →
    (∀ o len, matchFinder m n cur = some (o, len) ↔
      Candidate m n cur o len ∧
        ∀ o' len', Candidate m n cur o' len' → len' < len ∨ (len' = len ∧ o ≤ o')) ∧
    (matchFinder m n cur = none ↔ ∀ o len, ¬Candidate m n cur o len)

/-- 42_encoder R196, R206: the opcode ENC emits for a match is that of the first class that covers it, with every
operand in that class's range. -/
def Obligations.EmittedOpcodeIsValid : Prop :=
  ∀ (m : Memory) (n cur o len lit : Nat), matchFinder m n cur = some (o, len) → lit ≤ 3 →
    copyInstr lit o len = classOpcode lit o len ∧ (classOpcode lit o len).wellFormed = true ∧ o ≤ cur

/-- 42_encoder R193, R194: where MF finds nothing the byte joins the pending run and nothing is written. -/
def Obligations.EncoderPassesUnmatchedByte : Prop :=
  ∀ s : State, s.host = [] → s.busy = true → s.unit = .enc → s.cur.toNat < s.n.toNat →
    s.n.toNat ≤ s.cfg.inSize → (∀ o len, ¬Candidate s.inMem s.n.toNat s.cur.toNat o len) →
    step s = .next { s with cur := s.cur + 1#32 }

/-- 42_encoder R193, R195: where MF finds a match and its bytes fit, ENC flushes, writes the opcode of the first class
that covers the match with at most 3 pending literals, and moves the cursor past the match. -/
def Obligations.EncoderEmitsMatch : Prop :=
  ∀ (s : State) (o len : Nat), s.Inv → s.host = [] → s.busy = true → s.unit = .enc →
    s.cur.toNat < s.n.toNat → matchFinder s.inMem s.n.toNat s.cur.toNat = some (o, len) →
    let p := s.cur.toNat - s.ls.toNat
    let lit := p % 4
    let op1 := s.op.toNat + flushLength p
    let bytes := encode (classOpcode lit o len)
    op1 + bytes.length + lit ≤ s.outCap.toNat →
    ∃ t, step s = .next t ∧
      t = { s with
        op := word (op1 + bytes.length + lit)
        cur := s.cur + word len
        ls := s.cur + word len
        latch := latchOf s.latch (classOpcode lit o len)
        outMem := t.outMem } ∧
      FlushedAt s t p ∧ t.outMem.readBytes op1 bytes.length = bytes ∧
      (∀ k, k < lit →
        t.outMem.read (op1 + bytes.length + k) = s.inMem.read (s.cur.toNat - lit + k)) ∧
      (∀ a, a < s.op.toNat ∨ op1 + bytes.length + lit ≤ a → t.outMem.read a = s.outMem.read a)

/-- 42_encoder R201, R195: at the end of the input, where the bytes fit, ENC flushes, writes StreamEnd with at most 3
pending literals, and the command ends with the stream's length in OUT_LEN. -/
def Obligations.EncoderEndsStream : Prop :=
  ∀ s : State, s.Inv → s.host = [] → s.busy = true → s.unit = .enc → s.cur = s.n →
    let p := s.cur.toNat - s.ls.toNat
    let lit := p % 4
    let op1 := s.op.toNat + flushLength p
    op1 + 1 + lit ≤ s.outCap.toNat →
    ∃ t, step s = .next t ∧ s.EndedNormally t ∧ t.outLen = word (op1 + 1 + lit) ∧
      FlushedAt s t p ∧ t.outMem.read op1 = BitVec.ofNat 8 (0xFC ||| lit) ∧
      (∀ k, k < lit → t.outMem.read (op1 + 1 + k) = s.inMem.read (s.cur.toNat - lit + k)) ∧
      (∀ a, a < s.op.toNat → t.outMem.read a = s.outMem.read a)

/-- 42_encoder R191, 60_exceptions R258, R259: ENC ends by error exactly where its next bytes do not fit, always with
OUT_CAPACITY at the cursor: an error of ENC is that one; a match whose flush, control bytes and literals reach
past OUT_CAP raises it, and so does the end of the stream. EncoderEmitsMatch and EncoderEndsStream say what
happens where they fit. -/
def Obligations.EncoderFailsOnlyForCapacity : Prop :=
  ∀ s : State, s.Inv → s.host = [] → s.busy = true → s.unit = .enc →
    let p := s.cur.toNat - s.ls.toNat
    let lit := p % 4
    let op1 := s.op.toNat + flushLength p
    (∀ t, step s = .next t → t.err = true → s.EndedByError t 0x072 s.cur s.outCap) ∧
    (∀ o len, s.cur.toNat < s.n.toNat → matchFinder s.inMem s.n.toNat s.cur.toNat = some (o, len) →
      s.outCap.toNat < op1 + (encode (classOpcode lit o len)).length + lit →
      ∃ t, step s = .next t ∧ s.EndedByError t 0x072 s.cur s.outCap) ∧
    (s.cur = s.n → s.outCap.toNat < op1 + 1 + lit →
      ∃ t, step s = .next t ∧ s.EndedByError t 0x072 s.cur s.outCap)

/-- 42_encoder R203: a COMPRESS that ends normally keeps the bound, an input in which MF never finds a match has the
exact length, and with the capacity of the bound COMPRESS ends normally. -/
def Obligations.CompressOutputSize : Prop :=
  ∀ s : State, s.Inv → s.host = [] → s.busy = false → s.operandsFit = true →
    let n := s.inLen.toNat
    let hdr := if 2 ^ 24 - 1 < n then 6 else 5
    (∀ (s1 t : State) (k : Nat), exec .compress s = .next s1 → Host.Core.run core k s1 = .next t →
      t.status = 2#32 →
      t.outLen.toNat ≤ hdr + n + n / 112 + 2 ∧
      ((∀ cur, cur < n → matchFinder s.inMem n cur = none) →
        t.outLen.toNat = hdr + n + (n - n % 4 + 111) / 112 + 1)) ∧
    (6 + n + n / 112 + 2 ≤ s.outCap.toNat →
      ∃ (s1 t : State) (k : Nat), exec .compress s = .next s1 ∧ k ≤ n + 1 ∧
        Host.Core.run core k s1 = .next t ∧ t.status = 2#32)

/-- 42_encoder R207: DECOMPRESS of what a COMPRESS wrote gives the input back. -/
def Obligations.CompressThenDecompressRoundTrip : Prop :=
  ∀ (s s1 t d : State) (k : Nat), s.Inv → s.host = [] → s.busy = false → s.operandsFit = true →
    exec .compress s = .next s1 → Host.Core.run core k s1 = .next t → t.status = 2#32 →
    d.cfg.magic0 = s.cfg.magic0 → d.cfg.magic1 = s.cfg.magic1 → d.cfg.largeMask = s.cfg.largeMask →
    d.host = [] → d.busy = false → d.operandsFit = true → d.inLen = t.outLen →
    (∀ a, a < t.outLen.toNat → d.inMem.read a = t.outMem.read a) →
    s.inLen.toNat ≤ d.outCap.toNat → (d.expectEn = true → d.expect = s.inLen) →
    ∃ (d1 e : State) (j : Nat), exec .decompress d = .next d1 ∧ Host.Core.run core j d1 = .next e ∧
      e.status = 2#32 ∧ e.outLen = s.inLen ∧
      ∀ a, a < s.inLen.toNat → e.outMem.read a = s.inMem.read a

/-! ### Whole runs -/

/-- 70_reset_and_hazards R303: a running command ends within the number of steps its input allows. -/
def Obligations.RunningCommandEnds : Prop :=
  (∀ s : State, s.Inv → s.host = [] → s.busy = true → s.unit = .dec →
    ∃ (k : Nat) (t : State), k ≤ s.n.toNat - s.ip.toNat + 1 ∧ Host.Core.run core k s = .next t ∧
      t.busy = false) ∧
  (∀ s : State, s.Inv → s.host = [] → s.busy = true → s.unit = .enc →
    ∃ (k : Nat) (t : State), k ≤ s.n.toNat - s.cur.toNat + 1 ∧ Host.Core.run core k s = .next t ∧
      t.busy = false)

/-- 40_decoder_opcodes R147: the outcome of DECOMPRESS depends on the first IN_LEN bytes of IN, IN_LEN, OUT_CAP,
EXPECT, EXPECT_EN and the magic, and on nothing else. -/
def Obligations.DecompressDependsOnlyOnOperands : Prop :=
  ∀ (s s' s1 t : State) (k : Nat), s.host = [] → s'.host = [] → s.busy = false → s'.busy = false →
    s.operandsFit = true → s'.operandsFit = true →
    s'.cfg.magic0 = s.cfg.magic0 → s'.cfg.magic1 = s.cfg.magic1 → s'.cfg.largeMask = s.cfg.largeMask →
    s'.inLen = s.inLen → s'.outCap = s.outCap → s'.expect = s.expect → s'.expectEn = s.expectEn →
    (∀ a, a < s.inLen.toNat → s'.inMem.read a = s.inMem.read a) →
    exec .decompress s = .next s1 → Host.Core.run core k s1 = .next t → t.busy = false →
    ∃ s1' t', exec .decompress s' = .next s1' ∧ Host.Core.run core k s1' = .next t' ∧
      t'.status = t.status ∧ t'.errInfo = t.errInfo ∧ t'.errIp = t.errIp ∧ t'.errOp = t.errOp ∧
      t'.outLen = t.outLen ∧ ∀ a, a < t.outLen.toNat → t'.outMem.read a = t.outMem.read a

/-- 42_encoder R204: the outcome of COMPRESS depends on the first IN_LEN bytes of IN, IN_LEN, OUT_CAP and the magic,
and on nothing else. -/
def Obligations.CompressDependsOnlyOnOperands : Prop :=
  ∀ (s s' s1 t : State) (k : Nat), s.host = [] → s'.host = [] → s.busy = false → s'.busy = false →
    s.operandsFit = true → s'.operandsFit = true →
    s'.cfg.magic0 = s.cfg.magic0 → s'.cfg.magic1 = s.cfg.magic1 → s'.cfg.largeMask = s.cfg.largeMask →
    s'.inLen = s.inLen → s'.outCap = s.outCap →
    (∀ a, a < s.inLen.toNat → s'.inMem.read a = s.inMem.read a) →
    exec .compress s = .next s1 → Host.Core.run core k s1 = .next t → t.busy = false →
    ∃ s1' t', exec .compress s' = .next s1' ∧ Host.Core.run core k s1' = .next t' ∧
      t'.status = t.status ∧ t'.errInfo = t.errInfo ∧ t'.errIp = t.errIp ∧ t'.errOp = t.errOp ∧
      t'.outLen = t.outLen ∧ ∀ a, a < t.outLen.toNat → t'.outMem.read a = t.outMem.read a

/-! ### Reset and the host -/

/-- 10_state R47: the values the spec gives for reset; IN and OUT unspecified. -/
def Obligations.ResetValues : Prop :=
  State.reset.status = 0#32 ∧ State.reset.errInfo = 0#32 ∧ State.reset.errIp = 0#32 ∧
  State.reset.errOp = 0#32 ∧ State.reset.outLen = 0#32 ∧ State.reset.inLen = 0#32 ∧
  State.reset.outCap = 0#32 ∧ State.reset.expect = 0#32 ∧ State.reset.ctrl = 0#32 ∧
  (∀ a, State.reset.inMem.read a = Config.freeBits 8 0 a) ∧
  (∀ a, State.reset.outMem.read a = Config.freeBits 8 1 a)

/-- 70_reset_and_hazards R290 to R292: the reset event, at any time, clears the host registers and leaves every byte of
both memories unspecified. -/
def Obligations.ResetEventClears : Prop :=
  ∀ (s : State) (rest : List HostMove), s.host = .reset :: rest →
    ∃ t, step s = .next t ∧ t.status = 0#32 ∧ t.errInfo = 0#32 ∧ t.errIp = 0#32 ∧ t.errOp = 0#32 ∧
      t.outLen = 0#32 ∧ t.inLen = 0#32 ∧ t.outCap = 0#32 ∧ t.expect = 0#32 ∧ t.ctrl = 0#32 ∧
      t.cfg = s.cfg ∧ t.host = rest ∧
      (∀ a, t.inMem.read a = Config.freeBits 8 s.freeTag a) ∧
      (∀ a, t.outMem.read a = Config.freeBits 8 (s.freeTag + 1) a)

/-- 70_reset_and_hazards R293: while idle the engine does nothing, whatever the host waits for. -/
def Obligations.IdleStaysIdle : Prop :=
  ∀ s : State, s.busy = false →
    (s.host = [] → step s = .next s) ∧
    (∀ rest, s.host = .tick :: rest → step s = .next { s with host := rest }) ∧
    (∀ rest, s.host = .await :: rest → step s = .next { s with host := rest })

/-- 10_state R35, R36, R42: host reads and writes of the registers while idle. -/
def Obligations.IdleRegisterAccess : Prop :=
  ∀ (s : State) (v : Word) (rest : List HostMove), s.busy = false →
    (s.host = .writeReg .inLen v :: rest → step s = .next { s with host := rest, inLen := v }) ∧
    (s.host = .writeReg .outCap v :: rest → step s = .next { s with host := rest, outCap := v }) ∧
    (s.host = .writeReg .expect v :: rest → step s = .next { s with host := rest, expect := v }) ∧
    (s.host = .writeReg .ctrl v :: rest →
      step s = .next { s with host := rest, ctrl := if v.getLsbD 0 then 1#32 else 0#32 }) ∧
    (∀ r, r = .status ∨ r = .errInfo ∨ r = .outLen ∨ r = .errIp ∨ r = .errOp →
      s.host = .writeReg r v :: rest → step s = .next { s with host := rest }) ∧
    (s.host = .readReg .cmd :: rest → step s = .next { s with host := rest, readData := 0#32 }) ∧
    (s.host = .readReg .status :: rest → step s = .next { s with host := rest, readData := s.status }) ∧
    (s.host = .readReg .errInfo :: rest → step s = .next { s with host := rest, readData := s.errInfo }) ∧
    (s.host = .readReg .inLen :: rest → step s = .next { s with host := rest, readData := s.inLen }) ∧
    (s.host = .readReg .outCap :: rest → step s = .next { s with host := rest, readData := s.outCap }) ∧
    (s.host = .readReg .outLen :: rest → step s = .next { s with host := rest, readData := s.outLen }) ∧
    (s.host = .readReg .expect :: rest → step s = .next { s with host := rest, readData := s.expect }) ∧
    (s.host = .readReg .ctrl :: rest → step s = .next { s with host := rest, readData := s.ctrl }) ∧
    (s.host = .readReg .errIp :: rest → step s = .next { s with host := rest, readData := s.errIp }) ∧
    (s.host = .readReg .errOp :: rest → step s = .next { s with host := rest, readData := s.errOp })

/-- 43_host_commands R235, R239 and 93_implementation_defined U5: while BUSY register writes are ignored, STATUS reads
(1, 0, 0), the result registers read 0, no read changes anything but `readData` and the free-value counter, and
an access to IN or OUT is refused (log 10). A read of IN_LEN, OUT_CAP, EXPECT or CTRL returns a free value
(log 13), for CTRL in bit 0 alone (10_state R42). -/
def Obligations.BusyHostAccess : Prop :=
  ∀ (s : State) (rest : List HostMove), s.status = 1#32 →
    (∀ r v, s.host = .writeReg r v :: rest → step s = .next { s with host := rest }) ∧
    (s.host = .readReg .status :: rest → ∃ t, step s = .next t ∧
      t = { s with host := rest, readData := 1#32, freeTag := t.freeTag }) ∧
    (∀ r, r = .cmd ∨ r = .errInfo ∨ r = .outLen ∨ r = .errIp ∨ r = .errOp → s.host = .readReg r :: rest →
      ∃ t, step s = .next t ∧ t = { s with host := rest, readData := 0#32, freeTag := t.freeTag }) ∧
    (∀ r, r = .inLen ∨ r = .outCap ∨ r = .expect ∨ r = .ctrl → s.host = .readReg r :: rest →
      ∃ t, step s = .next t ∧ t = { s with host := rest, readData := t.readData, freeTag := t.freeTag } ∧
        (r = .ctrl → t.readData = 0#32 ∨ t.readData = 1#32)) ∧
    (∀ a b, s.host = .writeIn a b :: rest → step s = .refused .hostMemoryAccessWhileBusy) ∧
    (∀ a, s.host = .readOut a :: rest → step s = .refused .hostMemoryAccessWhileBusy)

/-- 10_state R43, R44 and 20_memory R65, R67: the host writes IN and reads OUT while idle, one byte, which touches
nothing else; an address the memory does not have stops the model (log 12). -/
def Obligations.IdleMemoryAccess : Prop :=
  ∀ (s : State) (a : Nat) (b : Byte) (rest : List HostMove), s.busy = false →
    (s.host = .writeIn a b :: rest → a < s.cfg.inSize →
      ∃ t, step s = .next t ∧ t = { s with host := rest, inMem := t.inMem } ∧ t.inMem.read a = b ∧
        ∀ x, x ≠ a → t.inMem.read x = s.inMem.read x) ∧
    (s.host = .readOut a :: rest → a < s.cfg.outSize →
      step s = .next { s with host := rest, readData := (s.outMem.read a).setWidth 32 }) ∧
    (s.host = .writeIn a b :: rest → s.cfg.inSize ≤ a → step s = .fault .inAddressAbsent) ∧
    (s.host = .readOut a :: rest → s.cfg.outSize ≤ a → step s = .fault .outAddressAbsent)

/-- 60_exceptions R266, 70_reset_and_hazards R301: the result of a command, error or not, stays until the next
accepted command or reset. -/
def Obligations.ResultStaysUntilNextCommand : Prop :=
  ∀ (s t : State) (m : HostMove) (rest : List HostMove), s.busy = false → s.host = m :: rest →
    m ≠ .reset → (∀ v, m = .writeReg .cmd v → v.toNat % 256 ≠ 1 ∧ v.toNat % 256 ≠ 2) →
    step s = .next t →
    t.status = s.status ∧ t.errInfo = s.errInfo ∧ t.errIp = s.errIp ∧ t.errOp = s.errOp ∧
      t.outLen = s.outLen ∧ t.outMem = s.outMem

/-- 43_host_commands R237, 60_exceptions R264, in the model's form (log 6): when a command has ended, the bytes of OUT at
and above OUT_LEN, which is 0 after an error, are free values, whether the engine's step or the command's start
ended it. -/
def Obligations.OutputBeyondResultIsFree : Prop :=
  (∀ s t : State, s.Inv → s.host = [] → s.busy = true → step s = .next t → t.busy = false →
    ∀ a, t.outLen.toNat ≤ a → t.outMem.read a = Config.freeBits 8 s.freeTag a) ∧
  (∀ (s t : State) (i : Instr), s.busy = false → i.isOpcode = false → exec i s = .next t →
    t.busy = false → t.outLen = 0#32 ∧ ∀ a, t.outMem.read a = Config.freeBits 8 s.freeTag a)

/-! ### Invariants -/

/-- The invariant holds at reset. -/
def Obligations.InvariantAtReset : Prop := State.reset.Inv

/-- Every step keeps the invariant: the memories in canonical form, the registers in the legal combinations
(10_state R37, R38, R42), the pointers in order (40_decoder_opcodes R147, 10_state R24, R27). -/
def Obligations.StepKeepsInvariant : Prop :=
  ∀ s t : State, s.Inv → step s = .next t → t.Inv

/-- In a state that meets the invariant the engine always has a step: a running command never stops the model
(60_exceptions R259, log 12). -/
def Obligations.EngineNeverStops : Prop :=
  ∀ s : State, s.Inv → s.host = [] → ∃ t, step s = .next t

/-- 10_state R43, R35, R21: a step of the engine never changes IN, the RW registers or the parameters. -/
def Obligations.EngineReadsInOnly : Prop :=
  ∀ s t : State, s.host = [] → step s = .next t →
    t.inMem = s.inMem ∧ t.inLen = s.inLen ∧ t.outCap = s.outCap ∧ t.expect = s.expect ∧ t.ctrl = s.ctrl ∧
      t.cfg = s.cfg ∧ t.host = [] ∧ t.readData = s.readData

/-- 10_state R44: output is append-only: while the command runs, the bytes below `op` stay and the bytes from the new
`op` up are untouched. -/
def Obligations.OutputIsAppendOnly : Prop :=
  ∀ s t : State, s.Inv → s.host = [] → s.busy = true → step s = .next t → t.busy = true →
    s.op.toNat ≤ t.op.toNat ∧
      ∀ a, a < s.op.toNat ∨ t.op.toNat ≤ a → t.outMem.read a = s.outMem.read a

/-- 10_state R21: no step changes a parameter. -/
def Obligations.ParametersNeverChange : Prop :=
  ∀ s t : State, step s = .next t → t.cfg = s.cfg
end

