-- ==== Sys2Proof/Laws/Memory.lean ====
section
/-! SUPPORT. The laws of the memories: read after write, bytes made unspecified, and the canonical form. -/

namespace Sys2Proof.Machine

/-! ### Lists of cells and tags -/

theorem lookupCell_insertCell (cs : List Host.Cell) (a x : Nat) (b : Byte) :
    lookupCell (insertCell cs a b) x = if a = x then some b else lookupCell cs x := by
  induction cs with
  | nil => simp [insertCell, lookupCell]
  | cons c cs ih =>
    unfold insertCell
    split
    · simp [lookupCell]
    · split
      · rename_i h; subst h
        simp only [lookupCell]; split <;> rfl
      · rename_i h1 h2
        simp only [lookupCell, ih]
        split
        · rename_i h; subst h; rw [if_neg (Ne.symm h2)]
        · rfl

theorem lookupCell_filter_lt (cs : List Host.Cell) (k x : Nat) :
    lookupCell (cs.filter (fun c => decide (c.1 < k))) x = if x < k then lookupCell cs x else none := by
  induction cs with
  | nil => simp [lookupCell]
  | cons c cs ih =>
    by_cases hc : c.1 < k <;> by_cases hx : c.1 = x <;> by_cases hk : x < k <;>
      simp_all [lookupCell]

theorem tagAt_dropWhile (es : List (Nat × Nat)) (k x : Nat) (h : x < k) :
    tagAt (es.dropWhile (fun e => decide (k ≤ e.1))) x = tagAt es x := by
  induction es with
  | nil => rfl
  | cons e es ih =>
    by_cases he : k ≤ e.1
    · rw [List.dropWhile_cons_of_pos (by simpa using he), ih, tagAt, if_neg (by omega)]
    · rw [List.dropWhile_cons_of_neg (by simpa using he)]

theorem mem_insertCell (cs : List Host.Cell) (a : Nat) (b : Byte) (c : Host.Cell)
    (h : c ∈ insertCell cs a b) : c = (a, b) ∨ c ∈ cs := by
  induction cs with
  | nil => simpa [insertCell] using h
  | cons d cs ih =>
    unfold insertCell at h
    split at h
    · simpa using h
    · split at h
      · simp only [List.mem_cons] at h ⊢; tauto
      · simp only [List.mem_cons] at h ⊢; tauto

theorem insertCell_pairwise (cs : List Host.Cell) (a : Nat) (b : Byte)
    (h : cs.Pairwise (fun c d => c.1 < d.1)) :
    (insertCell cs a b).Pairwise (fun c d => c.1 < d.1) := by
  induction cs with
  | nil => simp [insertCell]
  | cons c cs ih =>
    rw [List.pairwise_cons] at h
    unfold insertCell
    split
    · rename_i hlt
      refine List.pairwise_cons.2 ⟨fun d hd => ?_, List.pairwise_cons.2 h⟩
      rcases List.mem_cons.1 hd with rfl | hd
      · exact hlt
      · exact hlt.trans (h.1 d hd)
    · split
      · rename_i heq
        exact List.pairwise_cons.2 ⟨fun d hd => by simpa [← heq] using h.1 d hd, h.2⟩
      · refine List.pairwise_cons.2 ⟨fun d hd => ?_, ih h.2⟩
        rcases mem_insertCell cs a b d hd with rfl | hd
        · simp only; omega
        · exact h.1 d hd

/-! ### Reading -/

@[simp] theorem Memory.read_write (m : Memory) (a x : Nat) (b : Byte) :
    (m.write a b).read x = if a = x then b else m.read x := by
  simp only [Memory.read, Memory.write, lookupCell_insertCell]
  by_cases h : a = x <;> simp [h]

theorem Memory.read_write_self (m : Memory) (a : Nat) (b : Byte) : (m.write a b).read a = b := by simp

theorem Memory.read_write_ne (m : Memory) (a x : Nat) (b : Byte) (h : a ≠ x) :
    (m.write a b).read x = m.read x := by simp [h]

@[simp] theorem Memory.read_forgetFrom (m : Memory) (k t x : Nat) :
    (m.forgetFrom k t).read x = if x < k then m.read x else Config.freeBits 8 t x := by
  simp only [Memory.read, Memory.forgetFrom, lookupCell_filter_lt, tagAt]
  by_cases h : x < k
  · simp [h, tagAt_dropWhile _ _ _ h, Nat.not_le.2 h]
  · simp [h, Nat.not_lt.1 h]

@[simp] theorem Memory.read_unspecified (t x : Nat) :
    (Memory.unspecified t).read x = Config.freeBits 8 t x := by
  simp [Memory.read, Memory.unspecified, lookupCell, tagAt]

@[simp] theorem Memory.length_readBytes (m : Memory) (a k : Nat) : (m.readBytes a k).length = k := by
  induction k generalizing a with
  | zero => rfl
  | succ k ih => simp [Memory.readBytes, ih]

theorem Memory.getElem_readBytes (m : Memory) (a k j : Nat) (h : j < (m.readBytes a k).length) :
    (m.readBytes a k)[j] = m.read (a + j) := by
  induction k generalizing a j with
  | zero => simp [Memory.readBytes] at h
  | succ k ih =>
    cases j with
    | zero => rfl
    | succ j =>
      simp only [Memory.readBytes, List.getElem_cons_succ]
      rw [ih]; congr 1; omega

theorem Memory.readBytes_congr (m m' : Memory) (a k : Nat)
    (h : ∀ x, a ≤ x → x < a + k → m.read x = m'.read x) : m.readBytes a k = m'.readBytes a k := by
  induction k generalizing a with
  | zero => rfl
  | succ k ih =>
    simp only [Memory.readBytes]
    rw [h a (by omega) (by omega), ih (a + 1) (fun x h1 h2 => h x (by omega) (by omega))]

theorem Memory.readBytes_add (m : Memory) (a j k : Nat) :
    m.readBytes a (j + k) = m.readBytes a j ++ m.readBytes (a + j) k := by
  induction j generalizing a with
  | zero => simp [Memory.readBytes]
  | succ j ih =>
    rw [Nat.succ_add_eq_add_succ, Nat.add_succ, Memory.readBytes, Memory.readBytes, ih]
    simp [Nat.add_assoc, Nat.add_comm 1 j]

/-- Reading a memory after a sequence of bytes was written. -/
theorem Memory.read_writeBytes (m : Memory) (a : Nat) (bs : List Byte) (x : Nat) :
    (m.writeBytes a bs).read x =
      if h : a ≤ x ∧ x < a + bs.length then bs[x - a] else m.read x := by
  induction bs generalizing a with
  | nil => simp [Memory.writeBytes]
  | cons b bs ih =>
    rw [Memory.writeBytes, Memory.read_write, ih]
    by_cases hax : a = x
    · subst hax; simp
    · rw [if_neg hax]
      by_cases hx : a + 1 ≤ x ∧ x < a + 1 + bs.length
      · rw [dif_pos hx, dif_pos ⟨by omega, by simp only [List.length_cons]; omega⟩]
        have : x - a = (x - (a + 1)) + 1 := by omega
        simp [this]
      · rw [dif_neg hx, dif_neg (by simp only [List.length_cons]; omega)]

/-- What was written is read back. -/
theorem Memory.readBytes_writeBytes (m : Memory) (a : Nat) (bs : List Byte) :
    (m.writeBytes a bs).readBytes a bs.length = bs := by
  apply List.ext_getElem (by simp)
  intro j h1 h2
  rw [Memory.getElem_readBytes, Memory.read_writeBytes, dif_pos ⟨by omega, by omega⟩]
  simp

/-! ### The canonical form, the addresses and the tags -/

theorem Memory.write_wf (m : Memory) (a : Nat) (b : Byte) (h : m.wf) : (m.write a b).wf :=
  ⟨insertCell_pairwise _ _ _ h.1, h.2⟩

theorem Memory.forgetFrom_wf (m : Memory) (k t : Nat) (h : m.wf) : (m.forgetFrom k t).wf := by
  refine ⟨h.1.filter _, List.pairwise_cons.2 ⟨fun e he => ?_, h.2.sublist (List.dropWhile_sublist _)⟩⟩
  have hp := h.2
  generalize m.tags = es at he hp
  induction es with
  | nil => simp at he
  | cons d es ih =>
    by_cases hd : k ≤ d.1
    · rw [List.dropWhile_cons_of_pos (by simpa using hd)] at he
      exact ih he (List.pairwise_cons.1 hp).2
    · rw [List.dropWhile_cons_of_neg (by simpa using hd)] at he
      rcases List.mem_cons.1 he with rfl | he
      · simp only; omega
      · have := (List.pairwise_cons.1 hp).1 e he
        simp only; omega

theorem Memory.writeBytes_wf (m : Memory) (a : Nat) (bs : List Byte) (h : m.wf) :
    (m.writeBytes a bs).wf := by
  induction bs generalizing a with
  | nil => exact h
  | cons b bs ih => exact Memory.write_wf _ _ _ (ih (a + 1))

theorem Memory.unspecified_wf (t : Nat) : (Memory.unspecified t).wf := by
  simp [Memory.wf, Memory.unspecified]

theorem Memory.write_within (m : Memory) (size a : Nat) (b : Byte) (h : m.within size)
    (ha : a < size) : (m.write a b).within size := by
  intro c hc
  rcases mem_insertCell _ _ _ _ hc with rfl | hc
  · exact ha
  · exact h c hc

theorem Memory.forgetFrom_within (m : Memory) (size k t : Nat) (h : m.within size) :
    (m.forgetFrom k t).within size := fun c hc => h c (List.mem_filter.1 hc).1

theorem Memory.write_tagsBelow (m : Memory) (t a : Nat) (b : Byte) (h : m.tagsBelow t) :
    (m.write a b).tagsBelow t := h

theorem Memory.forgetFrom_tagsBelow (m : Memory) (t t' k u : Nat) (h : m.tagsBelow t) (hu : u < t')
    (ht : t ≤ t') : (m.forgetFrom k u).tagsBelow t' := by
  intro e he
  rcases List.mem_cons.1 he with rfl | he
  · exact hu
  · exact (h e ((List.dropWhile_sublist _).subset he)).trans_le ht

theorem Memory.tagsBelow_mono (m : Memory) (t t' : Nat) (h : m.tagsBelow t) (ht : t ≤ t') :
    m.tagsBelow t' := fun e he => (h e he).trans_le ht

end Sys2Proof.Machine
end

