-- ==== Sys2Proof/Laws/State.lean ====
section
/-! SUPPORT. One lemma per field of State per shared update, so that no later proof unfolds a record update. -/

namespace Sys2Proof.Machine

/-- The unspecified opcode latch under a tag, as `State.workUnspecified` writes it. -/
def freeLatch (t : Nat) : Latch := (State.reset.workUnspecified t).latch

/-! ### outPush -/

section
variable (v : Byte) (s : State)

@[simp] theorem State.outPush_cfg : (s.outPush v).cfg = s.cfg := rfl
@[simp] theorem State.outPush_ip : (s.outPush v).ip = s.ip := rfl
@[simp] theorem State.outPush_op : (s.outPush v).op = s.op + 1#32 := rfl
@[simp] theorem State.outPush_dsize : (s.outPush v).dsize = s.dsize := rfl
@[simp] theorem State.outPush_n : (s.outPush v).n = s.n := rfl
@[simp] theorem State.outPush_cur : (s.outPush v).cur = s.cur := rfl
@[simp] theorem State.outPush_ls : (s.outPush v).ls = s.ls := rfl
@[simp] theorem State.outPush_large : (s.outPush v).large = s.large := rfl
@[simp] theorem State.outPush_hdr : (s.outPush v).hdr = s.hdr := rfl
@[simp] theorem State.outPush_latch : (s.outPush v).latch = s.latch := rfl
@[simp] theorem State.outPush_unit : (s.outPush v).unit = s.unit := rfl
@[simp] theorem State.outPush_status : (s.outPush v).status = s.status := rfl
@[simp] theorem State.outPush_errInfo : (s.outPush v).errInfo = s.errInfo := rfl
@[simp] theorem State.outPush_inLen : (s.outPush v).inLen = s.inLen := rfl
@[simp] theorem State.outPush_outCap : (s.outPush v).outCap = s.outCap := rfl
@[simp] theorem State.outPush_outLen : (s.outPush v).outLen = s.outLen := rfl
@[simp] theorem State.outPush_expect : (s.outPush v).expect = s.expect := rfl
@[simp] theorem State.outPush_ctrl : (s.outPush v).ctrl = s.ctrl := rfl
@[simp] theorem State.outPush_errIp : (s.outPush v).errIp = s.errIp := rfl
@[simp] theorem State.outPush_errOp : (s.outPush v).errOp = s.errOp := rfl
@[simp] theorem State.outPush_inMem : (s.outPush v).inMem = s.inMem := rfl
@[simp] theorem State.outPush_outMem : (s.outPush v).outMem = s.outMem.write s.op.toNat v := rfl
@[simp] theorem State.outPush_host : (s.outPush v).host = s.host := rfl
@[simp] theorem State.outPush_readData : (s.outPush v).readData = s.readData := rfl
@[simp] theorem State.outPush_freeTag : (s.outPush v).freeTag = s.freeTag := rfl

end

/-! ### workUnspecified -/

section
variable (t : Nat) (s : State)

@[simp] theorem State.workUnspecified_cfg : (s.workUnspecified t).cfg = s.cfg := rfl
@[simp] theorem State.workUnspecified_ip : (s.workUnspecified t).ip = Config.freeBits 32 t 0 := rfl
@[simp] theorem State.workUnspecified_op : (s.workUnspecified t).op = Config.freeBits 32 t 1 := rfl
@[simp] theorem State.workUnspecified_dsize : (s.workUnspecified t).dsize = Config.freeBits 32 t 2 := rfl
@[simp] theorem State.workUnspecified_n : (s.workUnspecified t).n = Config.freeBits 32 t 3 := rfl
@[simp] theorem State.workUnspecified_cur : (s.workUnspecified t).cur = Config.freeBits 32 t 4 := rfl
@[simp] theorem State.workUnspecified_ls : (s.workUnspecified t).ls = Config.freeBits 32 t 5 := rfl
@[simp] theorem State.workUnspecified_large : (s.workUnspecified t).large = (Config.freeBits 1 t 6).getLsbD 0 := rfl
@[simp] theorem State.workUnspecified_hdr : (s.workUnspecified t).hdr = Config.freeBits 3 t 7 := rfl
@[simp] theorem State.workUnspecified_latch : (s.workUnspecified t).latch = freeLatch t := rfl
@[simp] theorem State.workUnspecified_unit : (s.workUnspecified t).unit = s.unit := rfl
@[simp] theorem State.workUnspecified_status : (s.workUnspecified t).status = s.status := rfl
@[simp] theorem State.workUnspecified_errInfo : (s.workUnspecified t).errInfo = s.errInfo := rfl
@[simp] theorem State.workUnspecified_inLen : (s.workUnspecified t).inLen = s.inLen := rfl
@[simp] theorem State.workUnspecified_outCap : (s.workUnspecified t).outCap = s.outCap := rfl
@[simp] theorem State.workUnspecified_outLen : (s.workUnspecified t).outLen = s.outLen := rfl
@[simp] theorem State.workUnspecified_expect : (s.workUnspecified t).expect = s.expect := rfl
@[simp] theorem State.workUnspecified_ctrl : (s.workUnspecified t).ctrl = s.ctrl := rfl
@[simp] theorem State.workUnspecified_errIp : (s.workUnspecified t).errIp = s.errIp := rfl
@[simp] theorem State.workUnspecified_errOp : (s.workUnspecified t).errOp = s.errOp := rfl
@[simp] theorem State.workUnspecified_inMem : (s.workUnspecified t).inMem = s.inMem := rfl
@[simp] theorem State.workUnspecified_outMem : (s.workUnspecified t).outMem = s.outMem := rfl
@[simp] theorem State.workUnspecified_host : (s.workUnspecified t).host = s.host := rfl
@[simp] theorem State.workUnspecified_readData : (s.workUnspecified t).readData = s.readData := rfl
@[simp] theorem State.workUnspecified_freeTag : (s.workUnspecified t).freeTag = s.freeTag := rfl

end

/-! ### raise -/

section
variable (c : Cause) (ip op : Word) (s : State)

@[simp] theorem State.raise_cfg : (s.raise c ip op).cfg = s.cfg := rfl
@[simp] theorem State.raise_ip : (s.raise c ip op).ip = Config.freeBits 32 (s.freeTag + 1) 0 := rfl
@[simp] theorem State.raise_op : (s.raise c ip op).op = Config.freeBits 32 (s.freeTag + 1) 1 := rfl
@[simp] theorem State.raise_dsize : (s.raise c ip op).dsize = Config.freeBits 32 (s.freeTag + 1) 2 := rfl
@[simp] theorem State.raise_n : (s.raise c ip op).n = Config.freeBits 32 (s.freeTag + 1) 3 := rfl
@[simp] theorem State.raise_cur : (s.raise c ip op).cur = Config.freeBits 32 (s.freeTag + 1) 4 := rfl
@[simp] theorem State.raise_ls : (s.raise c ip op).ls = Config.freeBits 32 (s.freeTag + 1) 5 := rfl
@[simp] theorem State.raise_large : (s.raise c ip op).large = (Config.freeBits 1 (s.freeTag + 1) 6).getLsbD 0 := rfl
@[simp] theorem State.raise_hdr : (s.raise c ip op).hdr = Config.freeBits 3 (s.freeTag + 1) 7 := rfl
@[simp] theorem State.raise_latch : (s.raise c ip op).latch = freeLatch (s.freeTag + 1) := rfl
@[simp] theorem State.raise_unit : (s.raise c ip op).unit = s.unit := rfl
@[simp] theorem State.raise_status : (s.raise c ip op).status = 6#32 := rfl
@[simp] theorem State.raise_errInfo : (s.raise c ip op).errInfo = errInfoWord c := rfl
@[simp] theorem State.raise_inLen : (s.raise c ip op).inLen = s.inLen := rfl
@[simp] theorem State.raise_outCap : (s.raise c ip op).outCap = s.outCap := rfl
@[simp] theorem State.raise_outLen : (s.raise c ip op).outLen = 0#32 := rfl
@[simp] theorem State.raise_expect : (s.raise c ip op).expect = s.expect := rfl
@[simp] theorem State.raise_ctrl : (s.raise c ip op).ctrl = s.ctrl := rfl
@[simp] theorem State.raise_errIp : (s.raise c ip op).errIp = ip := rfl
@[simp] theorem State.raise_errOp : (s.raise c ip op).errOp = op := rfl
@[simp] theorem State.raise_inMem : (s.raise c ip op).inMem = s.inMem := rfl
@[simp] theorem State.raise_outMem : (s.raise c ip op).outMem = s.outMem.forgetFrom 0 s.freeTag := rfl
@[simp] theorem State.raise_host : (s.raise c ip op).host = s.host := rfl
@[simp] theorem State.raise_readData : (s.raise c ip op).readData = s.readData := rfl
@[simp] theorem State.raise_freeTag : (s.raise c ip op).freeTag = s.freeTag + 2 := rfl

end

/-! ### halt -/

section
variable (s : State)

@[simp] theorem State.halt_cfg : s.halt.cfg = s.cfg := rfl
@[simp] theorem State.halt_ip : s.halt.ip = Config.freeBits 32 (s.freeTag + 1) 0 := rfl
@[simp] theorem State.halt_op : s.halt.op = Config.freeBits 32 (s.freeTag + 1) 1 := rfl
@[simp] theorem State.halt_dsize : s.halt.dsize = Config.freeBits 32 (s.freeTag + 1) 2 := rfl
@[simp] theorem State.halt_n : s.halt.n = Config.freeBits 32 (s.freeTag + 1) 3 := rfl
@[simp] theorem State.halt_cur : s.halt.cur = Config.freeBits 32 (s.freeTag + 1) 4 := rfl
@[simp] theorem State.halt_ls : s.halt.ls = Config.freeBits 32 (s.freeTag + 1) 5 := rfl
@[simp] theorem State.halt_large : s.halt.large = (Config.freeBits 1 (s.freeTag + 1) 6).getLsbD 0 := rfl
@[simp] theorem State.halt_hdr : s.halt.hdr = Config.freeBits 3 (s.freeTag + 1) 7 := rfl
@[simp] theorem State.halt_latch : s.halt.latch = freeLatch (s.freeTag + 1) := rfl
@[simp] theorem State.halt_unit : s.halt.unit = s.unit := rfl
@[simp] theorem State.halt_status : s.halt.status = 2#32 := rfl
@[simp] theorem State.halt_errInfo : s.halt.errInfo = s.errInfo := rfl
@[simp] theorem State.halt_inLen : s.halt.inLen = s.inLen := rfl
@[simp] theorem State.halt_outCap : s.halt.outCap = s.outCap := rfl
@[simp] theorem State.halt_outLen : s.halt.outLen = s.outLen := rfl
@[simp] theorem State.halt_expect : s.halt.expect = s.expect := rfl
@[simp] theorem State.halt_ctrl : s.halt.ctrl = s.ctrl := rfl
@[simp] theorem State.halt_errIp : s.halt.errIp = s.errIp := rfl
@[simp] theorem State.halt_errOp : s.halt.errOp = s.errOp := rfl
@[simp] theorem State.halt_inMem : s.halt.inMem = s.inMem := rfl
@[simp] theorem State.halt_outMem : s.halt.outMem = s.outMem.forgetFrom s.outLen.toNat s.freeTag := rfl
@[simp] theorem State.halt_host : s.halt.host = s.host := rfl
@[simp] theorem State.halt_readData : s.halt.readData = s.readData := rfl
@[simp] theorem State.halt_freeTag : s.halt.freeTag = s.freeTag + 2 := rfl

end

/-! ### accept -/

section
variable (u : EngineUnit) (s : State)

@[simp] theorem State.accept_cfg : (s.accept u).cfg = s.cfg := rfl
@[simp] theorem State.accept_ip : (s.accept u).ip = s.ip := rfl
@[simp] theorem State.accept_op : (s.accept u).op = s.op := rfl
@[simp] theorem State.accept_dsize : (s.accept u).dsize = s.dsize := rfl
@[simp] theorem State.accept_n : (s.accept u).n = s.inLen := rfl
@[simp] theorem State.accept_cur : (s.accept u).cur = s.cur := rfl
@[simp] theorem State.accept_ls : (s.accept u).ls = s.ls := rfl
@[simp] theorem State.accept_large : (s.accept u).large = s.large := rfl
@[simp] theorem State.accept_hdr : (s.accept u).hdr = s.hdr := rfl
@[simp] theorem State.accept_latch : (s.accept u).latch = s.latch := rfl
@[simp] theorem State.accept_unit : (s.accept u).unit = u := rfl
@[simp] theorem State.accept_status : (s.accept u).status = 1#32 := rfl
@[simp] theorem State.accept_errInfo : (s.accept u).errInfo = 0#32 := rfl
@[simp] theorem State.accept_inLen : (s.accept u).inLen = s.inLen := rfl
@[simp] theorem State.accept_outCap : (s.accept u).outCap = s.outCap := rfl
@[simp] theorem State.accept_outLen : (s.accept u).outLen = 0#32 := rfl
@[simp] theorem State.accept_expect : (s.accept u).expect = s.expect := rfl
@[simp] theorem State.accept_ctrl : (s.accept u).ctrl = s.ctrl := rfl
@[simp] theorem State.accept_errIp : (s.accept u).errIp = 0#32 := rfl
@[simp] theorem State.accept_errOp : (s.accept u).errOp = 0#32 := rfl
@[simp] theorem State.accept_inMem : (s.accept u).inMem = s.inMem := rfl
@[simp] theorem State.accept_outMem : (s.accept u).outMem = s.outMem := rfl
@[simp] theorem State.accept_host : (s.accept u).host = s.host := rfl
@[simp] theorem State.accept_readData : (s.accept u).readData = s.readData := rfl
@[simp] theorem State.accept_freeTag : (s.accept u).freeTag = s.freeTag := rfl

end

/-! ### resetEvent -/

section
variable (s : State)

@[simp] theorem State.resetEvent_cfg : s.resetEvent.cfg = s.cfg := rfl
@[simp] theorem State.resetEvent_ip : s.resetEvent.ip = Config.freeBits 32 (s.freeTag + 2) 0 := rfl
@[simp] theorem State.resetEvent_op : s.resetEvent.op = Config.freeBits 32 (s.freeTag + 2) 1 := rfl
@[simp] theorem State.resetEvent_dsize : s.resetEvent.dsize = Config.freeBits 32 (s.freeTag + 2) 2 := rfl
@[simp] theorem State.resetEvent_n : s.resetEvent.n = Config.freeBits 32 (s.freeTag + 2) 3 := rfl
@[simp] theorem State.resetEvent_cur : s.resetEvent.cur = Config.freeBits 32 (s.freeTag + 2) 4 := rfl
@[simp] theorem State.resetEvent_ls : s.resetEvent.ls = Config.freeBits 32 (s.freeTag + 2) 5 := rfl
@[simp] theorem State.resetEvent_large : s.resetEvent.large = (Config.freeBits 1 (s.freeTag + 2) 6).getLsbD 0 := rfl
@[simp] theorem State.resetEvent_hdr : s.resetEvent.hdr = Config.freeBits 3 (s.freeTag + 2) 7 := rfl
@[simp] theorem State.resetEvent_latch : s.resetEvent.latch = freeLatch (s.freeTag + 2) := rfl
@[simp] theorem State.resetEvent_unit : s.resetEvent.unit = .dec := rfl
@[simp] theorem State.resetEvent_status : s.resetEvent.status = 0#32 := rfl
@[simp] theorem State.resetEvent_errInfo : s.resetEvent.errInfo = 0#32 := rfl
@[simp] theorem State.resetEvent_inLen : s.resetEvent.inLen = 0#32 := rfl
@[simp] theorem State.resetEvent_outCap : s.resetEvent.outCap = 0#32 := rfl
@[simp] theorem State.resetEvent_outLen : s.resetEvent.outLen = 0#32 := rfl
@[simp] theorem State.resetEvent_expect : s.resetEvent.expect = 0#32 := rfl
@[simp] theorem State.resetEvent_ctrl : s.resetEvent.ctrl = 0#32 := rfl
@[simp] theorem State.resetEvent_errIp : s.resetEvent.errIp = 0#32 := rfl
@[simp] theorem State.resetEvent_errOp : s.resetEvent.errOp = 0#32 := rfl
@[simp] theorem State.resetEvent_inMem : s.resetEvent.inMem = s.inMem.forgetFrom 0 s.freeTag := rfl
@[simp] theorem State.resetEvent_outMem : s.resetEvent.outMem = s.outMem.forgetFrom 0 (s.freeTag + 1) := rfl
@[simp] theorem State.resetEvent_host : s.resetEvent.host = s.host := rfl
@[simp] theorem State.resetEvent_readData : s.resetEvent.readData = s.readData := rfl
@[simp] theorem State.resetEvent_freeTag : s.resetEvent.freeTag = s.freeTag + 3 := rfl

end

/-! ### latchOpcode -/

section
variable (i : Instr) (s : State)

@[simp] theorem State.latchOpcode_cfg : (s.latchOpcode i).cfg = s.cfg := rfl
@[simp] theorem State.latchOpcode_ip : (s.latchOpcode i).ip = s.ip := rfl
@[simp] theorem State.latchOpcode_op : (s.latchOpcode i).op = s.op := rfl
@[simp] theorem State.latchOpcode_dsize : (s.latchOpcode i).dsize = s.dsize := rfl
@[simp] theorem State.latchOpcode_n : (s.latchOpcode i).n = s.n := rfl
@[simp] theorem State.latchOpcode_cur : (s.latchOpcode i).cur = s.cur := rfl
@[simp] theorem State.latchOpcode_ls : (s.latchOpcode i).ls = s.ls := rfl
@[simp] theorem State.latchOpcode_large : (s.latchOpcode i).large = s.large := rfl
@[simp] theorem State.latchOpcode_hdr : (s.latchOpcode i).hdr = s.hdr := rfl
@[simp] theorem State.latchOpcode_latch : (s.latchOpcode i).latch = latchOf s.latch i := rfl
@[simp] theorem State.latchOpcode_unit : (s.latchOpcode i).unit = s.unit := rfl
@[simp] theorem State.latchOpcode_status : (s.latchOpcode i).status = s.status := rfl
@[simp] theorem State.latchOpcode_errInfo : (s.latchOpcode i).errInfo = s.errInfo := rfl
@[simp] theorem State.latchOpcode_inLen : (s.latchOpcode i).inLen = s.inLen := rfl
@[simp] theorem State.latchOpcode_outCap : (s.latchOpcode i).outCap = s.outCap := rfl
@[simp] theorem State.latchOpcode_outLen : (s.latchOpcode i).outLen = s.outLen := rfl
@[simp] theorem State.latchOpcode_expect : (s.latchOpcode i).expect = s.expect := rfl
@[simp] theorem State.latchOpcode_ctrl : (s.latchOpcode i).ctrl = s.ctrl := rfl
@[simp] theorem State.latchOpcode_errIp : (s.latchOpcode i).errIp = s.errIp := rfl
@[simp] theorem State.latchOpcode_errOp : (s.latchOpcode i).errOp = s.errOp := rfl
@[simp] theorem State.latchOpcode_inMem : (s.latchOpcode i).inMem = s.inMem := rfl
@[simp] theorem State.latchOpcode_outMem : (s.latchOpcode i).outMem = s.outMem := rfl
@[simp] theorem State.latchOpcode_host : (s.latchOpcode i).host = s.host := rfl
@[simp] theorem State.latchOpcode_readData : (s.latchOpcode i).readData = s.readData := rfl
@[simp] theorem State.latchOpcode_freeTag : (s.latchOpcode i).freeTag = s.freeTag := rfl

end

end Sys2Proof.Machine
end

