-- ==== Sys2Proof/Laws/Copy.lean ====
section
/-! SUPPORT. The laws of the copy primitives: what they append to OUT, and that they change nothing else. -/

namespace Sys2Proof.Machine

theorem toNat_word (k : Nat) : (word k).toNat = k % 2 ^ 32 := BitVec.toNat_ofNat k 32

theorem toNat_word_of_lt (k : Nat) (h : k < 2 ^ 32) : (word k).toNat = k := by
  rw [toNat_word, Nat.mod_eq_of_lt h]

theorem add_word_add (w : Word) (j k : Nat) : w + word j + word k = w + word (j + k) := by
  simp [word, BitVec.ofNat_add, BitVec.add_assoc]

@[simp] theorem add_word_zero (w : Word) : w + word 0 = w := by simp [word]

theorem toNat_add_word (w : Word) (k : Nat) (h : w.toNat + k < 2 ^ 32) :
    (w + word k).toNat = w.toNat + k := by
  rw [BitVec.toNat_add, toNat_word, Nat.add_mod_mod, Nat.mod_eq_of_lt h]

/-! ### A sequence of bytes appended to OUT -/

/-- The bytes of a sequence written at `OUT[op]`, one after another. -/
def pushAll : List Byte → State → State
  | [], s => s
  | v :: vs, s => pushAll vs (s.outPush v)

/-- Appending bytes changes `op` and OUT only. -/
theorem pushAll_eq (vs : List Byte) (s : State) :
    pushAll vs s = { s with op := s.op + word vs.length, outMem := (pushAll vs s).outMem } := by
  induction vs generalizing s with
  | nil => simp [pushAll]
  | cons v vs ih =>
    rw [pushAll, ih]
    have : s.op + 1#32 + word vs.length = s.op + word (vs.length + 1) := by
      rw [Nat.add_comm]; exact add_word_add s.op 1 vs.length
    simp [State.outPush, this]

@[simp] theorem pushAll_op (vs : List Byte) (s : State) :
    (pushAll vs s).op = s.op + word vs.length := by rw [pushAll_eq]

theorem pushAll_append (vs ws : List Byte) (s : State) :
    pushAll (vs ++ ws) s = pushAll ws (pushAll vs s) := by
  induction vs generalizing s with
  | nil => rfl
  | cons v vs ih => exact ih _

/-- The bytes appended stand from the old `op` up, and every other byte of OUT is unchanged. -/
theorem pushAll_read (vs : List Byte) (s : State) (a : Nat) (h : s.op.toNat + vs.length < 2 ^ 32) :
    (pushAll vs s).outMem.read a =
      if h : s.op.toNat ≤ a ∧ a < s.op.toNat + vs.length then vs[a - s.op.toNat]
      else s.outMem.read a := by
  induction vs generalizing s with
  | nil => simp [pushAll]
  | cons v vs ih =>
    simp only [List.length_cons] at h
    have hop : (s.outPush v).op.toNat = s.op.toNat + 1 := toNat_add_word s.op 1 (by omega)
    rw [pushAll, ih _ (by omega)]
    simp only [hop, State.outPush_outMem, Memory.read_write, List.length_cons]
    by_cases hx : s.op.toNat + 1 ≤ a ∧ a < s.op.toNat + 1 + vs.length
    · rw [dif_pos hx, dif_pos (by omega)]
      have : a - s.op.toNat = (a - (s.op.toNat + 1)) + 1 := by omega
      simp [this]
    · rw [dif_neg hx]
      by_cases ha : s.op.toNat = a
      · subst ha; simp
      · rw [if_neg ha, dif_neg (by omega)]

theorem pushAll_wf (vs : List Byte) (s : State) (h : s.outMem.wf) : (pushAll vs s).outMem.wf := by
  induction vs generalizing s with
  | nil => exact h
  | cons v vs ih => exact ih _ (Memory.write_wf _ _ _ h)

theorem pushAll_within (vs : List Byte) (s : State) (size : Nat) (h : s.outMem.within size)
    (hop : s.op.toNat + vs.length ≤ size) (hw : s.op.toNat + vs.length < 2 ^ 32) :
    (pushAll vs s).outMem.within size := by
  induction vs generalizing s with
  | nil => exact h
  | cons v vs ih =>
    simp only [List.length_cons] at hop hw
    have ho : (s.outPush v).op.toNat = s.op.toNat + 1 := toNat_add_word s.op 1 (by omega)
    exact ih _ (Memory.write_within _ _ _ _ h (by omega)) (by omega) (by omega)

theorem pushAll_tagsBelow (vs : List Byte) (s : State) (t : Nat) (h : s.outMem.tagsBelow t) :
    (pushAll vs s).outMem.tagsBelow t := by
  induction vs generalizing s with
  | nil => exact h
  | cons v vs ih => exact ih _ h

/-! ### CopyLiterals -/

/-- CopyLiterals appends the bytes of IN from `src` up (40_decoder_opcodes R143). -/
theorem copyLiterals_eq (src k : Nat) (s : State) :
    copyLiterals src k s = pushAll (s.inMem.readBytes src k) s := by
  induction k generalizing src s with
  | zero => rfl
  | succ k ih => rw [copyLiterals, ih]; rfl

/-- CopyLiterals changes `op` and OUT only. -/
theorem copyLiterals_frame (src k : Nat) (s : State) :
    copyLiterals src k s =
      { s with op := s.op + word k, outMem := (copyLiterals src k s).outMem } := by
  conv_lhs => rw [copyLiterals_eq, pushAll_eq, ← copyLiterals_eq, Memory.length_readBytes]

theorem copyLiterals_read (src k : Nat) (s : State) (a : Nat) (h : s.op.toNat + k < 2 ^ 32) :
    (copyLiterals src k s).outMem.read a =
      if s.op.toNat ≤ a ∧ a < s.op.toNat + k then s.inMem.read (src + (a - s.op.toNat))
      else s.outMem.read a := by
  rw [copyLiterals_eq, pushAll_read _ _ _ (by simpa using h)]
  simp only [Memory.length_readBytes, Memory.getElem_readBytes]
  split <;> rfl

/-! ### CopyMatch -/

/-- CopyMatch changes `op` and OUT only. -/
theorem copyMatch_frame (off k : Nat) (s : State) :
    copyMatch off k s = { s with op := s.op + word k, outMem := (copyMatch off k s).outMem } := by
  induction k generalizing s with
  | zero => simp [copyMatch]
  | succ k ih =>
    rw [copyMatch, ih]
    have : s.op + 1#32 + word k = s.op + word (k + 1) := by
      rw [Nat.add_comm]; exact add_word_add s.op 1 k
    simp [State.outPush, this]

/-- Bytes outside the copy's destination are unchanged. -/
theorem copyMatch_read_outside (off k : Nat) (s : State) (a : Nat) (h : s.op.toNat + k < 2 ^ 32)
    (ha : a < s.op.toNat ∨ s.op.toNat + k ≤ a) :
    (copyMatch off k s).outMem.read a = s.outMem.read a := by
  induction k generalizing s with
  | zero => rfl
  | succ k ih =>
    have hop : (s.outPush (s.outMem.read (s.op.toNat - off))).op.toNat = s.op.toNat + 1 :=
      toNat_add_word s.op 1 (by omega)
    rw [copyMatch, ih _ (by omega) (by omega), State.outPush_outMem, Memory.read_write_ne]
    omega

theorem succ_mod_of_lt {j off : Nat} (h : j % off + 1 < off) : (j + 1) % off = j % off + 1 := by
  rw [Nat.add_mod]
  have h1 : 1 % off = 1 := Nat.mod_eq_of_lt (by omega)
  rw [h1, Nat.mod_eq_of_lt h]

theorem succ_mod_of_eq {j off : Nat} (h : j % off + 1 = off) : (j + 1) % off = 0 := by
  by_cases h1 : off = 1
  · subst h1; exact Nat.mod_one _
  · rw [Nat.add_mod, Nat.mod_eq_of_lt (show 1 < off by omega), h, Nat.mod_self]

/-- CopyMatch appends the periodic extension of the last `off` bytes (40_decoder_opcodes R145). -/
theorem copyMatch_read (off k : Nat) (s : State) (j : Nat) (h : s.op.toNat + k < 2 ^ 32)
    (h1 : 1 ≤ off) (h2 : off ≤ s.op.toNat) (hj : j < k) :
    (copyMatch off k s).outMem.read (s.op.toNat + j) =
      s.outMem.read (s.op.toNat - off + j % off) := by
  induction k generalizing s j with
  | zero => omega
  | succ k ih =>
    have hop : (s.outPush (s.outMem.read (s.op.toNat - off))).op.toNat = s.op.toNat + 1 :=
      toNat_add_word s.op 1 (by omega)
    rw [copyMatch]
    cases j with
    | zero =>
      rw [copyMatch_read_outside _ _ _ _ (by omega) (by omega)]
      simp
    | succ j =>
      have hr := ih (s.outPush (s.outMem.read (s.op.toNat - off))) j (by omega) (by omega) (by omega)
      rw [hop] at hr
      rw [show s.op.toNat + (j + 1) = s.op.toNat + 1 + j by omega, hr, State.outPush_outMem]
      have hlt : j % off < off := Nat.mod_lt _ (by omega)
      by_cases hc : j % off + 1 = off
      · rw [show s.op.toNat + 1 - off + j % off = s.op.toNat by omega, Memory.read_write_self,
          succ_mod_of_eq hc, Nat.add_zero]
      · rw [Memory.read_write_ne _ _ _ _ (by omega), succ_mod_of_lt (by omega)]
        congr 1; omega

theorem copyMatch_wf (off k : Nat) (s : State) (h : s.outMem.wf) : (copyMatch off k s).outMem.wf := by
  induction k generalizing s with
  | zero => exact h
  | succ k ih => exact ih _ (Memory.write_wf _ _ _ h)

theorem copyMatch_within (off k : Nat) (s : State) (size : Nat) (h : s.outMem.within size)
    (hop : s.op.toNat + k ≤ size) (hw : s.op.toNat + k < 2 ^ 32) :
    (copyMatch off k s).outMem.within size := by
  induction k generalizing s with
  | zero => exact h
  | succ k ih =>
    have ho : (s.outPush (s.outMem.read (s.op.toNat - off))).op.toNat = s.op.toNat + 1 :=
      toNat_add_word s.op 1 (by omega)
    exact ih _ (Memory.write_within _ _ _ _ h (by omega)) (by omega) (by omega)

theorem copyMatch_tagsBelow (off k : Nat) (s : State) (t : Nat) (h : s.outMem.tagsBelow t) :
    (copyMatch off k s).outMem.tagsBelow t := by
  induction k generalizing s with
  | zero => exact h
  | succ k ih => exact ih _ h

end Sys2Proof.Machine
end

