-- ==== Sys2Proof/Laws/Decode.lean ====
section
/-! SUPPORT. The laws of the decoder and encoder: the forms a byte can select, what a decoded opcode was read from,
and the number of control bytes. -/

namespace Sys2Proof

/-- The form that control byte 0 selects, with the byte's range (30_encoding R107). -/
theorem classify_cases (b : Byte) :
    (b.toNat < 0x80 ∧ classify b = .shortCopy) ∨
    (0x80 ≤ b.toNat ∧ b.toNat < 0xC0 ∧ classify b = .mediumCopy) ∨
    (0xC0 ≤ b.toNat ∧ b.toNat < 0xE0 ∧ classify b = .longCopy) ∨
    (0xE0 ≤ b.toNat ∧ b.toNat < 0xFC ∧ classify b = .literalRun) ∨
    (0xFC ≤ b.toNat ∧ classify b = .streamEnd) := by
  unfold classify
  by_cases h1 : b.toNat < 0x80
  · simp [h1]
  by_cases h2 : b.toNat < 0xC0
  · simp [h1, h2]; omega
  by_cases h3 : b.toNat < 0xE0
  · simp [h1, h2, h3]; omega
  by_cases h4 : b.toNat < 0xFC
  · simp [h1, h2, h3, h4]; omega
  · simp [h1, h2, h3, h4]; omega

theorem controlSize_pos (f : Form) : 1 ≤ controlSize f := by cases f <;> decide

theorem controlSize_le (f : Form) : controlSize f ≤ 4 := by cases f <;> decide

/-- What a decoded opcode was read from. -/
theorem decode_cases {bs : List Byte} {i : Instr} {rest : List Byte} (h : decode bs = .ok (i, rest)) :
    (∃ b0 b1, bs = b0 :: b1 :: rest ∧ classify b0 = .shortCopy ∧ i = parseShort b0 b1) ∨
    (∃ b0 b1 b2, bs = b0 :: b1 :: b2 :: rest ∧ classify b0 = .mediumCopy ∧ i = parseMedium b0 b1 b2) ∨
    (∃ b0 b1 b2 b3, bs = b0 :: b1 :: b2 :: b3 :: rest ∧ classify b0 = .longCopy ∧
      i = parseLong b0 b1 b2 b3) ∨
    (∃ b0, bs = b0 :: rest ∧ classify b0 = .literalRun ∧ i = parseRun b0) ∨
    (∃ b0, bs = b0 :: rest ∧ classify b0 = .streamEnd ∧ i = parseEnd b0) := by
  cases bs with
  | nil => simp [decode] at h
  | cons b0 bs =>
    simp only [decode] at h
    split at h
    · cases h; exact .inl ⟨_, _, rfl, ‹_›, rfl⟩
    · cases h; exact .inr (.inl ⟨_, _, _, rfl, ‹_›, rfl⟩)
    · cases h; exact .inr (.inr (.inl ⟨_, _, _, _, rfl, ‹_›, rfl⟩))
    · cases h; exact .inr (.inr (.inr (.inl ⟨_, rfl, ‹_›, rfl⟩)))
    · cases h; exact .inr (.inr (.inr (.inr ⟨_, rfl, ‹_›, rfl⟩)))
    · cases h

/-- The control bytes that control byte 0 asks for are decoded, whatever they are (30_encoding R108). -/
theorem decode_of_length (b0 : Byte) (bs : List Byte) (h : (b0 :: bs).length = controlSize (classify b0)) :
    ∃ i, decode (b0 :: bs) = .ok (i, []) := by
  rcases classify_cases b0 with ⟨_, hc⟩ | ⟨_, _, hc⟩ | ⟨_, _, hc⟩ | ⟨_, _, hc⟩ | ⟨_, hc⟩ <;>
    rw [hc] at h <;> simp only [controlSize, List.length_cons] at h
  · match bs, h with
    | [b1], _ => exact ⟨parseShort b0 b1, by simp [decode, hc]⟩
  · match bs, h with
    | [b1, b2], _ => exact ⟨parseMedium b0 b1 b2, by simp [decode, hc]⟩
  · match bs, h with
    | [b1, b2, b3], _ => exact ⟨parseLong b0 b1 b2 b3, by simp [decode, hc]⟩
  · match bs, h with
    | [], _ => exact ⟨parseRun b0, by simp [decode, hc]⟩
  · match bs, h with
    | [], _ => exact ⟨parseEnd b0, by simp [decode, hc]⟩

/-! ### The fields as remainders -/

theorem bitsOf_1_0 (b : Byte) : bitsOf b 1 0 = b.toNat % 4 := by simp [bitsOf]
theorem bitsOf_4_2 (b : Byte) : bitsOf b 4 2 = b.toNat / 4 % 8 := by simp [bitsOf]
theorem bitsOf_6_5 (b : Byte) : bitsOf b 6 5 = b.toNat / 32 % 4 := by simp [bitsOf]
theorem bitsOf_7_6 (b : Byte) : bitsOf b 7 6 = b.toNat / 64 % 4 := by simp [bitsOf]
theorem bitsOf_5_0 (b : Byte) : bitsOf b 5 0 = b.toNat % 64 := by simp [bitsOf]
theorem bitsOf_3_2 (b : Byte) : bitsOf b 3 2 = b.toNat / 4 % 4 := by simp [bitsOf]
theorem bitsOf_4_4 (b : Byte) : bitsOf b 4 4 = b.toNat / 16 % 2 := by simp [bitsOf]
theorem bitsOf_4_0 (b : Byte) : bitsOf b 4 0 = b.toNat % 32 := by simp [bitsOf]

/-! ### The ranges of a parsed opcode -/

theorem parseShort_wellFormed (b0 b1 : Byte) : (parseShort b0 b1).wellFormed = true := by
  have h1 : b1.toNat < 256 := b1.isLt
  simp only [parseShort, Instr.wellFormed, inRange, bitsOf_1_0, bitsOf_4_2, bitsOf_6_5, Bool.and_eq_true,
    decide_eq_true_eq]
  omega

theorem parseMedium_wellFormed (b0 b1 b2 : Byte) : (parseMedium b0 b1 b2).wellFormed = true := by
  have h2 : b2.toNat < 256 := b2.isLt
  simp only [parseMedium, Instr.wellFormed, inRange, bitsOf_7_6, bitsOf_5_0, Bool.and_eq_true,
    decide_eq_true_eq]
  omega

theorem parseLong_wellFormed (b0 b1 b2 b3 : Byte) : (parseLong b0 b1 b2 b3).wellFormed = true := by
  have h1 : b1.toNat < 256 := b1.isLt
  have h2 : b2.toNat < 256 := b2.isLt
  have h3 : b3.toNat < 256 := b3.isLt
  simp only [parseLong, Instr.wellFormed, inRange, bitsOf_1_0, bitsOf_3_2, bitsOf_4_4, Bool.and_eq_true,
    decide_eq_true_eq]
  omega

theorem parseRun_wellFormed (b0 : Byte) (h : classify b0 = .literalRun) :
    (parseRun b0).wellFormed = true := by
  rcases classify_cases b0 with ⟨_, hc⟩ | ⟨_, _, hc⟩ | ⟨_, _, hc⟩ | ⟨_, _, hc⟩ | ⟨_, hc⟩ <;>
    simp only [hc, reduceCtorEq] at h
  simp only [parseRun, Instr.wellFormed, inRange, bitsOf_4_0, Bool.and_eq_true, decide_eq_true_eq]
  omega

theorem parseEnd_wellFormed (b0 : Byte) : (parseEnd b0).wellFormed = true := by
  simp only [parseEnd, Instr.wellFormed, inRange, bitsOf_1_0, Bool.and_eq_true, decide_eq_true_eq]
  omega

/-! ### Big-endian sequences -/

theorem length_beBytes (v k : Nat) : (beBytes v k).length = k := by
  induction k generalizing v with
  | zero => rfl
  | succ k ih => simp [beBytes, ih]

theorem beValue_append (s : List Byte) (b : Byte) : beValue (s ++ [b]) = beValue s * 256 + b.toNat := by
  simp [beValue]

/-- `BE(BEbytes(v, k)) = v` for `v < 256^k` (00_scope R11). -/
theorem beValue_beBytes (v k : Nat) (h : v < 256 ^ k) : beValue (beBytes v k) = v := by
  induction k generalizing v with
  | zero => simp at h; subst h; rfl
  | succ k ih =>
    rw [beBytes, beValue_append, ih _ (by rw [Nat.pow_succ] at h; omega), BitVec.toNat_ofNat]
    omega

theorem beValue_lt (s : List Byte) : beValue s < 256 ^ s.length := by
  induction s using List.reverseRecOn with
  | nil => simp [beValue]
  | append_singleton s b ih =>
    have := b.isLt
    rw [beValue_append, List.length_append, List.length_singleton, Nat.pow_succ]
    omega

end Sys2Proof
end

