-- ==== Sys2Proof/Laws/Phases.lean ====
section
/-! SUPPORT. What the phases of an opcode and ENC's output primitive can answer, each said once. -/

namespace Sys2Proof.Machine

/-! ### Taking an error -/

theorem Memory.forgetFrom_zero (m : Memory) (t : Nat) : m.forgetFrom 0 t = Memory.unspecified t := by
  simp [Memory.forgetFrom, Memory.unspecified]

/-- An error leaves nothing of the working registers and of OUT. -/
theorem State.raise_congr (c : Cause) (ip op : Word) {s t : State} (hcfg : t.cfg = s.cfg)
    (hunit : t.unit = s.unit) (hinLen : t.inLen = s.inLen) (houtCap : t.outCap = s.outCap)
    (hexpect : t.expect = s.expect) (hctrl : t.ctrl = s.ctrl) (hin : t.inMem = s.inMem)
    (hhost : t.host = s.host) (hread : t.readData = s.readData) (htag : t.freeTag = s.freeTag) :
    t.raise c ip op = s.raise c ip op := by
  simp only [State.raise, State.workUnspecified, Memory.forgetFrom_zero, hcfg, hunit, hinLen, houtCap,
    hexpect, hctrl, hin, hhost, hread, htag]

/-- The literals written before an error do not show after it (60_exceptions R265). -/
theorem State.raise_pushAll (c : Cause) (ip op : Word) (vs : List Byte) (s : State) :
    (pushAll vs s).raise c ip op = s.raise c ip op := by
  rw [pushAll_eq]; exact State.raise_congr c ip op rfl rfl rfl rfl rfl rfl rfl rfl rfl rfl

/-! ### The literal phase -/

/-- The state after a literal phase that completes. -/
def afterLiterals (size lit : Nat) (s : State) : State :=
  { copyLiterals (s.ip.toNat + size) lit s with ip := s.ip + word (size + lit) }

theorem afterLiterals_eq (size lit : Nat) (s : State) :
    afterLiterals size lit s =
      { s with
        ip := s.ip + word (size + lit)
        op := s.op + word lit
        outMem := (afterLiterals size lit s).outMem } := by
  unfold afterLiterals; rw [copyLiterals_frame]

theorem afterLiterals_read (size lit : Nat) (s : State) (a : Nat) (h : s.op.toNat + lit < 2 ^ 32) :
    (afterLiterals size lit s).outMem.read a =
      if s.op.toNat ≤ a ∧ a < s.op.toNat + lit then
        s.inMem.read (s.ip.toNat + size + (a - s.op.toNat))
      else s.outMem.read a := copyLiterals_read _ _ _ _ h

/-- All that a literal phase can answer, in the order of its checks (40_decoder_opcodes R133). -/
theorem literalPhase_cases (size lit : Nat) (s : State) :
    (s.n.toNat < s.ip.toNat + size + lit ∧
      literalPhase size lit s = .ended (.next (s.raise .inputExhausted s.ip s.op))) ∨
    (s.ip.toNat + size + lit ≤ s.n.toNat ∧ s.dsize.toNat < s.op.toNat + lit ∧
      literalPhase size lit s = .ended (.next (s.raise .sizeMismatch s.ip s.op))) ∨
    (s.ip.toNat + size + lit ≤ s.n.toNat ∧ s.op.toNat + lit ≤ s.dsize.toNat ∧
      s.cfg.inSize < s.ip.toNat + size + lit ∧
      literalPhase size lit s = .ended (.fault .inAddressAbsent)) ∨
    (s.ip.toNat + size + lit ≤ s.n.toNat ∧ s.op.toNat + lit ≤ s.dsize.toNat ∧
      s.ip.toNat + size + lit ≤ s.cfg.inSize ∧ s.cfg.outSize < s.op.toNat + lit ∧
      literalPhase size lit s = .ended (.fault .outAddressAbsent)) ∨
    (s.ip.toNat + size + lit ≤ s.n.toNat ∧ s.op.toNat + lit ≤ s.dsize.toNat ∧
      s.ip.toNat + size + lit ≤ s.cfg.inSize ∧ s.op.toNat + lit ≤ s.cfg.outSize ∧
      literalPhase size lit s = .go (afterLiterals size lit s)) := by
  unfold literalPhase State.inCovers State.outCovers
  by_cases h1 : s.n.toNat < s.ip.toNat + size + lit
  · exact .inl ⟨h1, if_pos h1⟩
  by_cases h2 : s.dsize.toNat < s.op.toNat + lit
  · exact .inr (.inl ⟨by omega, h2, by rw [if_neg h1, if_pos h2]⟩)
  by_cases h3 : s.ip.toNat + size + lit ≤ s.cfg.inSize
  · by_cases h4 : s.op.toNat + lit ≤ s.cfg.outSize
    · exact .inr (.inr (.inr (.inr ⟨by omega, by omega, h3, h4, by simp [h1, h2, h3, h4, afterLiterals]⟩)))
    · exact .inr (.inr (.inr (.inl ⟨by omega, by omega, h3, by omega, by simp [h1, h2, h3, h4]⟩)))
  · exact .inr (.inr (.inl ⟨by omega, by omega, by omega, by simp [h1, h2, h3]⟩))

theorem literalPhase_go (size lit : Nat) (s : State) (h1 : s.ip.toNat + size + lit ≤ s.n.toNat)
    (h2 : s.op.toNat + lit ≤ s.dsize.toNat) (h3 : s.n.toNat ≤ s.cfg.inSize)
    (h4 : s.dsize.toNat ≤ s.cfg.outSize) :
    literalPhase size lit s = .go (afterLiterals size lit s) := by
  rcases literalPhase_cases size lit s with h | h | h | h | h
  · omega
  · omega
  · omega
  · omega
  · exact h.2.2.2.2

/-! ### The match phase -/

/-- All that a match phase can answer, in the order of its checks (40_decoder_opcodes R134). -/
theorem matchPhase_cases (ip0 : Word) (len off : Nat) (s : State) :
    (s.op.toNat < off ∧ matchPhase ip0 len off s = .ended (.next (s.raise .badOffset ip0 s.op))) ∨
    (off ≤ s.op.toNat ∧ s.dsize.toNat < s.op.toNat + len ∧
      matchPhase ip0 len off s = .ended (.next (s.raise .sizeMismatch ip0 s.op))) ∨
    (off ≤ s.op.toNat ∧ s.op.toNat + len ≤ s.dsize.toNat ∧ s.cfg.outSize < s.op.toNat + len ∧
      matchPhase ip0 len off s = .ended (.fault .outAddressAbsent)) ∨
    (off ≤ s.op.toNat ∧ s.op.toNat + len ≤ s.dsize.toNat ∧ s.op.toNat + len ≤ s.cfg.outSize ∧
      matchPhase ip0 len off s = .go (copyMatch off len s)) := by
  unfold matchPhase State.outCovers
  by_cases h1 : s.op.toNat < off
  · exact .inl ⟨h1, if_pos h1⟩
  by_cases h2 : s.dsize.toNat < s.op.toNat + len
  · exact .inr (.inl ⟨by omega, h2, by rw [if_neg h1, if_pos h2]⟩)
  by_cases h3 : s.op.toNat + len ≤ s.cfg.outSize
  · exact .inr (.inr (.inr ⟨by omega, by omega, h3, by simp [h1, h2, h3]⟩))
  · exact .inr (.inr (.inl ⟨by omega, by omega, by omega, by simp [h1, h2, h3]⟩))

theorem matchPhase_go (ip0 : Word) (len off : Nat) (s : State) (h1 : off ≤ s.op.toNat)
    (h2 : s.op.toNat + len ≤ s.dsize.toNat) (h3 : s.dsize.toNat ≤ s.cfg.outSize) :
    matchPhase ip0 len off s = .go (copyMatch off len s) := by
  rcases matchPhase_cases ip0 len off s with h | h | h | h
  · omega
  · omega
  · omega
  · exact h.2.2.2

/-! ### The end phase -/

/-- All that StreamEnd can answer after its literals (40_decoder_opcodes R140). -/
theorem endPhase_cases (ip0 : Word) (s : State) :
    (s.op ≠ s.dsize ∧ endPhase ip0 s = .ended (.next (s.raise .sizeMismatch ip0 s.op))) ∨
    (s.op = s.dsize ∧ s.expectEn = true ∧ s.op ≠ s.expect ∧
      endPhase ip0 s = .ended (.next (s.raise .expectMismatch ip0 s.op))) ∨
    (s.op = s.dsize ∧ (s.expectEn = true → s.op = s.expect) ∧
      endPhase ip0 s = .go ({ s with outLen := s.op }).halt) := by
  unfold endPhase
  by_cases h1 : s.op = s.dsize
  · by_cases h2 : s.expectEn = true
    · by_cases h3 : s.op = s.expect
      · refine .inr (.inr ⟨h1, fun _ => h3, ?_⟩)
        rw [if_neg (not_not.2 h1), if_neg (by simp [h2, h3])]
      · refine .inr (.inl ⟨h1, h2, h3, ?_⟩)
        rw [if_neg (not_not.2 h1), if_pos (by simp [h2, h3])]
    · refine .inr (.inr ⟨h1, fun h => absurd h h2, ?_⟩)
      rw [if_neg (not_not.2 h1), if_neg (by simp [h2])]
  · exact .inl ⟨h1, if_pos h1⟩

/-! ### ENC's output primitive -/

/-- All that `Put` can answer (42_encoder R191). -/
theorem put_cases (v : Byte) (s : State) :
    (s.outCap.toNat ≤ s.op.toNat ∧ put v s = .ended (.next (s.raise .outCapacity s.cur s.op))) ∨
    (s.op.toNat < s.outCap.toNat ∧ s.cfg.outSize ≤ s.op.toNat ∧
      put v s = .ended (.fault .outAddressAbsent)) ∨
    (s.op.toNat < s.outCap.toNat ∧ s.op.toNat < s.cfg.outSize ∧ put v s = .go (s.outPush v)) := by
  unfold put State.outCovers
  by_cases h1 : s.outCap.toNat ≤ s.op.toNat
  · exact .inl ⟨h1, if_pos h1⟩
  by_cases h2 : s.op.toNat + 1 ≤ s.cfg.outSize
  · exact .inr (.inr ⟨by omega, by omega, by simp [h1, h2]⟩)
  · exact .inr (.inl ⟨by omega, by omega, by simp [h1, h2]⟩)

theorem toNat_outPush_op (v : Byte) (s : State) (h : s.op.toNat < s.outCap.toNat) :
    (s.outPush v).op.toNat = s.op.toNat + 1 :=
  toNat_add_word s.op 1 (by have := s.outCap.isLt; omega)

/-- `PutBytes` appends the whole sequence when it fits. -/
theorem putBytes_go (vs : List Byte) (s : State) (h : s.op.toNat + vs.length ≤ s.outCap.toNat)
    (h2 : s.outCap.toNat ≤ s.cfg.outSize) : putBytes vs s = .go (pushAll vs s) := by
  induction vs generalizing s with
  | nil => rfl
  | cons v vs ih =>
    simp only [List.length_cons] at h
    have hop := toNat_outPush_op v s (by omega)
    rcases put_cases v s with hc | hc | hc
    · omega
    · omega
    · rw [putBytes, hc.2.2]
      exact ih (s.outPush v) (by simp only [State.outPush_outCap]; omega) h2

/-- `PutBytes` ends in ResourceError when the sequence does not fit, whatever it wrote before: OUT and the working
registers are unspecified then. -/
theorem putBytes_full (vs : List Byte) (s : State) (h : s.outCap.toNat < s.op.toNat + vs.length)
    (h1 : s.op.toNat ≤ s.outCap.toNat) (h2 : s.outCap.toNat ≤ s.cfg.outSize) :
    putBytes vs s = .ended (.next (s.raise .outCapacity s.cur s.outCap)) := by
  induction vs generalizing s with
  | nil => simp at h; omega
  | cons v vs ih =>
    simp only [List.length_cons] at h
    rcases put_cases v s with hc | hc | hc
    · rw [putBytes, hc.2]
      have : s.op = s.outCap := BitVec.eq_of_toNat_eq (by omega)
      rw [this]; rfl
    · omega
    · have hop := toNat_outPush_op v s (by omega)
      rw [putBytes, hc.2.2]
      refine (ih (s.outPush v) (by simp only [State.outPush_outCap]; omega) ?_ h2).trans ?_
      · simp only [State.outPush_outCap]; omega
      · simp only [State.outPush_cur, State.outPush_outCap]
        exact congrArg _ (congrArg _ (State.raise_pushAll .outCapacity s.cur s.outCap [v] s))

/-- `PutInput` is `PutBytes` of the bytes of IN, which exist. -/
theorem putInput_eq (a c : Nat) (s : State) (h : a + c ≤ s.cfg.inSize) :
    putInput a c s = putBytes (s.inMem.readBytes a c) s := by
  simp [putInput, State.inCovers, h]

/-- Two sequences put one after the other are one sequence put. -/
theorem putBytes_append (vs ws : List Byte) (s : State) :
    putBytes (vs ++ ws) s = (putBytes vs s).andThen (putBytes ws) := by
  induction vs generalizing s with
  | nil => rfl
  | cons v vs ih =>
    rcases put_cases v s with hc | hc | hc
    · simp [putBytes, hc.2, Flow.andThen]
    · simp [putBytes, hc.2.2, Flow.andThen]
    · simp only [List.cons_append, putBytes, hc.2.2, Flow.andThen, ih]

end Sys2Proof.Machine
end

