-- ==== Sys2Proof/Laws/Encoder.lean ====
section
/-! SUPPORT. What a step of ENC can answer: the bytes it puts as one sequence, which fits or ends in ResourceError. -/

namespace Sys2Proof.Machine

/-! ### The bytes of a flush -/

theorem flushChunk_le (p : Nat) : flushChunk p ≤ p := by unfold flushChunk; omega

theorem flushChunk_le_max (p : Nat) : flushChunk p ≤ 112 := by unfold flushChunk; omega

theorem flushChunk_pos (p : Nat) (h : 4 ≤ p) : 4 ≤ flushChunk p := by unfold flushChunk; omega

theorem flushChunk_mod (p : Nat) : flushChunk p % 4 = 0 := by unfold flushChunk; omega

/-- The LiteralRuns that a flush emits for `p` pending bytes from `IN[ls]` (42_encoder R195). -/
def runBytes (m : Memory) (ls p : Nat) : Nat → List Byte
  | 0 => []
  | fuel + 1 =>
    if 4 ≤ p then
      (encode (.literalRun (flushChunk p)) ++ m.readBytes ls (flushChunk p)) ++
        runBytes m (ls + flushChunk p) (p - flushChunk p) fuel
    else []

theorem pushAll_outMem_congr (vs : List Byte) {s t : State} (hop : t.op = s.op)
    (hout : t.outMem = s.outMem) : (pushAll vs t).outMem = (pushAll vs s).outMem := by
  induction vs generalizing s t with
  | nil => exact hout
  | cons v vs ih => exact ih (by simp [hop]) (by simp [hop, hout])

/-- The state with the literal-run start moved. -/
def State.setLs (l : Word) (s : State) : State := { s with ls := l }

theorem pushAll_setLs (vs : List Byte) (l : Word) (s : State) :
    pushAll vs (s.setLs l) = (pushAll vs s).setLs l := by
  rw [pushAll_eq vs (s.setLs l), pushAll_outMem_congr vs (s := s) (t := s.setLs l) rfl rfl, pushAll_eq vs s]
  rfl

theorem setLs_raise (c : Cause) (ip op l : Word) (s : State) :
    (s.setLs l).raise c ip op = s.raise c ip op :=
  State.raise_congr c ip op rfl rfl rfl rfl rfl rfl rfl rfl rfl rfl

/-- ENC may put: its pending run lies in IN, and OUT has room up to its capacity. -/
structure State.EncReady (s : State) : Prop where
  ls_le : s.ls.toNat ≤ s.cur.toNat
  cur_le : s.cur.toNat ≤ s.cfg.inSize
  op_le : s.op.toNat ≤ s.outCap.toNat
  cap_le : s.outCap.toNat ≤ s.cfg.outSize

theorem State.Running.encReady {s : State} (h : s.Running) (hu : s.unit = .enc) : s.EncReady where
  ls_le := (h.enc_pointers hu).ls_le_cur
  cur_le := by
    have := (h.enc_pointers hu).cur_le_n
    have := h.in_fits
    rw [h.n_eq] at *
    omega
  op_le := (h.enc_pointers hu).op_le_outCap
  cap_le := h.out_fits

/-- A sequence put either fits or ends in ResourceError. -/
theorem putBytes_either (vs : List Byte) (s : State) (h1 : s.op.toNat ≤ s.outCap.toNat)
    (h2 : s.outCap.toNat ≤ s.cfg.outSize) :
    putBytes vs s =
      if s.op.toNat + vs.length ≤ s.outCap.toNat then .go (pushAll vs s)
      else .ended (.next (s.raise .outCapacity s.cur s.outCap)) := by
  split
  · exact putBytes_go vs s (by omega) h2
  · exact putBytes_full vs s (by omega) h1 h2

theorem toNat_pushAll_op (vs : List Byte) (s : State) (h : s.op.toNat + vs.length ≤ s.outCap.toNat) :
    (pushAll vs s).op.toNat = s.op.toNat + vs.length := by
  rw [pushAll_op]; exact toNat_add_word _ _ (by have := s.outCap.isLt; omega)

/-- Control bytes, then bytes of IN, then a change of state that puts nothing. -/
theorem putBytes_putInput (vs : List Byte) (a c : Nat) (s : State) (h : a + c ≤ s.cfg.inSize) :
    (putBytes vs s).andThen (putInput a c) = putBytes (vs ++ s.inMem.readBytes a c) s := by
  rw [putBytes_append]
  have hin : ∀ (vs : List Byte) (u t : State), putBytes vs u = .go t → t.inMem = u.inMem ∧ t.cfg = u.cfg := by
    intro vs
    induction vs with
    | nil => intro u t h; cases h; exact ⟨rfl, rfl⟩
    | cons v vs ih =>
      intro u t h
      rcases put_cases v u with hc | hc | hc
      · simp [putBytes, hc.2, Flow.andThen] at h
      · simp [putBytes, hc.2.2, Flow.andThen] at h
      · simp only [putBytes, hc.2.2, Flow.andThen] at h
        exact ih (u.outPush v) t h
  cases hp : putBytes vs s with
  | ended o => rfl
  | go t =>
    obtain ⟨h1, h2⟩ := hin vs s t hp
    simp only [Flow.andThen]
    rw [putInput_eq _ _ _ (by rw [h2]; exact h), h1]

/-- All that a flush can answer (42_encoder R195). -/
theorem flushLoop_eq (fuel : Nat) (s : State) (h : s.EncReady) (hf : s.pending ≤ fuel) :
    flushLoop fuel s =
      if s.op.toNat + (runBytes s.inMem s.ls.toNat s.pending fuel).length ≤ s.outCap.toNat then
        .go ((pushAll (runBytes s.inMem s.ls.toNat s.pending fuel) s).setLs
          (s.ls + word (s.pending - s.pending % 4)))
      else .ended (.next (s.raise .outCapacity s.cur s.outCap)) := by
  induction fuel generalizing s with
  | zero =>
    have hp : s.pending = 0 := by omega
    simp only [flushLoop, runBytes, List.length_nil, Nat.add_zero, if_pos h.op_le, hp]
    simp [pushAll, State.setLs]
  | succ fuel ih =>
    by_cases h4 : 4 ≤ s.pending
    · have hc1 := flushChunk_le s.pending
      have hc2 := flushChunk_pos s.pending h4
      have hc3 := flushChunk_mod s.pending
      have hls := h.ls_le
      have hcur := h.cur_le
      have hp : s.pending = s.cur.toNat - s.ls.toNat := rfl
      have hc : s.cur.toNat < 2 ^ 32 := s.cur.isLt
      generalize hcdef : flushChunk s.pending = c at *
      rw [flushLoop, if_pos h4]
      have hone : flushOne s =
          (putBytes (encode (.literalRun c) ++ s.inMem.readBytes s.ls.toNat c) s).andThen
            fun t => .go { t with ls := t.ls + word c } := by
        unfold flushOne
        simp only [hcdef]
        rw [putBytes_putInput _ _ _ _ (by omega)]
      rw [hone, runBytes, if_pos h4, hcdef,
        putBytes_either _ _ h.op_le h.cap_le]
      generalize hbs : encode (.literalRun c) ++ s.inMem.readBytes s.ls.toNat c = bs
      by_cases hfit : s.op.toNat + bs.length ≤ s.outCap.toNat
      · rw [if_pos hfit]
        simp only [Flow.andThen]
        have hst : ({ pushAll bs s with ls := (pushAll bs s).ls + word c } : State)
            = (pushAll bs s).setLs (s.ls + word c) := by
          rw [pushAll_eq]; rfl
        rw [hst]
        have hop : ((pushAll bs s).setLs (s.ls + word c)).op.toNat = s.op.toNat + bs.length :=
          toNat_pushAll_op bs s hfit
        have hl : ((pushAll bs s).setLs (s.ls + word c)).ls.toNat = s.ls.toNat + c :=
          toNat_add_word _ _ (by omega)
        have hframe : ((pushAll bs s).setLs (s.ls + word c)).inMem = s.inMem ∧
            ((pushAll bs s).setLs (s.ls + word c)).cur = s.cur ∧
            ((pushAll bs s).setLs (s.ls + word c)).cfg = s.cfg ∧
            ((pushAll bs s).setLs (s.ls + word c)).outCap = s.outCap := by
          rw [pushAll_eq]; exact ⟨rfl, rfl, rfl, rfl⟩
        obtain ⟨f1, f2, f3, f4⟩ := hframe
        have hpend : ((pushAll bs s).setLs (s.ls + word c)).pending = s.pending - c := by
          unfold State.pending at *; rw [f2, hl]; omega
        have hready : ((pushAll bs s).setLs (s.ls + word c)).EncReady :=
          ⟨by rw [f2, hl]; omega, by rw [f2, f3]; omega, by rw [hop, f4]; exact hfit,
            by rw [f4, f3]; exact h.cap_le⟩
        rw [ih _ hready (by rw [hpend]; omega), hpend, hop, hl, f1, f2, f4, setLs_raise,
          State.raise_pushAll, pushAll_setLs, ← pushAll_append, List.length_append, ← Nat.add_assoc]
        split
        · have hmod : (s.pending - c) % 4 = s.pending % 4 := by omega
          have : s.ls + word c + word (s.pending - c - (s.pending - c) % 4) =
              s.ls + word (s.pending - s.pending % 4) := by
            rw [add_word_add, hmod]; congr 2; omega
          simp only [State.setLs] at this ⊢
          rw [this]
        · rfl
      · rw [if_neg hfit, if_neg (by rw [List.length_append]; omega)]
        rfl
    · have hm : s.pending - s.pending % 4 = 0 := by omega
      rw [flushLoop, if_neg h4, runBytes, if_neg h4, hm]
      simp only [List.length_nil, Nat.add_zero, if_pos h.op_le]
      simp [pushAll, State.setLs]

/-- The bytes of a flush of the state. -/
def State.flushBytes (s : State) : List Byte := runBytes s.inMem s.ls.toNat s.pending s.pending

/-- The state after a flush that fits. -/
def State.flushed (s : State) : State :=
  (pushAll s.flushBytes s).setLs (s.ls + word (s.pending - s.pending % 4))

theorem flush_eq (s : State) (h : s.EncReady) :
    flush s =
      if s.op.toNat + s.flushBytes.length ≤ s.outCap.toNat then .go s.flushed
      else .ended (.next (s.raise .outCapacity s.cur s.outCap)) :=
  flushLoop_eq _ _ h (Nat.le_refl _)

theorem State.flushed_eq (s : State) :
    s.flushed = { s with
      op := s.op + word s.flushBytes.length
      ls := s.ls + word (s.pending - s.pending % 4)
      outMem := (pushAll s.flushBytes s).outMem } := by
  unfold State.flushed; rw [pushAll_eq]; rfl

/-- After a flush `cur - ls` is the pending length mod 4 (42_encoder R195). -/
theorem State.flushed_pending (s : State) (h : s.ls.toNat ≤ s.cur.toNat) :
    s.flushed.pending = s.pending % 4 := by
  have hc : s.cur.toNat < 2 ^ 32 := s.cur.isLt
  have : s.pending = s.cur.toNat - s.ls.toNat := rfl
  rw [State.flushed_eq]
  simp only [State.pending]
  rw [toNat_add_word _ _ (by omega)]
  omega

theorem State.flushed_ls (s : State) (h : s.ls.toNat ≤ s.cur.toNat) :
    s.flushed.ls.toNat = s.cur.toNat - s.pending % 4 := by
  have hc : s.cur.toNat < 2 ^ 32 := s.cur.isLt
  have : s.pending = s.cur.toNat - s.ls.toNat := rfl
  rw [State.flushed_eq]
  simp only
  rw [toNat_add_word _ _ (by omega)]
  omega

/-! ### The emission of a match and of StreamEnd -/

/-- All bytes that ENC puts at a match `(o, len)`: the LiteralRuns of the flush, the control bytes, the remaining
literals (42_encoder R193). -/
def State.matchBytes (s : State) (o len : Nat) : List Byte :=
  s.flushBytes ++ (encode (copyInstr (s.pending % 4) o len) ++
    s.inMem.readBytes (s.cur.toNat - s.pending % 4) (s.pending % 4))

/-- All bytes that ENC puts at the end of the input (42_encoder R201). -/
def State.endBytes (s : State) : List Byte :=
  s.flushBytes ++ (encode (.streamEnd (s.pending % 4)) ++
    s.inMem.readBytes (s.cur.toNat - s.pending % 4) (s.pending % 4))

/-- A flush and then one more sequence are one sequence put. -/
theorem flush_then (s : State) (h : s.EncReady) (vs : List Byte) (c : Nat) (hc : c = s.pending % 4)
    (pre : State → State) (fin : State → Flow)
    (hpre : ∀ t : State, (pre t).op = t.op ∧ (pre t).outCap = t.outCap ∧ (pre t).cfg = t.cfg ∧
      (pre t).cur = t.cur ∧ (pre t).inMem = t.inMem)
    (hraise : (pre s.flushed).raise .outCapacity s.cur s.outCap = s.raise .outCapacity s.cur s.outCap) :
    (flush s).andThen (fun t =>
      ((putBytes vs (pre t)).andThen (putInput (s.cur.toNat - c) c)).andThen fin) =
    if s.op.toNat + (s.flushBytes ++ (vs ++ s.inMem.readBytes (s.cur.toNat - c) c)).length ≤ s.outCap.toNat then
      fin (pushAll (vs ++ s.inMem.readBytes (s.cur.toNat - c) c) (pre s.flushed))
    else .ended (.next (s.raise .outCapacity s.cur s.outCap)) := by
  have hcur := h.cur_le
  have hls := h.ls_le
  have hp : s.pending = s.cur.toNat - s.ls.toNat := rfl
  obtain ⟨p1, p2, p3, p4, p5⟩ := hpre s.flushed
  have f : s.flushed.inMem = s.inMem ∧ s.flushed.cfg = s.cfg ∧ s.flushed.outCap = s.outCap ∧
      s.flushed.cur = s.cur := by rw [State.flushed_eq]; exact ⟨rfl, rfl, rfl, rfl⟩
  obtain ⟨f1, f2, f3, f4⟩ := f
  rw [flush_eq s h]
  by_cases hfit : s.op.toNat + s.flushBytes.length ≤ s.outCap.toNat
  · have hop : s.flushed.op.toNat = s.op.toNat + s.flushBytes.length := toNat_pushAll_op _ _ hfit
    rw [if_pos hfit]
    simp only [Flow.andThen]
    have := putBytes_putInput vs (s.cur.toNat - c) c (pre s.flushed) (by rw [p3, f2]; omega)
    simp only [Flow.andThen] at this
    rw [this, p5, f1, putBytes_either _ _ (by rw [p1, hop, p2, f3]; exact hfit)
      (by rw [p2, f3, p3, f2]; exact h.cap_le), p1, hop, p2, f3, p4, f4, hraise, Nat.add_assoc,
      ← List.length_append]
    split_ifs <;> rfl
  · rw [if_neg hfit, if_neg (by rw [List.length_append]; omega)]
    rfl

theorem latchOpcode_raise (c : Cause) (ip op : Word) (i : Instr) (s : State) :
    (s.latchOpcode i).raise c ip op = s.raise c ip op :=
  State.raise_congr c ip op rfl rfl rfl rfl rfl rfl rfl rfl rfl rfl

theorem State.flushed_raise (c : Cause) (ip op : Word) (s : State) :
    s.flushed.raise c ip op = s.raise c ip op := by
  unfold State.flushed; rw [setLs_raise, State.raise_pushAll]

/-- The state after a match that fits (42_encoder R193). -/
def State.afterMatch (s : State) (o len : Nat) : State :=
  { s with
    op := s.op + word (s.matchBytes o len).length
    cur := s.cur + word len
    ls := s.cur + word len
    latch := latchOf s.latch (copyInstr (s.pending % 4) o len)
    outMem := (pushAll (s.matchBytes o len) s).outMem }

/-- The state after ENC_END that fits, before the unit stops (42_encoder R201). -/
def State.afterEnd (s : State) : State :=
  { s with
    op := s.op + word s.endBytes.length
    ls := s.ls + word (s.pending - s.pending % 4)
    outLen := s.op + word s.endBytes.length
    outMem := (pushAll s.endBytes s).outMem }

theorem andThen_congr (f : Flow) {g g' : State → Flow} (h : ∀ t, f = .go t → g t = g' t) :
    f.andThen g = f.andThen g' := by
  cases f with
  | go t => exact h t rfl
  | ended o => rfl

/-- All that the emission of a match can answer (42_encoder R193). -/
theorem emitMatch_eq (s : State) (h : s.EncReady) (o len : Nat) :
    (flush s).andThen (emitMatch o len) =
      if s.op.toNat + (s.matchBytes o len).length ≤ s.outCap.toNat then .go (s.afterMatch o len)
      else .ended (.next (s.raise .outCapacity s.cur s.outCap)) := by
  have key := flush_then s h (encode (copyInstr (s.pending % 4) o len)) (s.pending % 4) rfl
    (State.latchOpcode (copyInstr (s.pending % 4) o len))
    (fun t => .go { t with cur := t.cur + word len, ls := t.cur + word len })
    (fun t => ⟨rfl, rfl, rfl, rfl, rfl⟩)
    (by rw [latchOpcode_raise, State.flushed_raise])
  rw [← State.matchBytes] at key
  rw [andThen_congr (flush s) (g' := fun t =>
    ((putBytes (encode (copyInstr (s.pending % 4) o len))
      (State.latchOpcode (copyInstr (s.pending % 4) o len) t)).andThen
        (putInput (s.cur.toNat - s.pending % 4) (s.pending % 4))).andThen
          fun t => .go { t with cur := t.cur + word len, ls := t.cur + word len }), key]
  · split
    · congr 1
      rw [pushAll_eq]
      unfold State.afterMatch
      have h1 : (State.latchOpcode (copyInstr (s.pending % 4) o len) s.flushed).op =
          (pushAll s.flushBytes s).op := rfl
      have h2 : (State.latchOpcode (copyInstr (s.pending % 4) o len) s.flushed).outMem =
          (pushAll s.flushBytes s).outMem := rfl
      rw [pushAll_outMem_congr _ h1 h2, ← pushAll_append, ← State.matchBytes, h1, pushAll_op, add_word_add,
        ← List.length_append, ← State.matchBytes, State.latchOpcode, State.flushed_eq]
    · rfl
  · intro t ht
    rw [flush_eq s h] at ht
    split at ht
    · cases ht
      unfold emitMatch
      simp only [State.flushed_pending s h.ls_le, State.flushed_ls s h.ls_le]
    · cases ht

/-- All that ENC_END can answer (42_encoder R201). -/
theorem encEnd_eq (s : State) (h : s.EncReady) :
    encEnd s =
      if s.op.toNat + s.endBytes.length ≤ s.outCap.toNat then .go s.afterEnd.halt
      else .ended (.next (s.raise .outCapacity s.cur s.outCap)) := by
  have key := flush_then s h (encode (.streamEnd (s.pending % 4))) (s.pending % 4) rfl id
    (fun t => .go ({ t with outLen := t.op }).halt)
    (fun t => ⟨rfl, rfl, rfl, rfl, rfl⟩) (State.flushed_raise ..)
  rw [← State.endBytes] at key
  unfold encEnd
  rw [andThen_congr (flush s) (g' := fun t =>
    ((putBytes (encode (.streamEnd (s.pending % 4))) (id t)).andThen
        (putInput (s.cur.toNat - s.pending % 4) (s.pending % 4))).andThen
          fun t => .go ({ t with outLen := t.op }).halt), key]
  · split
    · congr 2
      rw [pushAll_eq]
      unfold State.afterEnd
      have h1 : (id s.flushed).op = (pushAll s.flushBytes s).op := rfl
      have h2 : (id s.flushed).outMem = (pushAll s.flushBytes s).outMem := rfl
      rw [pushAll_outMem_congr _ h1 h2, ← pushAll_append, ← State.endBytes, h1, pushAll_op, add_word_add,
        ← List.length_append, ← State.endBytes, id, State.flushed_eq]
    · rfl
  · intro t ht
    rw [flush_eq s h] at ht
    split at ht
    · cases ht
      unfold emitEnd
      simp only [State.flushed_pending s h.ls_le, State.flushed_ls s h.ls_le, id]
    · cases ht

/-! ### The step -/

/-- ENC_STEP where MF finds nothing: the byte joins the pending run (42_encoder R193, R194). -/
theorem encStep_literal (s : State) (h1 : s.cur.toNat < s.n.toNat) (h2 : s.n.toNat ≤ s.cfg.inSize)
    (hm : matchFinder s.inMem s.n.toNat s.cur.toNat = none) :
    encStep s = .next { s with cur := s.cur + 1#32 } := by
  unfold encStep encCursorStep State.inCovers
  rw [if_pos h1, if_neg (by simp; omega)]
  simp only [hm, Flow.outcome]

/-- ENC_STEP where MF finds a match (42_encoder R193). -/
theorem encStep_match (s : State) (h : s.EncReady) (h1 : s.cur.toNat < s.n.toNat)
    (h2 : s.n.toNat ≤ s.cfg.inSize) (o len : Nat)
    (hm : matchFinder s.inMem s.n.toNat s.cur.toNat = some (o, len)) :
    encStep s =
      if s.op.toNat + (s.matchBytes o len).length ≤ s.outCap.toNat then .next (s.afterMatch o len)
      else .next (s.raise .outCapacity s.cur s.outCap) := by
  unfold encStep encCursorStep State.inCovers
  rw [if_pos h1, if_neg (by simp; omega)]
  simp only [hm, emitMatch_eq s h]
  split <;> rfl

/-- ENC_END as the step after the last cursor position (42_encoder R201). -/
theorem encStep_end (s : State) (h : s.EncReady) (h1 : s.n.toNat ≤ s.cur.toNat) :
    encStep s =
      if s.op.toNat + s.endBytes.length ≤ s.outCap.toNat then .next s.afterEnd.halt
      else .next (s.raise .outCapacity s.cur s.outCap) := by
  unfold encStep
  rw [if_neg (by omega), encEnd_eq s h]
  split <;> rfl

end Sys2Proof.Machine
end

