-- ==== Sys2Proof/Laws/MatchFinder.lean ====
section
/-! SUPPORT. What the match finder answers, and that ENC can emit it (41_match_finder, 42_encoder R196, R206). -/

namespace Sys2Proof.Machine

/-! ### The run at an offset -/

theorem equalRun_le (m : Memory) (a b cap : Nat) : equalRun m a b cap ≤ cap := by
  induction cap generalizing a b with
  | zero => exact Nat.le_refl _
  | succ cap ih =>
    unfold equalRun
    split
    · have := ih (a + 1) (b + 1); omega
    · omega

theorem equalRun_eq (m : Memory) (a b cap k : Nat) (h : k < equalRun m a b cap) :
    m.read (a + k) = m.read (b + k) := by
  induction cap generalizing a b k with
  | zero => simp [equalRun] at h
  | succ cap ih =>
    unfold equalRun at h
    split at h
    · cases k with
      | zero => assumption
      | succ k =>
        have := ih (a + 1) (b + 1) k (by omega)
        rwa [Nat.add_assoc, Nat.add_comm 1 k, Nat.add_assoc, Nat.add_comm 1 k] at this
    · omega

theorem equalRun_maximal (m : Memory) (a b cap : Nat) (h : equalRun m a b cap < cap) :
    m.read (a + equalRun m a b cap) ≠ m.read (b + equalRun m a b cap) := by
  induction cap generalizing a b with
  | zero => simp [equalRun] at h
  | succ cap ih =>
    unfold equalRun at h ⊢
    split
    · rename_i heq
      rw [if_pos heq] at h
      have := ih (a + 1) (b + 1) (by omega)
      rwa [Nat.add_assoc, Nat.add_comm 1, Nat.add_assoc, Nat.add_comm 1] at this
    · simpa using ‹¬ _›

/-- Two memories that agree below `n` have the same runs. -/
theorem equalRun_congr (m m' : Memory) (a b cap : Nat) (n : Nat) (hab : a ≤ b) (hn : b + cap ≤ n)
    (h : ∀ x, x < n → m.read x = m'.read x) : equalRun m a b cap = equalRun m' a b cap := by
  induction cap generalizing a b with
  | zero => rfl
  | succ cap ih =>
    unfold equalRun
    rw [h a (by omega), h b (by omega), ih (a + 1) (b + 1) (by omega) (by omega)]

theorem runlen_le (m : Memory) (n cur o : Nat) : runlen m n cur o ≤ min 1028 (n - cur) :=
  equalRun_le _ _ _ _

/-! ### The selection -/

/-- What the best match among the offsets `1 .. k` is (41_match_finder R173, R174). -/
theorem bestMatch_spec (m : Memory) (n cur k : Nat) :
    (bestMatch m n cur k = none ∧
      ∀ o, 1 ≤ o → o ≤ k → encodable o (runlen m n cur o) = false) ∨
    (∃ o, bestMatch m n cur k = some (o, runlen m n cur o) ∧ 1 ≤ o ∧ o ≤ k ∧
      encodable o (runlen m n cur o) = true ∧
      ∀ o', 1 ≤ o' → o' ≤ k → encodable o' (runlen m n cur o') = true →
        runlen m n cur o' < runlen m n cur o ∨
          (runlen m n cur o' = runlen m n cur o ∧ o ≤ o')) := by
  induction k with
  | zero => exact .inl ⟨rfl, fun o h1 h2 => by omega⟩
  | succ k ih =>
    simp only [bestMatch]
    rcases ih with ⟨hn, hall⟩ | ⟨o, ho, h1, h2, h3, h4⟩
    · by_cases he : encodable (k + 1) (runlen m n cur (k + 1)) = true
      · refine .inr ⟨k + 1, by simp [hn, he, longerThan], by omega, by omega, he, ?_⟩
        intro o' g1 g2 g3
        by_cases hk : o' = k + 1
        · subst hk; exact .inr ⟨rfl, Nat.le_refl _⟩
        · rw [hall o' g1 (by omega)] at g3; cases g3
      · refine .inl ⟨by simp [hn, he], fun o' g1 g2 => ?_⟩
        by_cases hk : o' = k + 1
        · subst hk; simpa using he
        · exact hall o' g1 (by omega)
    · by_cases he : encodable (k + 1) (runlen m n cur (k + 1)) = true ∧
        runlen m n cur o < runlen m n cur (k + 1)
      · refine .inr ⟨k + 1, by simp [ho, he, longerThan], by omega, by omega, he.1, ?_⟩
        intro o' g1 g2 g3
        by_cases hk : o' = k + 1
        · subst hk; exact .inr ⟨rfl, Nat.le_refl _⟩
        · rcases h4 o' g1 (by omega) g3 with h | h <;> exact .inl (by omega)
      · refine .inr ⟨o, ?_, h1, by omega, h3, ?_⟩
        · rw [ho, if_neg]
          simpa [longerThan] using he
        · intro o' g1 g2 g3
          by_cases hk : o' = k + 1
          · subst hk
            have := not_and.1 he g3
            by_cases heq : runlen m n cur (k + 1) = runlen m n cur o
            · exact .inr ⟨heq, by omega⟩
            · exact .inl (by omega)
          · exact h4 o' g1 (by omega) g3

/-- What MF reports (41_match_finder R170). -/
theorem matchFinder_some (m : Memory) (n cur o len : Nat) (h : matchFinder m n cur = some (o, len)) :
    1 ≤ o ∧ o ≤ cur ∧ o ≤ 131072 ∧ encodable o len = true ∧ len ≤ 1028 ∧ cur + len ≤ n ∧
      ∀ k, k < len → m.read (cur - o + k) = m.read (cur + k) := by
  rcases bestMatch_spec m n cur (min cur maxLookback) with ⟨hn, _⟩ | ⟨o', ho, h1, h2, h3, _⟩
  · rw [matchFinder, hn] at h; cases h
  · rw [matchFinder, ho] at h
    cases h
    have hm : maxLookback = 131072 := rfl
    have hl := runlen_le m n cur o
    have h3' : 3 ≤ runlen m n cur o := by
      unfold encodable at h3; simp only [Bool.or_eq_true, Bool.and_eq_true, decide_eq_true_eq] at h3; omega
    exact ⟨h1, by omega, by omega, h3, by omega, by omega, fun k hk => equalRun_eq _ _ _ _ _ hk⟩

theorem encodable_iff (o len : Nat) : encodable o len = true ↔
    (3 ≤ len ∧ o ≤ 1024) ∨ (4 ≤ len ∧ o ≤ 16384) ∨ (5 ≤ len ∧ o ≤ 131072) := by
  unfold encodable
  simp only [Bool.or_eq_true, Bool.and_eq_true, decide_eq_true_eq, or_assoc]

theorem matchFinder_congr (m m' : Memory) (n cur : Nat) (h : ∀ x, x < n → m.read x = m'.read x)
    (hc : cur ≤ n) : matchFinder m n cur = matchFinder m' n cur := by
  have hr : ∀ o, runlen m n cur o = runlen m' n cur o := fun o =>
    equalRun_congr m m' _ _ _ n (by omega) (by unfold maxMatch; omega) h
  have hb : ∀ k, bestMatch m n cur k = bestMatch m' n cur k := by
    intro k
    induction k with
    | zero => rfl
    | succ k ih => simp only [bestMatch, ih, hr]
  exact hb _

/-! ### The class of a match -/

theorem copyClass_cases (o len : Nat) :
    (copyClass o len = .shortCopy ∧ o ≤ 1024 ∧ 3 ≤ len ∧ len ≤ 10) ∨
    (copyClass o len = .mediumCopy ∧ o ≤ 16384 ∧ 4 ≤ len ∧ len ≤ 67 ∧ ¬(o ≤ 1024 ∧ 3 ≤ len ∧ len ≤ 10)) ∨
    (copyClass o len = .longCopy ∧ ¬(o ≤ 1024 ∧ 3 ≤ len ∧ len ≤ 10) ∧
      ¬(o ≤ 16384 ∧ 4 ≤ len ∧ len ≤ 67)) := by
  unfold copyClass
  by_cases h1 : o ≤ 1024 ∧ 3 ≤ len ∧ len ≤ 10
  · exact .inl ⟨if_pos h1, h1⟩
  by_cases h2 : o ≤ 16384 ∧ 4 ≤ len ∧ len ≤ 67
  · exact .inr (.inl ⟨by rw [if_neg h1, if_pos h2], h2.1, h2.2.1, h2.2.2, h1⟩)
  · exact .inr (.inr ⟨by rw [if_neg h1, if_neg h2], h1, h2⟩)

/-- The copy opcode of a match is one of the three, with the match's operands in its ranges (42_encoder R196,
R206). -/
theorem copyInstr_cases (lit o len : Nat) (hl : lit ≤ 3) (ho : 1 ≤ o) (he : encodable o len = true)
    (hmax : len ≤ 1028) :
    (copyInstr lit o len = .shortCopy lit len o ∨ copyInstr lit o len = .mediumCopy lit len o ∨
      copyInstr lit o len = .longCopy lit len o) ∧ (copyInstr lit o len).wellFormed = true := by
  rw [encodable_iff] at he
  rcases copyClass_cases o len with ⟨h, h'⟩ | ⟨h, h'⟩ | ⟨h, h'⟩ <;>
    simp only [copyInstr, h, Instr.wellFormed, inRange, Bool.and_eq_true, decide_eq_true_eq, true_or, or_true,
      true_and] <;> omega

end Sys2Proof.Machine
end

