-- ==== Sys2Proof/Laws/Opcodes.lean ====
section
/-! SUPPORT. All that the execution and the fetch of an opcode can answer, each said once. -/

namespace Sys2Proof.Machine

theorem afterLiterals_raise (size lit : Nat) (c : Cause) (ip op : Word) (s : State) :
    (afterLiterals size lit s).raise c ip op = s.raise c ip op := by
  rw [afterLiterals_eq]; exact State.raise_congr c ip op rfl rfl rfl rfl rfl rfl rfl rfl rfl rfl

@[simp] theorem afterLiterals_op (size lit : Nat) (s : State) :
    (afterLiterals size lit s).op = s.op + word lit := by rw [afterLiterals_eq]

theorem toNat_afterLiterals_op (size lit : Nat) (s : State) (h : s.op.toNat + lit ≤ s.dsize.toNat) :
    (afterLiterals size lit s).op.toNat = s.op.toNat + lit := by
  rw [afterLiterals_op]; exact toNat_add_word _ _ (by have := s.dsize.isLt; omega)

/-- The literal phase's checks pass (40_decoder_opcodes R133), at addresses that exist. -/
structure LiteralsFit (size lit : Nat) (s : State) : Prop where
  input : s.ip.toNat + size + lit ≤ s.n.toNat
  output : s.op.toNat + lit ≤ s.dsize.toNat
  inCovers : s.ip.toNat + size + lit ≤ s.cfg.inSize
  outCovers : s.op.toNat + lit ≤ s.cfg.outSize

/-- Why an opcode did not get past its literals. -/
inductive LiteralsStop (size lit : Nat) (s : State) : Host.Outcome State Fault Refusal → Prop where
  | exhausted (h : s.n.toNat < s.ip.toNat + size + lit) :
    LiteralsStop size lit s (.next (s.raise .inputExhausted s.ip s.op))
  | overrun (h : s.ip.toNat + size + lit ≤ s.n.toNat) (h2 : s.dsize.toNat < s.op.toNat + lit) :
    LiteralsStop size lit s (.next (s.raise .sizeMismatch s.ip s.op))
  | inAbsent (h : s.ip.toNat + size + lit ≤ s.n.toNat) (h1 : s.op.toNat + lit ≤ s.dsize.toNat)
      (h2 : s.cfg.inSize < s.ip.toNat + size + lit) : LiteralsStop size lit s (.fault .inAddressAbsent)
  | outAbsent (h : s.ip.toNat + size + lit ≤ s.n.toNat) (h1 : s.op.toNat + lit ≤ s.dsize.toNat)
      (h2 : s.cfg.outSize < s.op.toNat + lit) : LiteralsStop size lit s (.fault .outAddressAbsent)

theorem literalPhase_split (size lit : Nat) (s : State) :
    (∃ o, LiteralsStop size lit s o ∧ literalPhase size lit s = .ended o) ∨
      (LiteralsFit size lit s ∧ literalPhase size lit s = .go (afterLiterals size lit s)) := by
  rcases literalPhase_cases size lit s with h | h | h | h | h
  · exact .inl ⟨_, .exhausted h.1, h.2⟩
  · exact .inl ⟨_, .overrun h.1 h.2.1, h.2.2⟩
  · exact .inl ⟨_, .inAbsent h.1 h.2.1 h.2.2.1, h.2.2.2⟩
  · exact .inl ⟨_, .outAbsent h.1 h.2.1 h.2.2.2.1, h.2.2.2.2⟩
  · exact .inr ⟨⟨h.1, h.2.1, h.2.2.1, h.2.2.2.1⟩, h.2.2.2.2⟩

/-- All that a copy opcode can answer (40_decoder_opcodes R136 to R138), the errors recorded against the state before
it. -/
theorem copyOpcode_cases (size lit len off : Nat) (s : State) :
    (∃ o, LiteralsStop size lit s o ∧ copyOpcode size lit len off s = o) ∨
    (LiteralsFit size lit s ∧ s.op.toNat + lit < off ∧
      copyOpcode size lit len off s = .next (s.raise .badOffset s.ip (s.op + word lit))) ∨
    (LiteralsFit size lit s ∧ off ≤ s.op.toNat + lit ∧ s.dsize.toNat < s.op.toNat + lit + len ∧
      copyOpcode size lit len off s = .next (s.raise .sizeMismatch s.ip (s.op + word lit))) ∨
    (LiteralsFit size lit s ∧ s.op.toNat + lit + len ≤ s.dsize.toNat ∧
      s.cfg.outSize < s.op.toNat + lit + len ∧
      copyOpcode size lit len off s = .fault .outAddressAbsent) ∨
    (LiteralsFit size lit s ∧ off ≤ s.op.toNat + lit ∧ s.op.toNat + lit + len ≤ s.dsize.toNat ∧
      s.op.toNat + lit + len ≤ s.cfg.outSize ∧
      copyOpcode size lit len off s = .next (copyMatch off len (afterLiterals size lit s))) := by
  rcases literalPhase_split size lit s with ⟨o, ho, h⟩ | ⟨hf, h⟩
  · exact .inl ⟨o, ho, by rw [copyOpcode, h]; rfl⟩
  have hop := toNat_afterLiterals_op size lit s hf.output
  rw [afterLiterals_op] at hop
  have hd : (afterLiterals size lit s).dsize = s.dsize := by rw [afterLiterals_eq]
  have hcfg : (afterLiterals size lit s).cfg = s.cfg := by rw [afterLiterals_eq]
  have hgo : copyOpcode size lit len off s = (matchPhase s.ip len off (afterLiterals size lit s)).outcome := by
    rw [copyOpcode, h]; rfl
  rw [hgo]
  rcases matchPhase_cases s.ip len off (afterLiterals size lit s) with m | m | m | m <;>
    simp only [afterLiterals_op, hop, hd, hcfg, afterLiterals_raise] at m
  · exact .inr (.inl ⟨hf, m.1, by rw [m.2]; rfl⟩)
  · exact .inr (.inr (.inl ⟨hf, m.1, m.2.1, by rw [m.2.2]; rfl⟩))
  · exact .inr (.inr (.inr (.inl ⟨hf, m.2.1, m.2.2.1, by rw [m.2.2.2]; rfl⟩)))
  · exact .inr (.inr (.inr (.inr ⟨hf, m.1, m.2.1, m.2.2.1, by rw [m.2.2.2]; rfl⟩)))

/-- All that a LiteralRun can answer (40_decoder_opcodes R139). -/
theorem execLiteralRun_cases (lit : Nat) (s : State) :
    (∃ o, LiteralsStop 1 lit s o ∧ execLiteralRun lit s = o) ∨
    (LiteralsFit 1 lit s ∧ execLiteralRun lit s = .next (afterLiterals 1 lit s)) := by
  rcases literalPhase_split 1 lit s with ⟨o, ho, h⟩ | ⟨hf, h⟩
  · exact .inl ⟨o, ho, by rw [execLiteralRun, controlSize, h]; rfl⟩
  · exact .inr ⟨hf, by rw [execLiteralRun, controlSize, h]; rfl⟩

/-- The state in which a StreamEnd whose checks pass halts. -/
def afterEndLiterals (lit : Nat) (s : State) : State :=
  { afterLiterals 1 lit s with outLen := s.op + word lit }

/-- All that a StreamEnd can answer (40_decoder_opcodes R140). -/
theorem execStreamEnd_cases (lit : Nat) (s : State) :
    (∃ o, LiteralsStop 1 lit s o ∧ execStreamEnd lit s = o) ∨
    (LiteralsFit 1 lit s ∧ s.op + word lit ≠ s.dsize ∧
      execStreamEnd lit s = .next (s.raise .sizeMismatch s.ip (s.op + word lit))) ∨
    (LiteralsFit 1 lit s ∧ s.op + word lit = s.dsize ∧ s.expectEn = true ∧ s.op + word lit ≠ s.expect ∧
      execStreamEnd lit s = .next (s.raise .expectMismatch s.ip (s.op + word lit))) ∨
    (LiteralsFit 1 lit s ∧ s.op + word lit = s.dsize ∧ (s.expectEn = true → s.op + word lit = s.expect) ∧
      execStreamEnd lit s = .next (afterEndLiterals lit s).halt) := by
  rcases literalPhase_split 1 lit s with ⟨o, ho, h⟩ | ⟨hf, h⟩
  · exact .inl ⟨o, ho, by rw [execStreamEnd, controlSize, h]; rfl⟩
  have hd : (afterLiterals 1 lit s).dsize = s.dsize := by rw [afterLiterals_eq]
  have he : (afterLiterals 1 lit s).expect = s.expect := by rw [afterLiterals_eq]
  have hc : (afterLiterals 1 lit s).expectEn = s.expectEn := by rw [afterLiterals_eq]; rfl
  have hgo : execStreamEnd lit s = (endPhase s.ip (afterLiterals 1 lit s)).outcome := by
    rw [execStreamEnd, controlSize, h]; rfl
  rw [hgo]
  rcases endPhase_cases s.ip (afterLiterals 1 lit s) with m | m | ⟨m1, m2, m3⟩
  · simp only [hd, afterLiterals_op, afterLiterals_raise] at m
    exact .inr (.inl ⟨hf, m.1, by rw [m.2]; rfl⟩)
  · simp only [hd, he, hc, afterLiterals_op, afterLiterals_raise] at m
    exact .inr (.inr (.inl ⟨hf, m.1, m.2.1, m.2.2.1, by rw [m.2.2.2]; rfl⟩))
  · rw [afterLiterals_op, hd] at m1
    rw [afterLiterals_op, hc, he] at m2
    refine .inr (.inr (.inr ⟨hf, m1, m2, ?_⟩))
    rw [m3, afterEndLiterals, ← afterLiterals_op 1 lit s]; rfl

/-- The state after an opcode other than StreamEnd whose checks pass. -/
def afterOpcode (i : Instr) (s : State) : State :=
  copyMatch (matchOffset i) (matchLength i) (afterLiterals (controlBytes i) (literalCount i) s)

theorem afterOpcode_eq (i : Instr) (s : State) :
    afterOpcode i s = { s with
      ip := s.ip + word (controlBytes i + literalCount i)
      op := s.op + word (literalCount i + matchLength i)
      outMem := (afterOpcode i s).outMem } := by
  unfold afterOpcode
  have ht := afterLiterals_eq (controlBytes i) (literalCount i) s
  generalize afterLiterals (controlBytes i) (literalCount i) s = t at ht ⊢
  rw [copyMatch_frame (matchOffset i) (matchLength i) t]
  generalize (copyMatch (matchOffset i) (matchLength i) t).outMem = m
  rw [ht, ← add_word_add s.op (literalCount i) (matchLength i)]

/-- All that `exec` of an opcode can answer: it stops at its literals, raises, faults, completes, or halts. -/
inductive OpcodeOutcome (i : Instr) (s : State) : Host.Outcome State Fault Refusal → Prop where
  | stopped {o} (h : LiteralsStop (controlBytes i) (literalCount i) s o) : OpcodeOutcome i s o
  | badOffset (hf : LiteralsFit (controlBytes i) (literalCount i) s) (hi : i.isCopy = true)
      (h : s.op.toNat + literalCount i < matchOffset i) :
    OpcodeOutcome i s (.next (s.raise .badOffset s.ip (s.op + word (literalCount i))))
  | overrun (hf : LiteralsFit (controlBytes i) (literalCount i) s) (hi : i.isCopy = true)
      (h : matchOffset i ≤ s.op.toNat + literalCount i)
      (h2 : s.dsize.toNat < s.op.toNat + literalCount i + matchLength i) :
    OpcodeOutcome i s (.next (s.raise .sizeMismatch s.ip (s.op + word (literalCount i))))
  | outAbsent (hf : LiteralsFit (controlBytes i) (literalCount i) s) (hi : i.isCopy = true)
      (h : s.op.toNat + literalCount i + matchLength i ≤ s.dsize.toNat)
      (h2 : s.cfg.outSize < s.op.toNat + literalCount i + matchLength i) :
    OpcodeOutcome i s (.fault .outAddressAbsent)
  | completed (hf : LiteralsFit (controlBytes i) (literalCount i) s) (hi : ∀ lit, i ≠ .streamEnd lit)
      (h : matchOffset i ≤ s.op.toNat + literalCount i)
      (h2 : s.op.toNat + literalCount i + matchLength i ≤ s.dsize.toNat)
      (h3 : s.op.toNat + literalCount i + matchLength i ≤ s.cfg.outSize) :
    OpcodeOutcome i s (.next (afterOpcode i s))
  | sizeMismatch (lit : Nat) (hi : i = .streamEnd lit) (hf : LiteralsFit 1 lit s)
      (h : s.op + word lit ≠ s.dsize) :
    OpcodeOutcome i s (.next (s.raise .sizeMismatch s.ip (s.op + word lit)))
  | expectMismatch (lit : Nat) (hi : i = .streamEnd lit) (hf : LiteralsFit 1 lit s)
      (h : s.op + word lit = s.dsize) (he : s.expectEn = true) (h2 : s.op + word lit ≠ s.expect) :
    OpcodeOutcome i s (.next (s.raise .expectMismatch s.ip (s.op + word lit)))
  | halted (lit : Nat) (hi : i = .streamEnd lit) (hf : LiteralsFit 1 lit s)
      (h : s.op + word lit = s.dsize) (he : s.expectEn = true → s.op + word lit = s.expect) :
    OpcodeOutcome i s (.next (afterEndLiterals lit s).halt)

theorem exec_copy_outcome (i : Instr) (s : State) (lit len off : Nat) (hi : i.isCopy = true)
    (hl : literalCount i = lit) (hlen : matchLength i = len) (hoff : matchOffset i = off)
    (hs : ∀ l, i ≠ .streamEnd l) : OpcodeOutcome i s (copyOpcode (controlBytes i) lit len off s) := by
  subst hl hlen hoff
  rcases copyOpcode_cases (controlBytes i) (literalCount i) (matchLength i) (matchOffset i) s with
    ⟨o, ho, h⟩ | ⟨hf, h1, h⟩ | ⟨hf, h1, h2, h⟩ | ⟨hf, h1, h2, h⟩ | ⟨hf, h1, h2, h3, h⟩ <;> rw [h]
  · exact .stopped ho
  · exact .badOffset hf hi h1
  · exact .overrun hf hi h1 h2
  · exact .outAbsent hf hi h1 h2
  · exact .completed hf hs h1 h2 h3

/-- The inversion of `exec` on opcodes. -/
theorem exec_opcode_outcome (i : Instr) (s : State) (hi : i.isOpcode = true) :
    OpcodeOutcome i s (exec i s) := by
  cases i with
  | shortCopy lit len off => exact exec_copy_outcome _ s lit len off rfl rfl rfl rfl (by simp)
  | mediumCopy lit len off => exact exec_copy_outcome _ s lit len off rfl rfl rfl rfl (by simp)
  | longCopy lit len off => exact exec_copy_outcome _ s lit len off rfl rfl rfl rfl (by simp)
  | literalRun lit =>
    rcases execLiteralRun_cases lit s with ⟨o, ho, h⟩ | ⟨hf, h⟩ <;> rw [exec, h]
    · exact .stopped ho
    · exact .completed hf (by simp) (Nat.zero_le _) hf.output hf.outCovers
  | streamEnd lit =>
    rcases execStreamEnd_cases lit s with ⟨o, ho, h⟩ | ⟨hf, h1, h⟩ | ⟨hf, h1, h2, h3, h⟩ | ⟨hf, h1, h2, h⟩ <;>
      rw [exec, h]
    · exact .stopped ho
    · exact .sizeMismatch lit rfl hf h1
    · exact .expectMismatch lit rfl hf h1 h2 h3
    · exact .halted lit rfl hf h1 h2
  | compress => cases hi
  | decompress => cases hi

/-! ### The fetch -/

theorem encode_length_of_decode {bs rest : List Byte} {i : Instr} (h : decode bs = .ok (i, rest)) :
    i.isOpcode = true ∧ i.wellFormed = true ∧ (encode i).length = controlBytes i ∧
      ∃ b0 tl, bs = b0 :: tl ∧ controlBytes i = controlSize (classify b0) := by
  rcases decode_cases h with ⟨b0, b1, rfl, hc, rfl⟩ | ⟨b0, b1, b2, rfl, hc, rfl⟩ |
    ⟨b0, b1, b2, b3, rfl, hc, rfl⟩ | ⟨b0, rfl, hc, rfl⟩ | ⟨b0, rfl, hc, rfl⟩
  · exact ⟨rfl, parseShort_wellFormed _ _, rfl, b0, _, rfl, by rw [hc]; rfl⟩
  · exact ⟨rfl, parseMedium_wellFormed _ _ _, rfl, b0, _, rfl, by rw [hc]; rfl⟩
  · exact ⟨rfl, parseLong_wellFormed _ _ _ _, rfl, b0, _, rfl, by rw [hc]; rfl⟩
  · exact ⟨rfl, parseRun_wellFormed _ hc, rfl, b0, _, rfl, by rw [hc]; rfl⟩
  · exact ⟨rfl, parseEnd_wellFormed _, rfl, b0, _, rfl, by rw [hc]; rfl⟩

/-- All that a fetch can answer (40_decoder_opcodes R132). -/
theorem fetch_cases (s : State) :
    (s.n.toNat ≤ s.ip.toNat ∧ fetch s = .exhausted) ∨
    (s.ip.toNat < s.n.toNat ∧
      s.n.toNat < s.ip.toNat + controlSize (classify (s.inMem.read s.ip.toNat)) ∧
      (fetch s = .exhausted ∨ (s.cfg.inSize < s.ip.toNat + 1 ∧ fetch s = .absent))) ∨
    (s.ip.toNat + controlSize (classify (s.inMem.read s.ip.toNat)) ≤ s.n.toNat ∧
      s.cfg.inSize < s.ip.toNat + controlSize (classify (s.inMem.read s.ip.toNat)) ∧ fetch s = .absent) ∨
    (s.ip.toNat + controlSize (classify (s.inMem.read s.ip.toNat)) ≤ s.n.toNat ∧
      s.ip.toNat + controlSize (classify (s.inMem.read s.ip.toNat)) ≤ s.cfg.inSize ∧
      ∃ i, decode (s.inMem.readBytes s.ip.toNat
          (controlSize (classify (s.inMem.read s.ip.toNat)))) = .ok (i, []) ∧
        controlBytes i = controlSize (classify (s.inMem.read s.ip.toNat)) ∧
        i.isOpcode = true ∧ i.wellFormed = true ∧ fetch s = .got i) := by
  unfold fetch State.inCovers
  have hpos := controlSize_pos (classify (s.inMem.read s.ip.toNat))
  by_cases h1 : s.n.toNat ≤ s.ip.toNat
  · exact .inl ⟨h1, if_pos h1⟩
  rw [if_neg h1]
  by_cases h2 : s.ip.toNat + 1 ≤ s.cfg.inSize
  · by_cases h3 : s.n.toNat < s.ip.toNat + controlSize (classify (s.inMem.read s.ip.toNat))
    · exact .inr (.inl ⟨by omega, h3, .inl (by simp [h2, h3])⟩)
    by_cases h4 : s.ip.toNat + controlSize (classify (s.inMem.read s.ip.toNat)) ≤ s.cfg.inSize
    · refine .inr (.inr (.inr ⟨by omega, h4, ?_⟩))
      obtain ⟨k, hk⟩ : ∃ k, controlSize (classify (s.inMem.read s.ip.toNat)) = k + 1 :=
        ⟨_, (Nat.sub_add_cancel hpos).symm⟩
      obtain ⟨i, hd⟩ := decode_of_length (s.inMem.read s.ip.toNat) (s.inMem.readBytes (s.ip.toNat + 1) k)
        (by simp [hk])
      have hd' : decode (s.inMem.readBytes s.ip.toNat
          (controlSize (classify (s.inMem.read s.ip.toNat)))) = .ok (i, []) := by rw [hk]; exact hd
      obtain ⟨ho, hw, hl, b0, tl, hb, hcb⟩ := encode_length_of_decode hd
      refine ⟨i, hd', ?_, ho, hw, ?_⟩
      · cases hb; exact hcb
      · simp [h2, h3, h4, hd']
    · exact .inr (.inr (.inl ⟨by omega, by omega, by simp [h2, h3, h4]⟩))
  · by_cases h3 : s.n.toNat < s.ip.toNat + controlSize (classify (s.inMem.read s.ip.toNat))
    · exact .inr (.inl ⟨by omega, h3, .inr ⟨by omega, by simp [h2]⟩⟩)
    · exact .inr (.inr (.inl ⟨by omega, by omega, by simp [h2]⟩))

/-- What the fetch reads off the bytes at `ip`. -/
theorem fetch_of_decode (s : State) (i : Instr) (size : Nat)
    (hd : decode (s.inMem.readBytes s.ip.toNat size) = .ok (i, []))
    (hn : s.ip.toNat + size ≤ s.n.toNat) (hc : s.ip.toNat + size ≤ s.cfg.inSize) : fetch s = .got i := by
  obtain ⟨_, _, _, b0, tl, hb, hcb⟩ := encode_length_of_decode hd
  have hlen : size = controlBytes i := by
    rcases decode_cases hd with ⟨b0, b1, h', hc, rfl⟩ | ⟨b0, b1, b2, h', hc, rfl⟩ |
      ⟨b0, b1, b2, b3, h', hc, rfl⟩ | ⟨b0, h', hc, rfl⟩ | ⟨b0, h', hc, rfl⟩ <;>
      exact (Memory.length_readBytes ..).symm.trans (congrArg List.length h')
  cases size with
  | zero => simp [Memory.readBytes] at hb
  | succ k =>
    rw [Memory.readBytes, List.cons.injEq] at hb
    have hsz : controlSize (classify (s.inMem.read s.ip.toNat)) = k + 1 := by rw [hb.1, ← hcb, ← hlen]
    rcases fetch_cases s with h | h | h | ⟨_, _, j, hj, _, _, _, h⟩
    · omega
    · omega
    · omega
    · rw [h]
      rw [hsz, hd] at hj
      cases hj; rfl

end Sys2Proof.Machine
end

