-- ==== Sys2Proof/Laws/Step.lean ====
section
/-! SUPPORT. What an error, the normal end, the start of a command and a step of the engine leave, each said once. -/

namespace Sys2Proof.Machine

/-! ### The status bits -/

theorem busy_of_status {s : State} (h : s.status = 1#32) : s.busy = true := by
  simp [State.busy, h]

theorem status_of_busy {s : State} (h : s.statusLegal) (hb : s.busy = true) : s.status = 1#32 := by
  rcases h with h | h | h | h
  · simp [State.busy, h] at hb
  · exact h
  · simp [State.busy, h] at hb
  · simp [State.busy, h] at hb

theorem statusWord_busy : statusWord true false false = 1#32 := by decide
theorem statusWord_done : statusWord false true false = 2#32 := by decide
theorem statusWord_error : statusWord false true true = 6#32 := by decide

/-! ### The end of a command -/

/-- What an error leaves (60_exceptions R263, R264). -/
theorem State.raise_ended (c : Cause) (ip op : Word) (s : State) (k : Nat) (hk : errInfoWord c = word k) :
    s.EndedByError (s.raise c ip op) k ip op where
  status := statusWord_error
  errInfo := hk
  errIp := rfl
  errOp := rfl
  outLen := rfl
  inMem := rfl
  inLen := rfl
  outCap := rfl
  expect := rfl
  ctrl := rfl
  cfg := rfl
  host := rfl
  readData := rfl

/-- What the normal end leaves (43_host_commands R236). -/
theorem State.halt_ended (s : State) : s.EndedNormally s.halt where
  status := statusWord_done
  errInfo := rfl
  errIp := rfl
  errOp := rfl
  inMem := rfl
  inLen := rfl
  outCap := rfl
  expect := rfl
  ctrl := rfl
  cfg := rfl
  host := rfl
  readData := rfl

theorem State.raise_read (c : Cause) (ip op : Word) (s : State) (a : Nat) :
    (s.raise c ip op).outMem.read a = Config.freeBits 8 s.freeTag a := by
  rw [State.raise, Memory.forgetFrom_zero]; exact Memory.read_unspecified _ _

theorem State.halt_read (s : State) (a : Nat) :
    s.halt.outMem.read a = if a < s.outLen.toNat then s.outMem.read a else Config.freeBits 8 s.freeTag a :=
  Memory.read_forgetFrom _ _ _ _

/-! ### The bytes an opcode leaves in OUT -/

/-- OUT after the literals and the match of an opcode, below the old `op` and above the new one. -/
theorem afterOpcode_read_outside (i : Instr) (s : State) (a : Nat)
    (h : s.op.toNat + literalCount i + matchLength i < 2 ^ 32)
    (ha : a < s.op.toNat ∨ s.op.toNat + literalCount i + matchLength i ≤ a) :
    (afterOpcode i s).outMem.read a = s.outMem.read a := by
  have hop : (afterLiterals (controlBytes i) (literalCount i) s).op.toNat = s.op.toNat + literalCount i := by
    rw [afterLiterals_op]; exact toNat_add_word _ _ (by omega)
  rw [afterOpcode, copyMatch_read_outside _ _ _ _ (by omega) (by omega), afterLiterals_read _ _ _ _ (by omega),
    if_neg (by omega)]

/-- The literals of an opcode in OUT. -/
theorem afterOpcode_read_literal (i : Instr) (s : State) (k : Nat)
    (h : s.op.toNat + literalCount i + matchLength i < 2 ^ 32) (hk : k < literalCount i) :
    (afterOpcode i s).outMem.read (s.op.toNat + k) =
      s.inMem.read (s.ip.toNat + controlBytes i + k) := by
  have hop : (afterLiterals (controlBytes i) (literalCount i) s).op.toNat = s.op.toNat + literalCount i := by
    rw [afterLiterals_op]; exact toNat_add_word _ _ (by omega)
  rw [afterOpcode, copyMatch_read_outside _ _ _ _ (by omega) (by omega), afterLiterals_read _ _ _ _ (by omega),
    if_pos (by omega), Nat.add_sub_cancel_left]

/-- The match of an opcode in OUT: the periodic extension of the last `off` bytes (40_decoder_opcodes R145). -/
theorem afterOpcode_read_match (i : Instr) (s : State) (k : Nat)
    (h : s.op.toNat + literalCount i + matchLength i < 2 ^ 32) (hk : k < matchLength i)
    (h1 : 1 ≤ matchOffset i) (h2 : matchOffset i ≤ s.op.toNat + literalCount i) :
    (afterOpcode i s).outMem.read (s.op.toNat + literalCount i + k) =
      (afterOpcode i s).outMem.read
        (s.op.toNat + literalCount i - matchOffset i + k % matchOffset i) := by
  have hop : (afterLiterals (controlBytes i) (literalCount i) s).op.toNat = s.op.toNat + literalCount i := by
    rw [afterLiterals_op]; exact toNat_add_word _ _ (by omega)
  have hm : k % matchOffset i < matchOffset i := Nat.mod_lt _ (by omega)
  rw [afterOpcode, ← hop, copyMatch_read _ _ _ _ (by omega) h1 (by omega) hk,
    copyMatch_read_outside _ _ _ _ (by omega) (by omega)]

/-! ### The bytes of a flush -/

/-- The number of bytes of a flush is that of `flushLength` (42_encoder R195). -/
theorem length_runBytes (m : Memory) (ls p fuel : Nat) (h : p ≤ fuel) :
    (runBytes m ls p fuel).length = flushLength p := by
  induction fuel generalizing ls p with
  | zero =>
    have : p = 0 := by omega
    subst this; rfl
  | succ fuel ih =>
    unfold runBytes
    by_cases hp : 4 ≤ p
    · rw [if_pos hp]
      have hc : flushChunk p ≤ p := by unfold flushChunk; omega
      have hpos : 4 ≤ flushChunk p := by unfold flushChunk; omega
      simp only [List.length_append, encode, List.length_singleton, Memory.length_readBytes]
      rw [ih _ _ (by omega)]
      unfold flushLength flushChunk
      omega
    · rw [if_neg hp]
      unfold flushLength
      simp only [List.length_nil]
      omega

theorem length_flushBytes (s : State) : s.flushBytes.length = flushLength s.pending :=
  length_runBytes _ _ _ _ (Nat.le_refl _)

/-- Byte 113 `j` of a flush is the control byte of LiteralRun number `j` (42_encoder R195, R200). -/
theorem runBytes_control (m : Memory) (ls p fuel j : Nat) (h : p ≤ fuel) (hj : 112 * j < p - p % 4) :
    (runBytes m ls p fuel)[113 * j]? =
      some (BitVec.ofNat 8 (0xE0 + (min 112 (p - p % 4 - 112 * j) / 4 - 1))) := by
  induction fuel generalizing ls p j with
  | zero => omega
  | succ fuel ih =>
    unfold runBytes
    have hp : 4 ≤ p := by omega
    rw [if_pos hp]
    have hlen : (encode (.literalRun (flushChunk p)) ++ m.readBytes ls (flushChunk p)).length =
        flushChunk p + 1 := by
      simp only [List.length_append, encode, List.length_singleton, Memory.length_readBytes]; omega
    cases j with
    | zero =>
      simp only [encode, Nat.mul_zero, List.cons_append, List.getElem?_cons_zero, Option.some.injEq]
      unfold flushChunk
      congr 3
      omega
    | succ j =>
      have hc : flushChunk p = 112 := by unfold flushChunk; omega
      rw [List.getElem?_append_right (by rw [hlen]; omega), hlen, hc,
        show 113 * (j + 1) - (112 + 1) = 113 * j by omega, ih _ _ _ (by omega) (by omega)]
      congr 5
      omega

/-- Byte `k + k / 112 + 1` of a flush is literal number `k` (42_encoder R195, R200). -/
theorem runBytes_literal (m : Memory) (ls p fuel k : Nat) (h : p ≤ fuel) (hk : k < p - p % 4) :
    (runBytes m ls p fuel)[k + k / 112 + 1]? = some (m.read (ls + k)) := by
  induction fuel generalizing ls p k with
  | zero => omega
  | succ fuel ih =>
    unfold runBytes
    have hp : 4 ≤ p := by omega
    rw [if_pos hp]
    have hlen : (encode (.literalRun (flushChunk p)) ++ m.readBytes ls (flushChunk p)).length =
        flushChunk p + 1 := by
      simp only [List.length_append, encode, List.length_singleton, Memory.length_readBytes]; omega
    by_cases hkc : k < flushChunk p
    · have hd : k / 112 = 0 := by unfold flushChunk at hkc; omega
      rw [List.getElem?_append_left (by rw [hlen]; omega), hd]
      simp only [encode, List.cons_append, List.nil_append, Nat.add_zero, List.getElem?_cons_succ]
      rw [List.getElem?_eq_getElem (by simpa using hkc), Memory.getElem_readBytes]
    · have hc : flushChunk p = 112 := by unfold flushChunk at hkc ⊢; omega
      rw [List.getElem?_append_right (by rw [hlen]; omega), hlen, hc,
        show k + k / 112 + 1 - (112 + 1) = (k - 112) + (k - 112) / 112 + 1 by omega,
        ih _ _ _ (by omega) (by omega), show ls + 112 + (k - 112) = ls + k by omega]

/-! ### A step of the engine -/

/-- A step with no move of the host is a step of the engine. -/
theorem step_of_no_host {s : State} (h : s.host = []) : step s = engineStep s := by
  rw [step, machineStep, h]

theorem step_dec {s : State} (h : s.host = []) (hb : s.busy = true) (hu : s.unit = .dec) :
    step s = decStep s := by rw [step_of_no_host h, engineStep, if_pos hb, hu]

theorem step_enc {s : State} (h : s.host = []) (hb : s.busy = true) (hu : s.unit = .enc) :
    step s = encStep s := by rw [step_of_no_host h, engineStep, if_pos hb, hu]

theorem step_idle {s : State} (h : s.host = []) (hb : s.busy = false) : step s = .next s := by
  rw [step_of_no_host h, engineStep, hb]; rfl

/-- A step with a move of the host pending. -/
theorem step_of_host {s : State} {m : HostMove} {rest : List HostMove} (h : s.host = m :: rest) :
    step s = hostMove m { s with host := rest } := by rw [step, machineStep, h]

theorem State.raise_latchOpcode {i : Instr} {s : State} {c : Cause} {ip op : Word} :
    (s.latchOpcode i).raise c ip op = s.raise c ip op :=
  State.raise_congr c ip op rfl rfl rfl rfl rfl rfl rfl rfl rfl rfl

end Sys2Proof.Machine
end

