-- ==== Sys2Proof/Laws/Start.lean ====
section
/-! SUPPORT. What the acceptance of a command and its start rule can answer, each said once. -/

namespace Sys2Proof.Machine

theorem operandsFit_iff (s : State) :
    s.operandsFit = true ↔ s.inLen.toNat ≤ s.cfg.inSize ∧ s.outCap.toNat ≤ s.cfg.outSize := by
  simp [State.operandsFit, State.inCovers, State.outCovers]

theorem length_headerBytes (c : Config) (large : Bool) (n : Nat) :
    (headerBytes c large n).length = headerLength large := by
  simp only [headerBytes, List.length_cons, length_beBytes]
  cases large <;> rfl

/-- The error of a command's start, recorded against the state before the command. -/
theorem State.raise_accept_ended (u : EngineUnit) (c : Cause) (ip op : Word) (s : State) (k : Nat)
    (hk : errInfoWord c = word k) : s.EndedByError ((s.accept u).raise c ip op) k ip op where
  status := statusWord_error
  errInfo := hk
  errIp := rfl
  errOp := rfl
  outLen := rfl
  inMem := rfl
  inLen := rfl
  outCap := rfl
  expect := rfl
  ctrl := rfl
  cfg := rfl
  host := rfl
  readData := rfl

/-! ### DECOMPRESS -/

/-- DEC at the first opcode (40_decoder_opcodes R131). -/
def State.decStarted (large : Bool) (dsize : Nat) (s : State) : State :=
  { s.accept .dec with
    large := large
    hdr := BitVec.ofNat 3 (headerLength large)
    dsize := word dsize
    ip := word (headerLength large)
    op := 0 }

/-- The declared size that the header in IN gives (20_memory R60). -/
def declaredSize (m : Memory) (large : Bool) : Nat := beValue (m.readBytes 2 (headerLength large - 2))

theorem declaredSize_small (m : Memory) : declaredSize m false =
    (m.read 2).toNat * 65536 + (m.read 3).toNat * 256 + (m.read 4).toNat := by
  change beValue [m.read 2, m.read 3, m.read 4] = _
  simp only [beValue, List.foldl]
  omega

theorem declaredSize_large (m : Memory) : declaredSize m true =
    (m.read 2).toNat * 2 ^ 24 + (m.read 3).toNat * 65536 + (m.read 4).toNat * 256 + (m.read 5).toNat := by
  change beValue [m.read 2, m.read 3, m.read 4, m.read 5] = _
  simp only [beValue, List.foldl]
  omega

/-- DEC_START after an acceptance, in terms of the state before it (40_decoder_opcodes R131). -/
theorem decStart_accept (s : State) : decStart (s.accept .dec) =
    if s.inLen.toNat < 2 then (s.accept .dec).raise .hdrTruncated 0 0
    else if !magicRecognised s.cfg (s.inMem.read 0) (s.inMem.read 1) then (s.accept .dec).raise .badMagic 0 0
    else if s.inLen.toNat < headerLength (headerIsLarge s.cfg (s.inMem.read 1)) then
      (s.accept .dec).raise .hdrTruncated 0 0
    else if s.outCap.toNat < declaredSize s.inMem (headerIsLarge s.cfg (s.inMem.read 1)) then
      (s.accept .dec).raise .outCapacity 0 0
    else s.decStarted (headerIsLarge s.cfg (s.inMem.read 1))
      (declaredSize s.inMem (headerIsLarge s.cfg (s.inMem.read 1))) := rfl

theorem exec_decompress (s : State) (hb : s.busy = false) (hf : s.operandsFit = true) :
    exec .decompress s = .next (decStart (s.accept .dec)) := by
  simp [exec, execDecompress, hb, hf]

theorem magicRecognised_iff (c : Config) (h0 h1 : Byte) :
    magicRecognised c h0 h1 = true ↔ h0 = c.magic0 ∧ h1 &&& ~~~c.largeMask = c.magic1 := by
  simp [magicRecognised]

/-- All that an accepted DECOMPRESS can answer, the checks in the order of 60_exceptions R260. -/
theorem exec_decompress_cases (s : State) (hb : s.busy = false) (hf : s.operandsFit = true) :
    (s.inLen.toNat < 2 ∧ exec .decompress s = .next ((s.accept .dec).raise .hdrTruncated 0 0)) ∨
    (2 ≤ s.inLen.toNat ∧ magicRecognised s.cfg (s.inMem.read 0) (s.inMem.read 1) = false ∧
      exec .decompress s = .next ((s.accept .dec).raise .badMagic 0 0)) ∨
    (2 ≤ s.inLen.toNat ∧ magicRecognised s.cfg (s.inMem.read 0) (s.inMem.read 1) = true ∧
      s.inLen.toNat < headerLength (headerIsLarge s.cfg (s.inMem.read 1)) ∧
      exec .decompress s = .next ((s.accept .dec).raise .hdrTruncated 0 0)) ∨
    (headerLength (headerIsLarge s.cfg (s.inMem.read 1)) ≤ s.inLen.toNat ∧
      magicRecognised s.cfg (s.inMem.read 0) (s.inMem.read 1) = true ∧
      s.outCap.toNat < declaredSize s.inMem (headerIsLarge s.cfg (s.inMem.read 1)) ∧
      exec .decompress s = .next ((s.accept .dec).raise .outCapacity 0 0)) ∨
    (headerLength (headerIsLarge s.cfg (s.inMem.read 1)) ≤ s.inLen.toNat ∧
      magicRecognised s.cfg (s.inMem.read 0) (s.inMem.read 1) = true ∧
      declaredSize s.inMem (headerIsLarge s.cfg (s.inMem.read 1)) ≤ s.outCap.toNat ∧
      exec .decompress s = .next (s.decStarted (headerIsLarge s.cfg (s.inMem.read 1))
        (declaredSize s.inMem (headerIsLarge s.cfg (s.inMem.read 1))))) := by
  rw [exec_decompress s hb hf, decStart_accept]
  by_cases h1 : s.inLen.toNat < 2
  · exact .inl ⟨h1, by rw [if_pos h1]⟩
  by_cases h2 : magicRecognised s.cfg (s.inMem.read 0) (s.inMem.read 1) = true
  · by_cases h3 : s.inLen.toNat < headerLength (headerIsLarge s.cfg (s.inMem.read 1))
    · exact .inr (.inr (.inl ⟨by omega, h2, h3, by simp [h1, h2, h3]⟩))
    by_cases h4 : s.outCap.toNat < declaredSize s.inMem (headerIsLarge s.cfg (s.inMem.read 1))
    · exact .inr (.inr (.inr (.inl ⟨by omega, h2, h4, by simp [h1, h2, h3, h4]⟩)))
    · exact .inr (.inr (.inr (.inr ⟨by omega, h2, by omega, by simp [h1, h2, h3, h4]⟩)))
  · exact .inr (.inl ⟨by omega, by simpa using h2, by simp [h1, h2]⟩)

/-! ### COMPRESS -/

/-- ENC before its header is written (42_encoder R192). -/
def State.encStarted (large : Bool) (s : State) : State :=
  { s.accept .enc with
    op := 0
    cur := 0
    ls := 0
    large := large
    hdr := BitVec.ofNat 3 (headerLength large) }

/-- ENC_START after an acceptance, in terms of the state before it (42_encoder R192). -/
theorem encStart_accept (s : State) : encStart (s.accept .enc) =
    putBytes (headerBytes s.cfg (decide (2 ^ 24 - 1 < s.inLen.toNat)) s.inLen.toNat)
      (s.encStarted (decide (2 ^ 24 - 1 < s.inLen.toNat))) := rfl

theorem encStarted_raise (large : Bool) (c : Cause) (ip op : Word) (s : State) :
    (s.encStarted large).raise c ip op = (s.accept .enc).raise c ip op :=
  State.raise_congr c ip op rfl rfl rfl rfl rfl rfl rfl rfl rfl rfl

/-- All that an accepted COMPRESS can answer (42_encoder R191, R192). -/
theorem exec_compress_cases (s : State) (hb : s.busy = false) (hf : s.operandsFit = true) :
    (s.outCap.toNat < headerLength (decide (2 ^ 24 - 1 < s.inLen.toNat)) ∧
      exec .compress s = .next ((s.accept .enc).raise .outCapacity 0 s.outCap)) ∨
    (headerLength (decide (2 ^ 24 - 1 < s.inLen.toNat)) ≤ s.outCap.toNat ∧
      exec .compress s = .next
        (pushAll (headerBytes s.cfg (decide (2 ^ 24 - 1 < s.inLen.toNat)) s.inLen.toNat)
          (s.encStarted (decide (2 ^ 24 - 1 < s.inLen.toNat))))) := by
  have he : exec .compress s = (encStart (s.accept .enc)).outcome := by
    simp [exec, execCompress, hb, hf]
  rw [he, encStart_accept]
  generalize decide (2 ^ 24 - 1 < s.inLen.toNat) = large
  have hlen := length_headerBytes s.cfg large s.inLen.toNat
  have hzero : (s.encStarted large).op.toNat = 0 := rfl
  have hcap : (s.encStarted large).outCap = s.outCap := rfl
  have hcfg : (s.encStarted large).cfg = s.cfg := rfl
  have hsize := ((operandsFit_iff s).1 hf).2
  rw [putBytes_either _ _ (by omega) (by rw [hcap, hcfg]; exact hsize), hlen, hzero, hcap, Nat.zero_add]
  by_cases h : headerLength large ≤ s.outCap.toNat
  · exact .inr ⟨h, by rw [if_pos h]; rfl⟩
  · exact .inl ⟨by omega, by rw [if_neg h, encStarted_raise]; rfl⟩

/-- A command while BUSY has no effect (43_host_commands R234). -/
theorem exec_command_busy (i : Instr) (s : State) (hi : i.isOpcode = false) (hb : s.busy = true) :
    exec i s = .next s := by
  cases i with
  | compress => simp [exec, execCompress, hb]
  | decompress => simp [exec, execDecompress, hb]
  | shortCopy => cases hi
  | mediumCopy => cases hi
  | longCopy => cases hi
  | literalRun => cases hi
  | streamEnd => cases hi

/-- A command with operands beyond the memories is refused (log 11). -/
theorem exec_command_beyond (i : Instr) (s : State) (hi : i.isOpcode = false) (hb : s.busy = false)
    (hf : s.operandsFit = false) : exec i s = .refused .operandsBeyondMemory := by
  cases i with
  | compress => simp [exec, execCompress, hb, hf]
  | decompress => simp [exec, execDecompress, hb, hf]
  | shortCopy => cases hi
  | mediumCopy => cases hi
  | longCopy => cases hi
  | literalRun => cases hi
  | streamEnd => cases hi

end Sys2Proof.Machine
end

