-- ==== Sys2Proof/Laws/Engine.lean ====
section
/-! SUPPORT. All that a step of a running unit can answer in a state that meets the invariant, and runs of steps. -/

namespace Sys2Proof.Machine

/-- One step at the front of a run. -/
theorem run_succ (k : Nat) (s t : State) (h : step s = .next t) :
    Host.Core.run core (k + 1) s = Host.Core.run core k t := by
  have h' : core.step s = .next t := h
  exact (Host.Core.run.eq_2 core s k).trans (by rw [h'])

theorem run_zero (s : State) : Host.Core.run core 0 s = .next s := rfl

/-- An idle machine whose host makes no move stays as it is (70_reset_and_hazards R293). -/
theorem run_idle (k : Nat) (s : State) (h : s.host = []) (hb : s.busy = false) :
    Host.Core.run core k s = .next s := by
  induction k with
  | zero => rfl
  | succ k ih => rw [run_succ k s s (step_idle h hb), ih]

theorem latchOpcode_fits {i : Instr} {size lit : Nat} {s : State} (h : LiteralsFit size lit (s.latchOpcode i)) :
    LiteralsFit size lit s := ⟨h.input, h.output, h.inCovers, h.outCovers⟩

/-- What DEC's step is: an error, an opcode that completes and consumes at least one byte of IN, or the normal
end. -/
theorem decStep_cases {s : State} (h : s.Running) (hu : s.unit = .dec) :
    (∃ c ip op, decStep s = .next (s.raise c ip op)) ∨
    (∃ i, i.isOpcode = true ∧ 1 ≤ controlBytes i ∧ LiteralsFit (controlBytes i) (literalCount i) s ∧
      matchOffset i ≤ s.op.toNat + literalCount i ∧
      s.op.toNat + literalCount i + matchLength i ≤ s.dsize.toNat ∧
      decStep s = .next (afterOpcode i (s.latchOpcode i))) ∨
    (∃ lit, LiteralsFit 1 lit s ∧ s.op + word lit = s.dsize ∧
      decStep s = .next (afterEndLiterals lit (s.latchOpcode (.streamEnd lit))).halt) := by
  have hd := h.dec_pointers hu
  have h1 := h.in_fits
  have h2 := h.out_fits
  have h3 := hd.dsize_le_outCap
  have hn : s.n.toNat ≤ s.cfg.inSize := by rw [h.n_eq]; exact h1
  unfold decStep
  rcases fetch_cases s with hf | hf | hf | ⟨_, _, i, _, hcb, hi, _, hf⟩
  · rw [hf.2]; exact .inl ⟨_, _, _, rfl⟩
  · rcases hf.2.2 with hf' | hf'
    · rw [hf']; exact .inl ⟨_, _, _, rfl⟩
    · omega
  · omega
  · rw [hf]
    have hx := exec_opcode_outcome i (s.latchOpcode i) hi
    simp only
    generalize exec i (s.latchOpcode i) = o at hx
    cases hx with
    | stopped h' =>
      cases h' with
      | exhausted => exact .inl ⟨_, _, _, by rw [State.raise_latchOpcode]⟩
      | overrun => exact .inl ⟨_, _, _, by rw [State.raise_latchOpcode]⟩
      | inAbsent g g1 g2 => simp only [State.latchOpcode_n, State.latchOpcode_ip, State.latchOpcode_cfg] at g g2; omega
      | outAbsent g g1 g2 =>
        simp only [State.latchOpcode_op, State.latchOpcode_dsize, State.latchOpcode_cfg] at g1 g2; omega
    | badOffset => exact .inl ⟨_, _, _, by rw [State.raise_latchOpcode]⟩
    | overrun => exact .inl ⟨_, _, _, by rw [State.raise_latchOpcode]⟩
    | sizeMismatch => exact .inl ⟨_, _, _, by rw [State.raise_latchOpcode]⟩
    | expectMismatch => exact .inl ⟨_, _, _, by rw [State.raise_latchOpcode]⟩
    | outAbsent _ _ g g2 =>
      simp only [State.latchOpcode_op, State.latchOpcode_dsize, State.latchOpcode_cfg] at g g2; omega
    | completed g _ g1 g2 _ =>
      exact .inr (.inl ⟨i, hi, by rw [hcb]; exact controlSize_pos _, latchOpcode_fits g, g1, g2, rfl⟩)
    | halted lit hi' g g1 => subst hi'; exact .inr (.inr ⟨lit, latchOpcode_fits g, g1, rfl⟩)

/-- What ENC's step is: an error, a byte passed, a match emitted, or the normal end. -/
theorem encStep_cases {s : State} (h : s.Running) (hu : s.unit = .enc) :
    (encStep s = .next (s.raise .outCapacity s.cur s.outCap)) ∨
    (s.cur.toNat < s.n.toNat ∧ matchFinder s.inMem s.n.toNat s.cur.toNat = none ∧
      encStep s = .next { s with cur := s.cur + 1#32 }) ∨
    (∃ o len, matchFinder s.inMem s.n.toNat s.cur.toNat = some (o, len) ∧ 3 ≤ len ∧
      s.cur.toNat + len ≤ s.n.toNat ∧ s.op.toNat + (s.matchBytes o len).length ≤ s.outCap.toNat ∧
      encStep s = .next (s.afterMatch o len)) ∨
    (s.cur = s.n ∧ s.op.toNat + s.endBytes.length ≤ s.outCap.toNat ∧ encStep s = .next s.afterEnd.halt) := by
  have her := h.encReady hu
  have h3 := (h.enc_pointers hu).cur_le_n
  have hn : s.n.toNat ≤ s.cfg.inSize := by rw [h.n_eq]; exact h.in_fits
  by_cases hc : s.cur.toNat < s.n.toNat
  · cases hm : matchFinder s.inMem s.n.toNat s.cur.toNat with
    | none => exact .inr (.inl ⟨hc, rfl, encStep_literal s hc hn hm⟩)
    | some m =>
      obtain ⟨o, len⟩ := m
      have hmf := matchFinder_some _ _ _ _ _ hm
      have he := (encodable_iff o len).1 hmf.2.2.2.1
      rw [encStep_match s her hc hn o len hm]
      split
      · exact .inr (.inr (.inl ⟨o, len, rfl, by omega, by omega, ‹_›, rfl⟩))
      · exact .inl rfl
  · rw [encStep_end s her (by omega)]
    split
    · exact .inr (.inr (.inr ⟨BitVec.eq_of_toNat_eq (by omega), ‹_›, rfl⟩))
    · exact .inl rfl

end Sys2Proof.Machine
end

