-- ==== Sys2Proof/Laws/Hosted.lean ====
section
/-! SUPPORT. The engine neither reads nor changes the host's pending moves: each of its operations answers the same
whatever moves are pending, and keeps them (log 9). -/

namespace Sys2Proof.Machine

/-! ### The moves replaced -/

section
variable (h : List HostMove) (s : State)

@[simp] theorem State.withHost_cfg : (s.withHost h).cfg = s.cfg := rfl
@[simp] theorem State.withHost_ip : (s.withHost h).ip = s.ip := rfl
@[simp] theorem State.withHost_op : (s.withHost h).op = s.op := rfl
@[simp] theorem State.withHost_dsize : (s.withHost h).dsize = s.dsize := rfl
@[simp] theorem State.withHost_n : (s.withHost h).n = s.n := rfl
@[simp] theorem State.withHost_cur : (s.withHost h).cur = s.cur := rfl
@[simp] theorem State.withHost_ls : (s.withHost h).ls = s.ls := rfl
@[simp] theorem State.withHost_large : (s.withHost h).large = s.large := rfl
@[simp] theorem State.withHost_hdr : (s.withHost h).hdr = s.hdr := rfl
@[simp] theorem State.withHost_latch : (s.withHost h).latch = s.latch := rfl
@[simp] theorem State.withHost_unit : (s.withHost h).unit = s.unit := rfl
@[simp] theorem State.withHost_status : (s.withHost h).status = s.status := rfl
@[simp] theorem State.withHost_errInfo : (s.withHost h).errInfo = s.errInfo := rfl
@[simp] theorem State.withHost_inLen : (s.withHost h).inLen = s.inLen := rfl
@[simp] theorem State.withHost_outCap : (s.withHost h).outCap = s.outCap := rfl
@[simp] theorem State.withHost_outLen : (s.withHost h).outLen = s.outLen := rfl
@[simp] theorem State.withHost_expect : (s.withHost h).expect = s.expect := rfl
@[simp] theorem State.withHost_ctrl : (s.withHost h).ctrl = s.ctrl := rfl
@[simp] theorem State.withHost_errIp : (s.withHost h).errIp = s.errIp := rfl
@[simp] theorem State.withHost_errOp : (s.withHost h).errOp = s.errOp := rfl
@[simp] theorem State.withHost_inMem : (s.withHost h).inMem = s.inMem := rfl
@[simp] theorem State.withHost_outMem : (s.withHost h).outMem = s.outMem := rfl
@[simp] theorem State.withHost_host : (s.withHost h).host = h := rfl
@[simp] theorem State.withHost_readData : (s.withHost h).readData = s.readData := rfl
@[simp] theorem State.withHost_freeTag : (s.withHost h).freeTag = s.freeTag := rfl
@[simp] theorem State.withHost_busy : (s.withHost h).busy = s.busy := rfl
@[simp] theorem State.withHost_expectEn : (s.withHost h).expectEn = s.expectEn := rfl
@[simp] theorem State.withHost_pending : (s.withHost h).pending = s.pending := rfl

theorem State.withHost_inCovers (k : Nat) : (s.withHost h).inCovers k = s.inCovers k := rfl
theorem State.withHost_outCovers (k : Nat) : (s.withHost h).outCovers k = s.outCovers k := rfl
theorem State.raise_withHost (c : Cause) (ip op : Word) :
    (s.withHost h).raise c ip op = (s.raise c ip op).withHost h := rfl
theorem State.outPush_withHost (v : Byte) : (s.withHost h).outPush v = (s.outPush v).withHost h := rfl
theorem State.latchOpcode_withHost (i : Instr) :
    (s.withHost h).latchOpcode i = (s.latchOpcode i).withHost h := rfl

end

/-- A part of an instruction with the moves `h` pending where it goes on or has ended. -/
def Flow.withHost (h : List HostMove) : Flow → Flow
  | .go t => .go (t.withHost h)
  | .ended o => .ended (outcomeWithHost h o)

theorem Flow.andThen_withHost (h : List HostMove) (f : Flow) {g : State → Flow}
    (hg : ∀ t, g (t.withHost h) = (g t).withHost h) :
    (f.withHost h).andThen g = (f.andThen g).withHost h := by
  cases f with
  | go t => exact hg t
  | ended o => rfl

theorem Flow.outcome_withHost (h : List HostMove) (f : Flow) :
    (f.withHost h).outcome = outcomeWithHost h f.outcome := by
  cases f <;> rfl

/-! ### The opcodes -/

theorem copyLiterals_withHost (h : List HostMove) (src k : Nat) (s : State) :
    copyLiterals src k (s.withHost h) = (copyLiterals src k s).withHost h := by
  induction k generalizing src s with
  | zero => rfl
  | succ k ih => exact ih (src + 1) (s.outPush (s.inMem.read src))

theorem copyMatch_withHost (h : List HostMove) (off k : Nat) (s : State) :
    copyMatch off k (s.withHost h) = (copyMatch off k s).withHost h := by
  induction k generalizing s with
  | zero => rfl
  | succ k ih => exact ih (s.outPush (s.outMem.read (s.op.toNat - off)))

theorem literalPhase_withHost (h : List HostMove) (size lit : Nat) (s : State) :
    literalPhase size lit (s.withHost h) = (literalPhase size lit s).withHost h := by
  simp only [literalPhase, copyLiterals_withHost, State.withHost_inCovers, State.withHost_outCovers,
    State.withHost_n, State.withHost_ip, State.withHost_dsize, State.withHost_op]
  split_ifs <;> rfl

theorem matchPhase_withHost (h : List HostMove) (ip0 : Word) (len off : Nat) (s : State) :
    matchPhase ip0 len off (s.withHost h) = (matchPhase ip0 len off s).withHost h := by
  simp only [matchPhase, copyMatch_withHost, State.withHost_outCovers, State.withHost_dsize, State.withHost_op]
  split_ifs <;> rfl

theorem endPhase_withHost (h : List HostMove) (ip0 : Word) (s : State) :
    endPhase ip0 (s.withHost h) = (endPhase ip0 s).withHost h := by
  rw [endPhase, endPhase, apply_ite (Flow.withHost h), apply_ite (Flow.withHost h)]
  rfl

theorem copyOpcode_withHost (h : List HostMove) (size lit len off : Nat) (s : State) :
    copyOpcode size lit len off (s.withHost h) = outcomeWithHost h (copyOpcode size lit len off s) := by
  rw [copyOpcode, literalPhase_withHost, State.withHost_ip,
    Flow.andThen_withHost h _ (matchPhase_withHost h s.ip len off), Flow.outcome_withHost, copyOpcode]

theorem exec_opcode_withHost (h : List HostMove) (i : Instr) (hi : i.isOpcode = true) (s : State) :
    exec i (s.withHost h) = outcomeWithHost h (exec i s) := by
  cases i with
  | shortCopy lit len off => exact copyOpcode_withHost h _ lit len off s
  | mediumCopy lit len off => exact copyOpcode_withHost h _ lit len off s
  | longCopy lit len off => exact copyOpcode_withHost h _ lit len off s
  | literalRun lit =>
    simp only [exec, execLiteralRun, literalPhase_withHost, Flow.outcome_withHost]
  | streamEnd lit =>
    simp only [exec, execStreamEnd, literalPhase_withHost, State.withHost_ip]
    rw [Flow.andThen_withHost h _ (endPhase_withHost h s.ip), Flow.outcome_withHost]
  | compress => cases hi
  | decompress => cases hi

/-! ### The encoder -/

theorem put_withHost (h : List HostMove) (v : Byte) (s : State) :
    put v (s.withHost h) = (put v s).withHost h := by
  rw [put, put, apply_ite (Flow.withHost h), apply_ite (Flow.withHost h)]
  rfl

theorem putBytes_withHost (h : List HostMove) (vs : List Byte) (s : State) :
    putBytes vs (s.withHost h) = (putBytes vs s).withHost h := by
  induction vs generalizing s with
  | nil => rfl
  | cons v vs ih => rw [putBytes, put_withHost, Flow.andThen_withHost h _ ih, putBytes]

theorem putInput_withHost (h : List HostMove) (a c : Nat) (s : State) :
    putInput a c (s.withHost h) = (putInput a c s).withHost h := by
  simp only [putInput, State.withHost_inCovers, State.withHost_inMem, putBytes_withHost]
  split_ifs <;> rfl

theorem flushOne_withHost (h : List HostMove) (s : State) :
    flushOne (s.withHost h) = (flushOne s).withHost h := by
  simp only [flushOne, State.withHost_pending, State.withHost_ls, putBytes_withHost]
  rw [Flow.andThen_withHost h _ (putInput_withHost h _ _), Flow.andThen_withHost h _ (fun _ => rfl)]

theorem flushLoop_withHost (h : List HostMove) (fuel : Nat) (s : State) :
    flushLoop fuel (s.withHost h) = (flushLoop fuel s).withHost h := by
  induction fuel generalizing s with
  | zero => rfl
  | succ fuel ih =>
    simp only [flushLoop, State.withHost_pending, flushOne_withHost, Flow.andThen_withHost h _ ih]
    split_ifs <;> rfl

theorem flush_withHost (h : List HostMove) (s : State) : flush (s.withHost h) = (flush s).withHost h :=
  flushLoop_withHost h s.pending s

theorem emitMatch_withHost (h : List HostMove) (o len : Nat) (s : State) :
    emitMatch o len (s.withHost h) = (emitMatch o len s).withHost h := by
  simp only [emitMatch, State.withHost_pending, State.withHost_ls, State.latchOpcode_withHost, putBytes_withHost]
  rw [Flow.andThen_withHost h _ (putInput_withHost h _ _), Flow.andThen_withHost h _ (fun _ => rfl)]

theorem emitEnd_withHost (h : List HostMove) (s : State) :
    emitEnd (s.withHost h) = (emitEnd s).withHost h := by
  simp only [emitEnd, State.withHost_pending, State.withHost_ls, putBytes_withHost]
  rw [Flow.andThen_withHost h _ (putInput_withHost h _ _), Flow.andThen_withHost h _ (fun _ => rfl)]

theorem encCursorStep_withHost (h : List HostMove) (s : State) :
    encCursorStep (s.withHost h) = (encCursorStep s).withHost h := by
  simp only [encCursorStep, State.withHost_inCovers, State.withHost_n, State.withHost_cur, State.withHost_inMem,
    flush_withHost]
  split
  · rfl
  · split
    · rfl
    · exact Flow.andThen_withHost h _ (emitMatch_withHost h _ _)

theorem encEnd_withHost (h : List HostMove) (s : State) : encEnd (s.withHost h) = (encEnd s).withHost h := by
  rw [encEnd, flush_withHost, Flow.andThen_withHost h _ (emitEnd_withHost h), encEnd]

/-! ### The step -/

theorem fetch_withHost (h : List HostMove) (s : State) : fetch (s.withHost h) = fetch s := rfl

/-- What DEC's fetch gives is an opcode, never a command. -/
theorem fetch_isOpcode {s : State} {i : Instr} (hf : fetch s = .got i) : i.isOpcode = true := by
  rcases fetch_cases s with c | c | c | ⟨_, _, j, _, _, hj, _, c⟩
  · rw [c.2] at hf; cases hf
  · rcases c.2.2 with c | c
    · rw [c] at hf; cases hf
    · rw [c.2] at hf; cases hf
  · rw [c.2.2] at hf; cases hf
  · rw [c] at hf; cases hf; exact hj

theorem decStep_withHost (h : List HostMove) (s : State) :
    decStep (s.withHost h) = outcomeWithHost h (decStep s) := by
  unfold decStep
  rw [fetch_withHost]
  cases hf : fetch s with
  | got i => exact exec_opcode_withHost h i (fetch_isOpcode hf) (s.latchOpcode i)
  | exhausted => rfl
  | absent => rfl

theorem encStep_withHost (h : List HostMove) (s : State) :
    encStep (s.withHost h) = outcomeWithHost h (encStep s) := by
  simp only [encStep, State.withHost_cur, State.withHost_n, encCursorStep_withHost, encEnd_withHost,
    Flow.outcome_withHost]
  split <;> rfl

/-- A step of the engine is the same whatever moves are pending, and keeps them. -/
theorem engineStep_withHost (h : List HostMove) (s : State) :
    engineStep (s.withHost h) = outcomeWithHost h (engineStep s) := by
  simp only [engineStep, State.withHost_busy, State.withHost_unit, decStep_withHost, encStep_withHost]
  split
  · cases s.unit <;> rfl
  · rfl

end Sys2Proof.Machine
end

