-- ==== Sys2Proof/Laws/PerInstr.lean ====
section
/-! SUPPORT. Per instruction: how many bytes the encoding has, and which form control byte 0 selects. -/

namespace Sys2Proof.Laws.ControlSize

open Sys2Proof Sys2Proof.Machine

/-- The encoding of a well-formed opcode has the number of control bytes that its form has (30_encoding R93), and
control byte 0 selects that form (30_encoding R99); a command is one byte, its code (10_state R36). -/
def Statement (i : Instr) : Prop :=
  i.wellFormed = true →
    match formOf i with
    | some form => (encode i).length = controlSize form ∧ (encode i).head?.map classify = some form
    | none => (encode i).length = 1 ∧ controlBytes i = 0

theorem toNat_ofNat_byte (k : Nat) (h : k < 256) : (BitVec.ofNat 8 k).toNat = k :=
  (BitVec.toNat_ofNat k 8).trans (Nat.mod_eq_of_lt h)

theorem shortCopy (lit len off : Nat) : Statement (.shortCopy lit len off) := by
  intro h
  simp only [Instr.wellFormed, inRange, Bool.and_eq_true, decide_eq_true_eq] at h
  refine ⟨rfl, ?_⟩
  simp only [encode, List.head?_cons, Option.map_some, Option.some.injEq, classify]
  rw [toNat_ofNat_byte _ (by omega), if_pos (by omega)]

theorem mediumCopy (lit len off : Nat) : Statement (.mediumCopy lit len off) := by
  intro h
  simp only [Instr.wellFormed, inRange, Bool.and_eq_true, decide_eq_true_eq] at h
  refine ⟨rfl, ?_⟩
  simp only [encode, List.head?_cons, Option.map_some, Option.some.injEq, classify]
  rw [toNat_ofNat_byte _ (by omega), if_neg (by omega), if_pos (by omega)]

theorem longCopy (lit len off : Nat) : Statement (.longCopy lit len off) := by
  intro h
  simp only [Instr.wellFormed, inRange, Bool.and_eq_true, decide_eq_true_eq] at h
  refine ⟨rfl, ?_⟩
  simp only [encode, List.head?_cons, Option.map_some, Option.some.injEq, classify]
  rw [toNat_ofNat_byte _ (by omega), if_neg (by omega), if_neg (by omega), if_pos (by omega)]

theorem literalRun (lit : Nat) : Statement (.literalRun lit) := by
  intro h
  simp only [Instr.wellFormed, inRange, Bool.and_eq_true, decide_eq_true_eq] at h
  refine ⟨rfl, ?_⟩
  simp only [encode, List.head?_cons, Option.map_some, Option.some.injEq, classify]
  rw [toNat_ofNat_byte _ (by omega), if_neg (by omega), if_neg (by omega), if_neg (by omega),
    if_pos (by omega)]

theorem streamEnd (lit : Nat) : Statement (.streamEnd lit) := by
  intro h
  simp only [Instr.wellFormed, inRange, Bool.and_eq_true, decide_eq_true_eq] at h
  refine ⟨rfl, ?_⟩
  simp only [encode, List.head?_cons, Option.map_some, Option.some.injEq, classify]
  rw [toNat_ofNat_byte _ (by omega), if_neg (by omega), if_neg (by omega), if_neg (by omega),
    if_neg (by omega)]

theorem compress : Statement .compress := fun _ => ⟨rfl, rfl⟩

theorem decompress : Statement .decompress := fun _ => ⟨rfl, rfl⟩

end Sys2Proof.Laws.ControlSize
end

