-- ==== Sys2Proof/Tests/Slice0.lean ====
section
/-! SUPPORT. The model's own tests, their expected results from 95_test_vectors, and for every statement with
hypotheses a state that meets them. -/

namespace Sys2Proof.Tests

open Sys2Proof Sys2Proof.Machine

/-! ### Well-formedness: an ill-formed term for each check (00_scope R7, 30_encoding R93) -/

theorem test_wellFormed_least : [Instr.shortCopy 0 3 1, .mediumCopy 0 4 1, .longCopy 0 5 1, .literalRun 4,
    .streamEnd 0].all Instr.wellFormed = true := by decide

theorem test_wellFormed_greatest : [Instr.shortCopy 3 10 1024, .mediumCopy 3 67 16384,
    .longCopy 3 1028 131072, .literalRun 112, .streamEnd 3].all Instr.wellFormed = true := by decide

theorem test_illFormed_short : [Instr.shortCopy 4 3 1, .shortCopy 0 2 1, .shortCopy 0 11 1, .shortCopy 0 3 0,
    .shortCopy 0 3 1025].any Instr.wellFormed = false := by decide

theorem test_illFormed_medium : [Instr.mediumCopy 4 4 1, .mediumCopy 0 3 1, .mediumCopy 0 68 1,
    .mediumCopy 0 4 0, .mediumCopy 0 4 16385].any Instr.wellFormed = false := by decide

theorem test_illFormed_long : [Instr.longCopy 4 5 1, .longCopy 0 4 1, .longCopy 0 1029 1, .longCopy 0 5 0,
    .longCopy 0 5 131073].any Instr.wellFormed = false := by decide

theorem test_illFormed_literals : [Instr.literalRun 0, .literalRun 5, .literalRun 6, .literalRun 7,
    .literalRun 116, .streamEnd 4].any Instr.wellFormed = false := by decide

/-! ### Decoding: words written bit by bit from the formats of 30_encoding R94 to R98 -/

/-- `0 oo lll pp | oooooooo` with o = 00 00000001, l = 101, p = 10 (F3). -/
theorem test_decode_short : decode [0b00010110#8, 0b00000001#8] = .ok (.shortCopy 2 8 2, []) := by decide

/-- `0 oo lll pp | oooooooo` with o = 01 00000000, l = 000, p = 01 (F4). -/
theorem test_decode_short_offset : decode [0b00100001#8, 0b00000000#8] = .ok (.shortCopy 1 3 257, []) := by
  decide

/-- `10 llllll | pp oooooo | oooooooo` with l = 100101, p = 11, o = 000011 00010000 (R105's sample). -/
theorem test_decode_medium : decode [0b10100101#8, 0b11000011#8, 0b00010000#8] =
    .ok (.mediumCopy 3 41 785, []) := by decide

/-- `10 llllll | pp oooooo | oooooooo` with l = 010000, p = 00, o = 000001 00101011 (F10). -/
theorem test_decode_medium_offset : decode [0b10010000#8, 0b00000001#8, 0b00101011#8] =
    .ok (.mediumCopy 0 20 300, []) := by decide

/-- `110 o ll pp | oooooooo | oooooooo | llllllll` with o = 1 0x12 0x34, l = 10 0x56, p = 11 (R105's sample). -/
theorem test_decode_long : decode [0b11011011#8, 0x12#8, 0x34#8, 0x56#8] =
    .ok (.longCopy 3 603 70197, []) := by decide

/-- `110 o ll pp | oooooooo | oooooooo | llllllll` with o = 0 0 0, l = 11 0xE2, p = 01 (F15). -/
theorem test_decode_long_length : decode [0b11001101#8, 0x00#8, 0x00#8, 0xE2#8] =
    .ok (.longCopy 1 999 1, []) := by decide

/-- `111 rrrrr` with r = 01110 (F23); what follows is left. -/
theorem test_decode_run : decode [0b11101110#8, 0x61#8] = .ok (.literalRun 60, [0x61#8]) := by decide

/-- `111111 pp` with p = 10 (F26). -/
theorem test_decode_end : decode [0b11111110#8] = .ok (.streamEnd 2, []) := by decide

/-- Control bytes cut short are rejected by name, with the form. -/
theorem test_decode_cut : decode [] = .error .noBytes ∧
    decode [0x16#8] = .error (.controlBytesCut .shortCopy) ∧
    decode [0x80#8, 0x00#8] = .error (.controlBytesCut .mediumCopy) ∧
    decode [0xC0#8, 0x00#8, 0x00#8] = .error (.controlBytesCut .longCopy) := by decide

/-- Only bits 7:0 of CMD hold the code (C5, C6). -/
theorem test_decodeCommand : decodeCommand 0xFFFFFF01#32 = .ok .compress ∧
    decodeCommand 0x00000102#32 = .ok .decompress ∧
    decodeCommand 0x00000080#32 = .error (.unknownCommand 0x80) := by decide

/-- F2, F9, F16, F24 and F27 the other way. -/
theorem test_encode : encode (.shortCopy 3 10 1024) = [0x7F#8, 0xFF#8] ∧
    encode (.mediumCopy 1 4 4) = [0x80#8, 0x40#8, 0x03#8] ∧
    encode (.longCopy 0 300 70000) = [0xD4#8, 0x11#8, 0x6F#8, 0x27#8] ∧
    encode (.literalRun 112) = [0xFB#8] ∧ encode (.streamEnd 3) = [0xFF#8] := by decide

/-- The rows of the opcode table with every field 0, and the commands. -/
theorem test_tableWords : decodeTableWord 16 0x0000 = some (.shortCopy 0 3 1) ∧
    decodeTableWord 24 0x800000 = some (.mediumCopy 0 4 1) ∧
    decodeTableWord 32 0xC0000000 = some (.longCopy 0 5 1) ∧ decodeTableWord 8 0xFC = some (.streamEnd 0) ∧
    decodeTableWord 8 0xE0 = some (.literalRun 4) ∧ decodeTableWord 8 0x01 = some .compress ∧
    decodeTableWord 8 0x02 = some .decompress := by decide

/-- The table's fields `o` 14:13, `l` 12:10, `p` 9:8 and `o_part2` 7:0 of ShortCopy hold F3. -/
theorem test_tableWord_fields : decodeTableWord 16 (5 * 2 ^ 10 + 2 * 2 ^ 8 + 1) = some (.shortCopy 2 8 2) := by
  decide

/-! ### Small states -/

/-- A memory that holds a sequence of bytes from address 0 up. -/
def memoryOf (tag : Nat) (bytes : List Byte) : Memory :=
  { cells := (List.range bytes.length).zip bytes, tags := [(0, tag)] }

/-- Both memories of 64 bytes, IN holding `input`. -/
def idleWith (input : List Byte) : State :=
  { State.reset with
    cfg := { Config.standard with inSize := 64, outSize := 64 }
    inMem := memoryOf 0 input
    inLen := word input.length
    outCap := 64#32 }

/-- DEC at `ip` of a stream in IN with `output` in OUT, the declared size `dsize`. -/
def decodingAt (ip dsize : Nat) (input output : List Byte) : State :=
  { idleWith input with
    status := 1#32
    n := word input.length
    ip := word ip
    op := word output.length
    dsize := word dsize
    hdr := 5#3
    outMem := memoryOf 1 output }

/-- ENC at `cur` of an input in IN with `output` in OUT. -/
def encodingAt (ls cur : Nat) (input output : List Byte) : State :=
  { idleWith input with
    unit := .enc
    status := 1#32
    n := word input.length
    op := word output.length
    cur := word cur
    ls := word ls
    hdr := 5#3
    outMem := memoryOf 1 output }

/-- What a step shows: STATUS, ERRINFO, ERR_IP, ERR_OP and OUT_LEN. -/
def resultOf : Host.Outcome State Fault Refusal → Option (List Nat)
  | .next s => some [s.status.toNat, s.errInfo.toNat, s.errIp.toNat, s.errOp.toNat, s.outLen.toNat]
  | .fault _ => none
  | .refused _ => none

/-- `ip`, `op`, and the first `k` bytes of OUT after a step. -/
def outputOf (k : Nat) : Host.Outcome State Fault Refusal → Option (Nat × Nat × List Byte)
  | .next s => some (s.ip.toNat, s.op.toNat, s.outMem.readBytes 0 k)
  | .fault _ => none
  | .refused _ => none

/-- The first `k` bytes of OUT after a step that ends a command. -/
def bytesOf (k : Nat) : Host.Outcome State Fault Refusal → Option (List Byte)
  | .next s => some (s.outMem.readBytes 0 k)
  | .fault _ => none
  | .refused _ => none

/-- The stream of X3, "ABABABABAB". -/
def streamX3 : List Byte :=
  [0x10#8, 0xFB#8, 0x00#8, 0x00#8, 0x0A#8, 0x16#8, 0x01#8, 0x41#8, 0x42#8, 0xFC#8]

/-- The stream of program P2, all five opcodes. -/
def streamP2 : List Byte :=
  [0x10#8, 0xFB#8, 0x00#8, 0x00#8, 0x14#8, 0xE0#8, 0x61#8, 0x62#8, 0x63#8, 0x64#8, 0x01#8, 0x04#8] ++
    [0x65#8, 0x80#8, 0x40#8, 0x03#8, 0x58#8, 0xC0#8, 0x00#8, 0x00#8, 0x00#8, 0xFE#8, 0x79#8, 0x7A#8]

/-- The output of program P2, "abcdeabcXabcXXXXXXyz". -/
def outputP2 : List Byte :=
  [0x61#8, 0x62#8, 0x63#8, 0x64#8, 0x65#8, 0x61#8, 0x62#8, 0x63#8, 0x58#8, 0x61#8] ++
    [0x62#8, 0x63#8, 0x58#8, 0x58#8, 0x58#8, 0x58#8, 0x58#8, 0x58#8, 0x79#8, 0x7A#8]

/-- "ABABABABAB". -/
def inputE3 : List Byte :=
  [0x41#8, 0x42#8, 0x41#8, 0x42#8, 0x41#8, 0x42#8, 0x41#8, 0x42#8, 0x41#8, 0x42#8]

/-- The header of E3. -/
def headerE3 : List Byte := [0x10#8, 0xFB#8, 0x00#8, 0x00#8, 0x0A#8]

/-! ### One step of each instruction -/

/-- P1: the overlapping ShortCopy at `ip = 5`. -/
theorem test_shortCopy : outputOf 10 (step (decodingAt 5 10 streamX3 [])) = some (9, 10, inputE3) := by decide

/-- X18: an offset of 3 after 2 literals. -/
theorem test_shortCopy_badOffset :
    resultOf (exec (.shortCopy 2 8 3) (decodingAt 5 10 streamX3 [])) = some [6, 0x041, 5, 2, 0] := by decide

/-- P2: the MediumCopy at `ip = 13`, `op = 8`. -/
theorem test_mediumCopy : outputOf 13 (step (decodingAt 13 20 streamP2 (outputP2.take 8))) =
    some (17, 13, outputP2.take 13) := by decide

/-- X21 in a MediumCopy: the match overruns a declared size of 9. -/
theorem test_mediumCopy_overrun :
    resultOf (exec (.mediumCopy 2 8 2) (decodingAt 5 9 streamX3 [])) = some [6, 0x051, 5, 2, 0] := by decide

/-- P2: the LongCopy at `ip = 17`, `op = 13`. -/
theorem test_longCopy : outputOf 18 (step (decodingAt 17 20 streamP2 (outputP2.take 13))) =
    some (21, 18, outputP2.take 18) := by decide

/-- X16d in a LongCopy: the literal bytes are cut short. -/
theorem test_longCopy_exhausted :
    resultOf (exec (.longCopy 2 8 2) (decodingAt 5 10 streamX3 [])) = some [6, 0x031, 5, 0, 0] := by decide

/-- P2: the LiteralRun at `ip = 5`, `op = 0`. -/
theorem test_literalRun : outputOf 4 (step (decodingAt 5 20 streamP2 [])) = some (10, 4, outputP2.take 4) := by
  decide

/-- X23: a LiteralRun of 4 into size 3. -/
theorem test_literalRun_overrun :
    resultOf (step (decodingAt 5 3 streamP2 [])) = some [6, 0x051, 5, 0, 0] := by decide

/-- P2: the StreamEnd at `ip = 21`, `op = 18`. -/
theorem test_streamEnd : resultOf (step (decodingAt 21 20 streamP2 (outputP2.take 18))) = some [2, 0, 0, 0, 20] ∧
    bytesOf 20 (step (decodingAt 21 20 streamP2 (outputP2.take 18))) = some outputP2 := by decide

/-- X20: StreamEnd finds `op = 10` and a declared size of 11. -/
theorem test_streamEnd_mismatch :
    resultOf (step (decodingAt 9 11 streamX3 inputE3)) = some [6, 0x051, 9, 10, 0] := by decide

/-- C3, and C4's first step: the header of the empty stream. -/
theorem test_compress : resultOf (exec .compress State.reset) = some [6, 0x072, 0, 0, 0] ∧
    bytesOf 5 (exec .compress { State.reset with outCap := 6#32 }) =
      some [0x10#8, 0xFB#8, 0x00#8, 0x00#8, 0x00#8] := by decide

/-- K3: the fourth header byte does not fit. -/
theorem test_compress_full : resultOf (exec .compress { idleWith inputE3 with outCap := 3#32 }) =
    some [6, 0x072, 0, 3, 0] := by decide

/-- P1's header: `ip = 5`, `op = 0`, running. -/
theorem test_decompress : outputOf 0 (exec .decompress (idleWith streamX3)) = some (5, 0, []) ∧
    resultOf (exec .decompress (idleWith streamX3)) = some [1, 0, 0, 0, 0] := by decide

/-- X28 and X27: the magic is checked before the capacity. -/
theorem test_decompress_order :
    resultOf (exec .decompress { idleWith (0x11#8 :: streamX3.tail) with outCap := 0#32 }) =
      some [6, 0x021, 0, 0, 0] ∧
    resultOf (exec .decompress { idleWith streamX3 with outCap := 9#32 }) = some [6, 0x072, 0, 0, 0] := by
  decide

/-! ### The encoder, the match finder, the host -/

/-- M3. -/
theorem test_matchFinder : matchFinder (memoryOf 0 inputE3) 10 2 = some (2, 8) := by decide

/-- M1, M2. -/
theorem test_matchFinder_none : matchFinder (memoryOf 0 inputE3) 10 0 = none ∧
    matchFinder (memoryOf 0 inputE3) 10 1 = none := by decide

/-- E3: the ShortCopy emitted at `cur = 2`. -/
theorem test_encoder_match : bytesOf 9 (step (encodingAt 0 2 inputE3 headerE3)) =
    some (headerE3 ++ [0x16#8, 0x01#8, 0x41#8, 0x42#8]) := by decide

/-- K2: the final byte does not fit. -/
theorem test_encoder_full :
    resultOf (step { encodingAt 10 10 inputE3 (streamX3.take 9) with outCap := 9#32 }) =
      some [6, 0x072, 10, 9, 0] := by decide

/-- E12: the end of an input of four unmatched bytes, a LiteralRun and then StreamEnd. -/
theorem test_encoder_flush :
    bytesOf 11 (step (encodingAt 0 4 [0x61#8, 0x62#8, 0x63#8, 0x64#8]
      [0x10#8, 0xFB#8, 0x00#8, 0x00#8, 0x04#8])) =
    some [0x10#8, 0xFB#8, 0x00#8, 0x00#8, 0x04#8, 0xE0#8, 0x61#8, 0x62#8, 0x63#8, 0x64#8, 0xFC#8] := by decide

/-- C9: bits 31:1 of CTRL ignore writes. -/
theorem test_ctrl : (match step { State.reset with host := [.writeReg .ctrl 0xFFFFFFFF#32] } with
    | .next s => s.ctrl.toNat
    | .fault _ => 0
    | .refused _ => 0) = 1 := by decide

/-! Each row of the table runs as the first instruction after reset: an opcode ends at once by the error of an empty
output, a command by the error of an empty operand (C2, C3). -/

theorem test_row_short : resultOf (step (State.reset.withFetchWord 16 0x0000)) = some [6, 0x041, 0, 0, 0] := by
  decide +kernel

theorem test_row_medium :
    resultOf (step (State.reset.withFetchWord 24 0x800000)) = some [6, 0x041, 0, 0, 0] := by decide +kernel

theorem test_row_long :
    resultOf (step (State.reset.withFetchWord 32 0xC0000000)) = some [6, 0x041, 0, 0, 0] := by decide +kernel

theorem test_row_end : resultOf (step (State.reset.withFetchWord 8 0xFC)) = some [2, 0, 0, 0, 0] := by
  decide +kernel

theorem test_row_run : resultOf (step (State.reset.withFetchWord 8 0xE0)) = some [6, 0x051, 0, 0, 0] := by
  decide +kernel

theorem test_row_compress : resultOf (step (State.reset.withFetchWord 8 0x01)) = some [6, 0x072, 0, 0, 0] := by
  decide

theorem test_row_decompress : resultOf (step (State.reset.withFetchWord 8 0x02)) = some [6, 0x011, 0, 0, 0] := by
  decide

/-! ### The hypotheses of the statements are met -/

theorem inv_idle : (idleWith inputE3).Inv where
  cfg_wf := by decide
  in_wf := by decide
  out_wf := by decide
  in_within := by decide
  out_within := by decide
  in_tags := by decide
  out_tags := by decide
  status_legal := by decide
  err_info := by decide
  no_err_info := by decide
  no_result := by decide
  result_fits := by decide
  ctrl_kept := by decide
  running := fun h => absurd h (by decide)

/-- DEC at the first opcode of X3. -/
def decX3 : State := decodingAt 5 10 streamX3 []

/-- ENC at the first match of E3. -/
def encE3 : State := encodingAt 0 2 inputE3 headerE3

/-- ENC at the end of the input of E3. -/
def encE3End : State := encodingAt 10 10 inputE3 (streamX3.take 9)

theorem inv_decX3 : decX3.Inv where
  cfg_wf := by decide
  in_wf := by decide
  out_wf := by decide
  in_within := by decide
  out_within := by decide
  in_tags := by decide
  out_tags := by decide
  status_legal := by decide
  err_info := by decide
  no_err_info := by decide
  no_result := by decide
  result_fits := by decide
  ctrl_kept := by decide
  running := fun _ =>
    { n_eq := by decide
      in_fits := by decide
      out_fits := by decide
      hdr_eq := by decide
      dec_pointers := fun _ => ⟨by decide, by decide, by decide, by decide⟩
      enc_pointers := fun h => absurd h (by decide) }

theorem inv_encE3 : encE3.Inv where
  cfg_wf := by decide
  in_wf := by decide
  out_wf := by decide
  in_within := by decide
  out_within := by decide
  in_tags := by decide
  out_tags := by decide
  status_legal := by decide
  err_info := by decide
  no_err_info := by decide
  no_result := by decide
  result_fits := by decide
  ctrl_kept := by decide
  running := fun _ =>
    { n_eq := by decide
      in_fits := by decide
      out_fits := by decide
      hdr_eq := by decide
      dec_pointers := fun h => absurd h (by decide)
      enc_pointers := fun _ => ⟨by decide, by decide, by decide, by decide⟩ }

theorem inv_encE3End : encE3End.Inv where
  cfg_wf := by decide
  in_wf := by decide
  out_wf := by decide
  in_within := by decide
  out_within := by decide
  in_tags := by decide
  out_tags := by decide
  status_legal := by decide
  err_info := by decide
  no_err_info := by decide
  no_result := by decide
  result_fits := by decide
  ctrl_kept := by decide
  running := fun _ =>
    { n_eq := by decide
      in_fits := by decide
      out_fits := by decide
      hdr_eq := by decide
      dec_pointers := fun h => absurd h (by decide)
      enc_pointers := fun _ => ⟨by decide, by decide, by decide, by decide⟩ }

theorem witness_OpcodesRoundTrip : (Instr.longCopy 3 1028 131072).isOpcode = true ∧
    (Instr.longCopy 3 1028 131072).wellFormed = true ∧ decode [0xFB#8] = .ok (.literalRun 112, []) := by decide

theorem witness_ParsedFieldsInRange : decode [0xBF#8, 0xFF#8, 0xFF#8] = .ok (.mediumCopy 3 67 16384, []) := by
  decide

theorem witness_FirstByteSelectsForm : ([0x00#8, 0x7F#8, 0x80#8, 0xBF#8, 0xC0#8, 0xDF#8, 0xE0#8, 0xFB#8, 0xFC#8,
    0xFF#8] : List Byte).map classify = [.shortCopy, .shortCopy, .mediumCopy, .mediumCopy, .longCopy,
    .longCopy, .literalRun, .literalRun, .streamEnd, .streamEnd] := by decide

theorem witness_ParseByMasksAndShifts : (0x7F#8 : Byte).toNat < 0x80 ∧
    (0x80 ≤ (0xBF#8 : Byte).toNat ∧ (0xBF#8 : Byte).toNat < 0xC0) ∧
    (0xC0 ≤ (0xDF#8 : Byte).toNat ∧ (0xDF#8 : Byte).toNat < 0xE0) ∧
    (0xE0 ≤ (0xFB#8 : Byte).toNat ∧ (0xFB#8 : Byte).toNat < 0xFC) ∧ 0xFC ≤ (0xFC#8 : Byte).toNat := by decide

theorem witness_EmitByShiftsAndOrs : (Instr.shortCopy 3 10 1024).wellFormed = true ∧
    (Instr.mediumCopy 3 67 16384).wellFormed = true ∧ (Instr.longCopy 0 5 1).wellFormed = true ∧
    (Instr.literalRun 112).wellFormed = true ∧ (Instr.streamEnd 3).wellFormed = true := by decide

theorem witness_DecodeTotalOnEnoughBytes :
    controlSize (classify 0xDF#8) ≤ ([0xDF#8, 0xFF#8, 0xFF#8, 0xFF#8] : List Byte).length := by decide

theorem witness_StepRunsDecodedInstruction_alone : decX3.host = [] ∧ decX3.busy = true ∧ decX3.unit = .dec ∧
    (Instr.shortCopy 2 8 2).isOpcode = true ∧ (Instr.shortCopy 2 8 2).wellFormed = true ∧
    decX3.inMem.readBytes decX3.ip.toNat (encode (.shortCopy 2 8 2)).length = encode (.shortCopy 2 8 2) ∧
    decX3.ip.toNat + (encode (.shortCopy 2 8 2)).length ≤ decX3.n.toNat ∧
    decX3.n.toNat ≤ decX3.cfg.inSize := by decide

theorem witness_StepRunsDecodedInstruction_tick : { decX3 with host := [.tick] }.host = .tick :: [] ∧
    { decX3 with host := [.tick] }.busy = true := by decide

theorem witness_StepRunsDecodedInstruction_await : { decX3 with host := [.await] }.host = .await :: [] ∧
    { decX3 with host := [.await] }.busy = true := by decide

/-- ENC and DEC running, and a DEC whose next step is a fetch error, under a `tick` and an `await`. -/
theorem witness_PolledStepIsEngineStep : (encE3.withHost [.tick, .readReg .status]).busy = true ∧
    (encE3.withHost [.tick, .readReg .status]).host = .tick :: [.readReg .status] ∧
    (decX3.withHost [.await]).busy = true ∧ (decX3.withHost [.await]).host = .await :: [] ∧
    ((decodingAt 10 4 streamX3 []).withHost [.await]).busy = true := by decide

theorem witness_StepRunsDecodedInstruction_command :
    { idleWith inputE3 with host := [.writeReg .cmd 0x102#32] }.host = .writeReg .cmd 0x102#32 :: [] ∧
    decodeCommand 0x102#32 = .ok .decompress := by decide

/-- X16b: the input ends before an opcode. X16c: inside the control bytes. X16d: inside the literals. -/
theorem witness_InputExhaustedRaised :
    (decodingAt 10 4 streamX3 []).n.toNat ≤ (decodingAt 10 4 streamX3 []).ip.toNat ∧
    ((decodingAt 5 10 (streamX3.take 6) []).ip.toNat < (decodingAt 5 10 (streamX3.take 6) []).n.toNat ∧
      (decodingAt 5 10 (streamX3.take 6) []).n.toNat ≤ (decodingAt 5 10 (streamX3.take 6) []).cfg.inSize ∧
      (decodingAt 5 10 (streamX3.take 6) []).n.toNat < (decodingAt 5 10 (streamX3.take 6) []).ip.toNat +
        controlSize (classify ((decodingAt 5 10 (streamX3.take 6) []).inMem.read 5))) ∧
    (decodingAt 5 10 (streamX3.take 8) []).n.toNat < (decodingAt 5 10 (streamX3.take 8) []).ip.toNat +
      controlBytes (.shortCopy 2 8 2) + literalCount (.shortCopy 2 8 2) := by decide

/-- The three copy opcodes at the ends of their checks: every literal of the input, the whole declared size, the
offset that reaches OUT[0]. -/
theorem witness_CopyOpcodesComplete : (Instr.shortCopy 2 8 2).wellFormed = true ∧
    decX3.ip.toNat + 2 + 2 ≤ decX3.n.toNat ∧ decX3.n.toNat ≤ decX3.cfg.inSize ∧
    decX3.op.toNat + 2 + 8 ≤ decX3.dsize.toNat ∧ decX3.dsize.toNat ≤ decX3.cfg.outSize ∧
    2 ≤ decX3.op.toNat + 2 ∧
    (Instr.mediumCopy 2 8 2).wellFormed = true ∧ decX3.ip.toNat + 3 + 2 ≤ decX3.n.toNat ∧
    (Instr.longCopy 1 8 1).wellFormed = true ∧ decX3.ip.toNat + 4 + 1 ≤ decX3.n.toNat := by decide

theorem witness_LiteralRunCompletes : (Instr.literalRun 4).wellFormed = true ∧
    decX3.ip.toNat + 1 + 4 ≤ decX3.n.toNat ∧ decX3.n.toNat ≤ decX3.cfg.inSize ∧
    decX3.op.toNat + 4 ≤ decX3.dsize.toNat ∧ decX3.dsize.toNat ≤ decX3.cfg.outSize := by decide

/-- P2's StreamEnd, and one with EXPECT met. -/
theorem witness_StreamEndCompletes : (Instr.streamEnd 2).wellFormed = true ∧
    (decodingAt 21 20 streamP2 (outputP2.take 18)).ip.toNat + 1 + 2 ≤
      (decodingAt 21 20 streamP2 (outputP2.take 18)).n.toNat ∧
    (decodingAt 21 20 streamP2 (outputP2.take 18)).n.toNat ≤
      (decodingAt 21 20 streamP2 (outputP2.take 18)).cfg.inSize ∧
    (decodingAt 21 20 streamP2 (outputP2.take 18)).op.toNat + 2 =
      (decodingAt 21 20 streamP2 (outputP2.take 18)).dsize.toNat ∧
    (decodingAt 21 20 streamP2 (outputP2.take 18)).dsize.toNat ≤
      (decodingAt 21 20 streamP2 (outputP2.take 18)).cfg.outSize ∧
    ({ decodingAt 21 20 streamP2 (outputP2.take 18) with ctrl := 1#32, expect := 20#32 }.expectEn = true ∧
      { decodingAt 21 20 streamP2 (outputP2.take 18) with ctrl := 1#32, expect := 20#32 }.expect =
        { decodingAt 21 20 streamP2 (outputP2.take 18) with ctrl := 1#32, expect := 20#32 }.dsize) := by
  decide

/-- X18. -/
theorem witness_BadOffsetRaised : (Instr.shortCopy 2 8 3).isCopy = true ∧
    decX3.ip.toNat + controlBytes (.shortCopy 2 8 3) + literalCount (.shortCopy 2 8 3) ≤ decX3.n.toNat ∧
    decX3.n.toNat ≤ decX3.cfg.inSize ∧
    decX3.op.toNat + literalCount (.shortCopy 2 8 3) ≤ decX3.dsize.toNat ∧
    decX3.dsize.toNat ≤ decX3.cfg.outSize ∧
    decX3.op.toNat + literalCount (.shortCopy 2 8 3) < matchOffset (.shortCopy 2 8 3) := by decide

/-- X22, X21 and X20. -/
theorem witness_SizeMismatchRaised :
    ((decodingAt 5 1 streamX3 []).ip.toNat + controlBytes (.shortCopy 2 8 2) +
        literalCount (.shortCopy 2 8 2) ≤ (decodingAt 5 1 streamX3 []).n.toNat ∧
      (decodingAt 5 1 streamX3 []).dsize.toNat <
        (decodingAt 5 1 streamX3 []).op.toNat + literalCount (.shortCopy 2 8 2)) ∧
    ((decodingAt 5 9 streamX3 []).op.toNat + literalCount (.shortCopy 2 8 2) ≤
        (decodingAt 5 9 streamX3 []).dsize.toNat ∧
      matchOffset (.shortCopy 2 8 2) ≤
        (decodingAt 5 9 streamX3 []).op.toNat + literalCount (.shortCopy 2 8 2) ∧
      (decodingAt 5 9 streamX3 []).dsize.toNat < (decodingAt 5 9 streamX3 []).op.toNat +
        literalCount (.shortCopy 2 8 2) + matchLength (.shortCopy 2 8 2)) ∧
    ((decodingAt 9 11 streamX3 inputE3).ip.toNat + 1 + 0 ≤ (decodingAt 9 11 streamX3 inputE3).n.toNat ∧
      (decodingAt 9 11 streamX3 inputE3).n.toNat ≤ (decodingAt 9 11 streamX3 inputE3).cfg.inSize ∧
      (decodingAt 9 11 streamX3 inputE3).op.toNat + 0 < (decodingAt 9 11 streamX3 inputE3).dsize.toNat ∧
      (decodingAt 9 11 streamX3 inputE3).dsize.toNat ≤
        (decodingAt 9 11 streamX3 inputE3).cfg.outSize) := by decide

/-- DEC at the StreamEnd of X25. -/
def decX25 : State := { decodingAt 9 10 streamX3 inputE3 with ctrl := 1#32, expect := 11#32 }

/-- X25, and X26 for the second clause. -/
theorem witness_ExpectMismatchRaised : decX25.ip.toNat + 1 + 0 ≤ decX25.n.toNat ∧
    decX25.n.toNat ≤ decX25.cfg.inSize ∧ decX25.op.toNat + 0 = decX25.dsize.toNat ∧
    decX25.dsize.toNat ≤ decX25.cfg.outSize ∧ decX25.expectEn = true ∧ decX25.expect ≠ decX25.dsize ∧
    { decX25 with ctrl := 0#32 }.expectEn = false ∧ { decX25 with ctrl := 0#32 }.errInfo ≠ 0x061#32 ∧
    resultOf (exec (.streamEnd 0) { decX25 with ctrl := 0#32 }) = some [2, 0, 0, 0, 10] := by decide

theorem witness_OpcodeChangesOnly : (Instr.shortCopy 2 8 2).isOpcode = true ∧ decX3.status = 1#32 ∧
    resultOf (exec (.shortCopy 2 8 2) decX3) = some [1, 0, 0, 0, 0] := by decide

/-- The large form of X6, and the small form of X3. -/
theorem witness_DecompressStarts :
    (idleWith streamX3).busy = false ∧ (idleWith streamX3).operandsFit = true ∧
    (idleWith streamX3).inMem.read 0 = (idleWith streamX3).cfg.magic0 ∧
    (idleWith streamX3).inMem.read 1 &&& ~~~(idleWith streamX3).cfg.largeMask =
      (idleWith streamX3).cfg.magic1 ∧
    ¬(idleWith streamX3).inMem.read 1 &&& (idleWith streamX3).cfg.largeMask ≠ 0#8 ∧
    5 ≤ (idleWith streamX3).inLen.toNat ∧ 10 ≤ (idleWith streamX3).outCap.toNat := by decide

/-- The stream of X6. -/
def streamX6 : List Byte := [0x10#8, 0xFF#8, 0x00#8, 0x00#8, 0x00#8, 0x03#8, 0xFF#8, 0x61#8, 0x62#8, 0x63#8]

theorem witness_DecompressStarts_large :
    (idleWith streamX6).inMem.read 1 &&& ~~~(idleWith streamX6).cfg.largeMask =
      (idleWith streamX6).cfg.magic1 ∧
    (idleWith streamX6).inMem.read 1 &&& (idleWith streamX6).cfg.largeMask ≠ 0#8 ∧
    6 ≤ (idleWith streamX6).inLen.toNat ∧ 3 ≤ (idleWith streamX6).outCap.toNat := by decide

/-- X12, X15, X13 and X27. -/
theorem witness_DecompressHeaderErrors :
    ((idleWith [0x10#8]).busy = false ∧ (idleWith [0x10#8]).operandsFit = true ∧
      (idleWith [0x10#8]).inLen.toNat < 2) ∧
    (2 ≤ (idleWith (0x11#8 :: streamX3.tail)).inLen.toNat ∧
      (idleWith (0x11#8 :: streamX3.tail)).inMem.read 0 ≠ (idleWith streamX3).cfg.magic0) ∧
    (2 ≤ (idleWith (streamX3.take 4)).inLen.toNat ∧ (idleWith (streamX3.take 4)).inMem.read 0 = 0x10#8 ∧
      (idleWith (streamX3.take 4)).inMem.read 1 &&& ~~~0x04#8 = 0xFB#8 ∧
      ¬(idleWith (streamX3.take 4)).inMem.read 1 &&& 0x04#8 ≠ 0#8 ∧
      (idleWith (streamX3.take 4)).inLen.toNat < 5) ∧
    (5 ≤ (idleWith streamX3).inLen.toNat ∧ (idleWith streamX3).inMem.read 0 = 0x10#8 ∧
      (idleWith streamX3).inMem.read 1 &&& ~~~0x04#8 = 0xFB#8 ∧
      { idleWith streamX3 with outCap := 9#32 }.operandsFit = true ∧
      { idleWith streamX3 with outCap := 9#32 }.outCap.toNat < ((idleWith streamX3).inMem.read 2).toNat * 65536 +
        ((idleWith streamX3).inMem.read 3).toNat * 256 + ((idleWith streamX3).inMem.read 4).toNat) := by decide

/-- X14: a large header of 5 bytes. -/
theorem witness_DecompressHeaderErrors_large :
    (idleWith [0x10#8, 0xFF#8, 0x00#8, 0x00#8, 0x00#8]).inMem.read 1 &&& ~~~0x04#8 = 0xFB#8 ∧
    (idleWith [0x10#8, 0xFF#8, 0x00#8, 0x00#8, 0x00#8]).inMem.read 1 &&& 0x04#8 ≠ 0#8 ∧
    (idleWith [0x10#8, 0xFF#8, 0x00#8, 0x00#8, 0x00#8]).inLen.toNat < 6 := by decide

theorem witness_CompressStarts : (idleWith inputE3).busy = false ∧ (idleWith inputE3).operandsFit = true ∧
    ¬2 ^ 24 - 1 < (idleWith inputE3).inLen.toNat ∧ 5 ≤ { idleWith inputE3 with outCap := 5#32 }.outCap.toNat ∧
    { idleWith inputE3 with outCap := 5#32 }.operandsFit = true := by decide

theorem witness_CompressStarts_large : { State.reset with inLen := 0x1000000#32, outCap := 6#32 }.operandsFit = true ∧
    2 ^ 24 - 1 < { State.reset with inLen := 0x1000000#32, outCap := 6#32 }.inLen.toNat ∧
    6 ≤ { State.reset with inLen := 0x1000000#32, outCap := 6#32 }.outCap.toNat := by decide

theorem witness_CompressHeaderDoesNotFit : { idleWith inputE3 with outCap := 4#32 }.busy = false ∧
    { idleWith inputE3 with outCap := 4#32 }.operandsFit = true ∧
    { idleWith inputE3 with outCap := 4#32 }.outCap.toNat <
      (if 2 ^ 24 - 1 < { idleWith inputE3 with outCap := 4#32 }.inLen.toNat then 6 else 5) := by decide

theorem witness_UnacceptedCommandsHaveNoEffect :
    ((0x103#32 : Word).toNat % 256 ≠ 1 ∧ (0x103#32 : Word).toNat % 256 ≠ 2) ∧
    { decX3 with host := [.writeReg .cmd 1#32] }.busy = true := by decide

theorem witness_OperandsBeyondMemoryRefused : { idleWith inputE3 with inLen := 65#32 }.busy = false ∧
    { idleWith inputE3 with inLen := 65#32 }.cfg.inSize < { idleWith inputE3 with inLen := 65#32 }.inLen.toNat ∧
    { idleWith inputE3 with outCap := 65#32 }.cfg.outSize <
      { idleWith inputE3 with outCap := 65#32 }.outCap.toNat := by decide

theorem witness_MatchFinderSelectsLongestNearest : (2 : Nat) ≤ 10 ∧
    matchFinder (memoryOf 0 inputE3) 10 2 = some (2, 8) ∧
    matchFinder (memoryOf 0 inputE3) 10 10 = none := by decide

theorem witness_EmittedOpcodeIsValid : matchFinder (memoryOf 0 inputE3) 10 2 = some (2, 8) ∧ (3 : Nat) ≤ 3 := by
  decide

theorem witness_EncoderPassesUnmatchedByte : (encodingAt 0 0 inputE3 headerE3).host = [] ∧
    (encodingAt 0 0 inputE3 headerE3).busy = true ∧ (encodingAt 0 0 inputE3 headerE3).unit = .enc ∧
    (encodingAt 0 0 inputE3 headerE3).cur.toNat < (encodingAt 0 0 inputE3 headerE3).n.toNat ∧
    (encodingAt 0 0 inputE3 headerE3).n.toNat ≤ (encodingAt 0 0 inputE3 headerE3).cfg.inSize ∧
    ∀ o len, ¬Candidate (encodingAt 0 0 inputE3 headerE3).inMem (encodingAt 0 0 inputE3 headerE3).n.toNat
      (encodingAt 0 0 inputE3 headerE3).cur.toNat o len :=
  ⟨by decide, by decide, by decide, by decide, by decide, fun o _ h =>
    absurd h.2.1 (by have := h.1; change ¬o ≤ 0; omega)⟩

/-- E3's match, with exactly the room it takes. -/
theorem witness_EncoderEmitsMatch : encE3.Inv ∧ encE3.host = [] ∧ encE3.busy = true ∧ encE3.unit = .enc ∧
    encE3.cur.toNat < encE3.n.toNat ∧
    matchFinder encE3.inMem encE3.n.toNat encE3.cur.toNat = some (2, 8) ∧
    encE3.op.toNat + flushLength 2 + (encode (classOpcode 2 2 8)).length + 2 ≤ encE3.outCap.toNat :=
  ⟨inv_encE3, by decide, by decide, by decide, by decide, by decide, by decide⟩

theorem witness_EncoderEndsStream : encE3End.Inv ∧ encE3End.host = [] ∧ encE3End.busy = true ∧
    encE3End.unit = .enc ∧ encE3End.cur = encE3End.n ∧
    encE3End.op.toNat + flushLength 0 + 1 + 0 ≤ encE3End.outCap.toNat :=
  ⟨inv_encE3End, by decide, by decide, by decide, by decide, by decide⟩

/-- E3's end with a full OUT (K2). -/
def encK2 : State := { encE3End with outCap := 9#32 }

theorem inv_encK2 : encK2.Inv :=
  { inv_encE3End with
    running := fun _ =>
      { n_eq := by decide
        in_fits := by decide
        out_fits := by decide
        hdr_eq := by decide
        dec_pointers := fun h => absurd h (by decide)
        enc_pointers := fun _ => ⟨by decide, by decide, by decide, by decide⟩ } }

/-- E3's match with an OUT that holds the header and three bytes of the four. -/
def encFullE3 : State := { encE3 with outCap := 8#32 }

theorem inv_encFullE3 : encFullE3.Inv :=
  { inv_encE3 with
    running := fun _ =>
      { n_eq := by decide
        in_fits := by decide
        out_fits := by decide
        hdr_eq := by decide
        dec_pointers := fun h => absurd h (by decide)
        enc_pointers := fun _ => ⟨by decide, by decide, by decide, by decide⟩ } }

theorem witness_EncoderFailsOnlyForCapacity : encK2.Inv ∧ encK2.host = [] ∧ encK2.busy = true ∧
    encK2.unit = .enc ∧ resultOf (step encK2) = some [6, 0x072, 10, 9, 0] ∧ encK2.cur = encK2.n ∧
    encK2.outCap.toNat < encK2.op.toNat + flushLength 0 + 1 + 0 :=
  ⟨inv_encK2, by decide, by decide, by decide, by decide, by decide, by decide⟩

theorem witness_EncoderFailsOnlyForCapacity_match : encFullE3.Inv ∧ encFullE3.host = [] ∧
    encFullE3.busy = true ∧ encFullE3.unit = .enc ∧ encFullE3.cur.toNat < encFullE3.n.toNat ∧
    matchFinder encFullE3.inMem encFullE3.n.toNat encFullE3.cur.toNat = some (2, 8) ∧
    encFullE3.outCap.toNat < encFullE3.op.toNat + flushLength 2 + (encode (classOpcode 2 2 8)).length + 2 :=
  ⟨inv_encFullE3, by decide, by decide, by decide, by decide, by decide, by decide⟩

theorem witness_CompressOutputSize : (idleWith inputE3).Inv ∧ (idleWith inputE3).host = [] ∧
    (idleWith inputE3).busy = false ∧ (idleWith inputE3).operandsFit = true ∧
    6 + (idleWith inputE3).inLen.toNat + (idleWith inputE3).inLen.toNat / 112 + 2 ≤
      (idleWith inputE3).outCap.toNat :=
  ⟨inv_idle, by decide, by decide, by decide, by decide⟩

/-- The state after a step, or reset where there is none. -/
def stateOf : Host.Outcome State Fault Refusal → State
  | .next s => s
  | .fault _ => State.reset
  | .refused _ => State.reset

/-- The stream of E1 and X1. -/
def streamX1 : List Byte := [0x10#8, 0xFB#8, 0x00#8, 0x00#8, 0x00#8, 0xFC#8]

theorem inv_empty : (idleWith []).Inv :=
  { inv_idle with
    in_wf := by decide
    in_within := by decide
    in_tags := by decide
    running := fun h => absurd h (by decide) }

/-- ENC running on an empty input. -/
def encE1 : State := stateOf (exec .compress (idleWith []))

/-- E1 done. -/
def doneE1 : State := stateOf (Host.Core.run core 1 encE1)

/-- E1, then X1. -/
theorem witness_CompressThenDecompressRoundTrip : (idleWith []).Inv ∧ (idleWith []).host = [] ∧
    (idleWith []).busy = false ∧ (idleWith []).operandsFit = true ∧
    exec .compress (idleWith []) = .next encE1 ∧ Host.Core.run core 1 encE1 = .next doneE1 ∧
    doneE1.status = 2#32 ∧ (idleWith streamX1).cfg.magic0 = (idleWith []).cfg.magic0 ∧
    (idleWith streamX1).cfg.magic1 = (idleWith []).cfg.magic1 ∧
    (idleWith streamX1).cfg.largeMask = (idleWith []).cfg.largeMask ∧ (idleWith streamX1).host = [] ∧
    (idleWith streamX1).busy = false ∧ (idleWith streamX1).operandsFit = true ∧
    (idleWith streamX1).inLen = doneE1.outLen ∧
    (∀ a, a < doneE1.outLen.toNat → (idleWith streamX1).inMem.read a = doneE1.outMem.read a) ∧
    (idleWith []).inLen.toNat ≤ (idleWith streamX1).outCap.toNat ∧
    ¬(idleWith streamX1).expectEn = true :=
  ⟨inv_empty, by decide, by decide, by decide, rfl, rfl, by decide, by decide, by decide, by decide,
    by decide, by decide, by decide, by decide, by decide, by decide, by decide⟩

/-- A single byte, "A" (E2). -/
def idleE2 : State := idleWith [0x41#8]

theorem inv_E2 : idleE2.Inv :=
  { inv_idle with
    in_wf := by decide
    in_within := by decide
    in_tags := by decide
    running := fun h => absurd h (by decide) }

/-- ENC running on E2. -/
def encE2 : State := stateOf (exec .compress idleE2)

/-- E2 done. -/
def doneE2 : State := stateOf (Host.Core.run core 2 encE2)

/-- E2: nothing for MF to find. -/
theorem witness_CompressOutputSize_ended : idleE2.Inv ∧ idleE2.host = [] ∧ idleE2.busy = false ∧
    idleE2.operandsFit = true ∧ exec .compress idleE2 = .next encE2 ∧
    Host.Core.run core 2 encE2 = .next doneE2 ∧ doneE2.status = 2#32 ∧ idleE2.inLen.toNat = 1 ∧
    ∀ cur, cur < 1 → matchFinder idleE2.inMem 1 cur = none :=
  ⟨inv_E2, by decide, by decide, by decide, rfl, rfl, by decide, by decide, by decide⟩

theorem witness_RunningCommandEnds : (decX3.Inv ∧ decX3.host = [] ∧ decX3.busy = true ∧ decX3.unit = .dec) ∧
    (encE3.Inv ∧ encE3.host = [] ∧ encE3.busy = true ∧ encE3.unit = .enc) :=
  ⟨⟨inv_decX3, by decide, by decide, by decide⟩, ⟨inv_encE3, by decide, by decide, by decide⟩⟩

/-- A state that differs from that of X1 in what the outcome does not depend on. -/
def otherX1 : State := { idleWith streamX1 with op := 7#32, errIp := 3#32, outMem := memoryOf 1 [0x55#8] }

theorem witness_DecompressDependsOnlyOnOperands : (idleWith streamX1).host = [] ∧ otherX1.host = [] ∧
    (idleWith streamX1).busy = false ∧ otherX1.busy = false ∧ (idleWith streamX1).operandsFit = true ∧
    otherX1.operandsFit = true ∧ otherX1.cfg = (idleWith streamX1).cfg ∧
    otherX1.inLen = (idleWith streamX1).inLen ∧ otherX1.outCap = (idleWith streamX1).outCap ∧
    otherX1.expect = (idleWith streamX1).expect ∧ otherX1.expectEn = (idleWith streamX1).expectEn ∧
    (∀ a, a < (idleWith streamX1).inLen.toNat →
      otherX1.inMem.read a = (idleWith streamX1).inMem.read a) ∧
    exec .decompress (idleWith streamX1) = .next (stateOf (exec .decompress (idleWith streamX1))) ∧
    Host.Core.run core 1 (stateOf (exec .decompress (idleWith streamX1))) =
      .next (stateOf (Host.Core.run core 1 (stateOf (exec .decompress (idleWith streamX1))))) ∧
    (stateOf (Host.Core.run core 1 (stateOf (exec .decompress (idleWith streamX1))))).busy = false :=
  ⟨by decide, by decide, by decide, by decide, by decide, by decide, by decide, by decide, by decide,
    by decide, by decide, by decide, rfl, rfl, by decide⟩

/-- A state that differs from that of E1 in what the outcome does not depend on. -/
def otherE1 : State := { idleWith [] with cur := 9#32, expect := 3#32, inMem := memoryOf 0 [0x55#8] }

theorem witness_CompressDependsOnlyOnOperands : (idleWith []).host = [] ∧ otherE1.host = [] ∧
    (idleWith []).busy = false ∧ otherE1.busy = false ∧ (idleWith []).operandsFit = true ∧
    otherE1.operandsFit = true ∧ otherE1.cfg = (idleWith []).cfg ∧ otherE1.inLen = (idleWith []).inLen ∧
    otherE1.outCap = (idleWith []).outCap ∧
    (∀ a, a < (idleWith []).inLen.toNat → otherE1.inMem.read a = (idleWith []).inMem.read a) ∧
    exec .compress (idleWith []) = .next encE1 ∧ Host.Core.run core 1 encE1 = .next doneE1 ∧
    doneE1.busy = false :=
  ⟨by decide, by decide, by decide, by decide, by decide, by decide, by decide, by decide, by decide,
    by decide, rfl, rfl, by decide⟩

theorem witness_ResetEventClears : { decX3 with host := [.reset] }.host = .reset :: [] := by decide

theorem witness_IdleStaysIdle : (idleWith inputE3).busy = false ∧ (idleWith inputE3).host = [] ∧
    { idleWith inputE3 with host := [.tick] }.host = .tick :: [] ∧
    { idleWith inputE3 with host := [.await] }.host = .await :: [] := by decide

theorem witness_IdleRegisterAccess :
    { idleWith inputE3 with host := [.writeReg .ctrl 0xFFFFFFFF#32, .readReg .ctrl] }.busy = false ∧
    { idleWith inputE3 with host := [.writeReg .ctrl 0xFFFFFFFF#32, .readReg .ctrl] }.host =
      .writeReg .ctrl 0xFFFFFFFF#32 :: [.readReg .ctrl] ∧
    { idleWith inputE3 with host := [.readReg .errOp] }.host = .readReg .errOp :: [] ∧
    { idleWith inputE3 with host := [.writeReg .status 7#32] }.host = .writeReg .status 7#32 :: [] := by decide

theorem witness_BusyHostAccess : decX3.status = 1#32 ∧
    { decX3 with host := [.writeReg .inLen 5#32] }.host = .writeReg .inLen 5#32 :: [] ∧
    { decX3 with host := [.readReg .status] }.host = .readReg .status :: [] ∧
    { decX3 with host := [.readReg .outLen] }.host = .readReg .outLen :: [] ∧
    { decX3 with host := [.readReg .ctrl] }.host = .readReg .ctrl :: [] ∧
    { decX3 with host := [.writeIn 0 1#8] }.host = .writeIn 0 1#8 :: [] ∧
    { decX3 with host := [.readOut 0] }.host = .readOut 0 :: [] := by decide

/-- The last address of a memory of 64 bytes, and the first it does not have. -/
theorem witness_IdleMemoryAccess : (idleWith inputE3).busy = false ∧ 63 < (idleWith inputE3).cfg.inSize ∧
    63 < (idleWith inputE3).cfg.outSize ∧ (idleWith inputE3).cfg.inSize ≤ 64 ∧
    (idleWith inputE3).cfg.outSize ≤ 64 := by decide

theorem witness_ResultStaysUntilNextCommand :
    { idleWith inputE3 with host := [.writeIn 63 1#8] }.busy = false ∧
    HostMove.writeIn 63 1#8 ≠ .reset ∧
    resultOf (step { idleWith inputE3 with host := [.writeIn 63 1#8] }) = some [0, 0, 0, 0, 0] := by decide

theorem witness_OutputBeyondResultIsFree : encK2.Inv ∧ encK2.host = [] ∧ encK2.busy = true ∧
    (stateOf (step encK2)).busy = false ∧ resultOf (step encK2) = some [6, 0x072, 10, 9, 0] ∧
    (idleWith [0x10#8]).busy = false ∧ Instr.decompress.isOpcode = false ∧
    resultOf (exec .decompress (idleWith [0x10#8])) = some [6, 0x011, 0, 0, 0] :=
  ⟨inv_encK2, by decide, by decide, by decide, by decide, by decide, by decide, by decide⟩

theorem witness_StepKeepsInvariant : decX3.Inv ∧ resultOf (step decX3) = some [1, 0, 0, 0, 0] :=
  ⟨inv_decX3, by decide⟩

theorem witness_EngineNeverStops : decX3.Inv ∧ decX3.host = [] := ⟨inv_decX3, by decide⟩

theorem witness_EngineReadsInOnly : encE3.host = [] ∧ resultOf (step encE3) = some [1, 0, 0, 0, 0] := by decide

theorem witness_OutputIsAppendOnly : encE3.Inv ∧ encE3.host = [] ∧ encE3.busy = true ∧
    resultOf (step encE3) = some [1, 0, 0, 0, 0] := ⟨inv_encE3, by decide, by decide, by decide⟩

theorem witness_ParametersNeverChange : resultOf (step encE3) = some [1, 0, 0, 0, 0] := by decide

end Sys2Proof.Tests
end

section
/-! Proofs of the statements about the state: the invariant and its preservation by every step, what a step never
changes, and the host's accesses while idle. -/

namespace Sys2Proof.Machine

/-! ### Sound memories -/

/-- What the invariant says of one memory of `size` bytes, `t` being the first tag not taken. -/
structure Memory.Sound (size t : Nat) (m : Memory) : Prop where
  wf : m.wf
  within : m.within size
  tags : m.tagsBelow t

theorem Memory.Sound.write {size t a : Nat} {m : Memory} (h : m.Sound size t) (b : Byte) (ha : a < size) :
    (m.write a b).Sound size t :=
  ⟨m.write_wf a b h.wf, m.write_within size a b h.within ha, m.write_tagsBelow t a b h.tags⟩

theorem Memory.Sound.forgetFrom {size t t' u : Nat} {m : Memory} (h : m.Sound size t) (k : Nat) (hu : u < t')
    (ht : t ≤ t') : (m.forgetFrom k u).Sound size t' :=
  ⟨m.forgetFrom_wf k u h.wf, m.forgetFrom_within size k u h.within, m.forgetFrom_tagsBelow t t' k u h.tags hu ht⟩

theorem Memory.Sound.mono {size t t' : Nat} {m : Memory} (h : m.Sound size t) (ht : t ≤ t') : m.Sound size t' :=
  ⟨h.wf, h.within, m.tagsBelow_mono t t' h.tags ht⟩

theorem pushAll_sound {size t : Nat} {s : State} (vs : List Byte) (h : s.outMem.Sound size t)
    (hop : s.op.toNat + vs.length ≤ size) (hw : s.op.toNat + vs.length < 2 ^ 32) :
    (pushAll vs s).outMem.Sound size t :=
  ⟨pushAll_wf vs s h.wf, pushAll_within vs s size h.within hop hw, pushAll_tagsBelow vs s t h.tags⟩

theorem copyMatch_sound {size t : Nat} {s : State} (off len : Nat) (h : s.outMem.Sound size t)
    (hop : s.op.toNat + len ≤ size) (hw : s.op.toNat + len < 2 ^ 32) : (copyMatch off len s).outMem.Sound size t :=
  ⟨copyMatch_wf off len s h.wf, copyMatch_within off len s size h.within hop hw,
    copyMatch_tagsBelow off len s t h.tags⟩

theorem afterLiterals_sound {size t : Nat} {s : State} (k lit : Nat) (h : s.outMem.Sound size t)
    (hop : s.op.toNat + lit ≤ size) (hw : s.op.toNat + lit < 2 ^ 32) :
    (afterLiterals k lit s).outMem.Sound size t := by
  simp only [afterLiterals, copyLiterals_eq]
  exact pushAll_sound _ h (by simpa using hop) (by simpa using hw)

theorem afterOpcode_sound {size t : Nat} {s : State} (i : Instr) (h : s.outMem.Sound size t)
    (hop : s.op.toNat + literalCount i + matchLength i ≤ size)
    (hw : s.op.toNat + literalCount i + matchLength i < 2 ^ 32) : (afterOpcode i s).outMem.Sound size t := by
  have hop' : (afterLiterals (controlBytes i) (literalCount i) s).op.toNat = s.op.toNat + literalCount i := by
    rw [afterLiterals_op, toNat_add_word _ _ (by omega)]
  exact copyMatch_sound _ _ (afterLiterals_sound _ _ h (by omega) (by omega)) (by omega) (by omega)

/-! ### The parts of the invariant -/

/-- The part of the invariant that every state has, whatever its phase: no working register and no result occurs in
it. -/
structure State.Sound (s : State) : Prop where
  cfg_wf : s.cfg.wf = true
  in_mem : s.inMem.Sound s.cfg.inSize s.freeTag
  out_mem : s.outMem.Sound s.cfg.outSize s.freeTag
  ctrl_kept : ctrlKept s.ctrl = s.ctrl

/-- The host registers that report on a command hold no error and no result, as its acceptance leaves them
(43_host_commands R233). -/
structure State.NoReport (s : State) : Prop where
  errInfo : s.errInfo = 0#32
  errIp : s.errIp = 0#32
  errOp : s.errOp = 0#32
  outLen : s.outLen = 0#32

theorem State.Inv.sound {s : State} (h : s.Inv) : s.Sound :=
  ⟨h.cfg_wf, ⟨h.in_wf, h.in_within, h.in_tags⟩, ⟨h.out_wf, h.out_within, h.out_tags⟩, h.ctrl_kept⟩

theorem State.Inv.noReport {s : State} (h : s.Inv) (hb : s.busy = true) : s.NoReport := by
  have hst : s.status = 1#32 := status_of_busy h.status_legal hb
  obtain ⟨hi, hp, ho⟩ := h.no_err_info (by rw [State.err, hst]; decide)
  exact ⟨hi, hp, ho, h.no_result (by rw [hst]; decide)⟩

/-- A state that reports nothing, idle or with the pointers of its command in order, meets the invariant. -/
theorem State.Sound.inv_of_noReport {s : State} (h : s.Sound) (hst : s.status = 0#32 ∨ s.status = 1#32)
    (hn : s.NoReport) (hr : s.busy = true → s.Running) : s.Inv :=
  have he : ¬ s.err = true := by
    rcases hst with hst | hst <;> rw [State.err, hst] <;> decide
  { cfg_wf := h.cfg_wf
    in_wf := h.in_mem.wf
    out_wf := h.out_mem.wf
    in_within := h.in_mem.within
    out_within := h.out_mem.within
    in_tags := h.in_mem.tags
    out_tags := h.out_mem.tags
    status_legal := hst.imp id .inl
    err_info := fun he' => absurd he' he
    no_err_info := fun _ => ⟨hn.errInfo, hn.errIp, hn.errOp⟩
    no_result := fun _ => hn.outLen
    result_fits := by rw [hn.outLen]; exact Nat.zero_le _
    ctrl_kept := h.ctrl_kept
    running := hr }

theorem State.Sound.running_inv {s : State} (h : s.Sound) (hst : s.status = 1#32) (hn : s.NoReport)
    (hr : s.Running) : s.Inv := h.inv_of_noReport (.inr hst) hn fun _ => hr

@[simp] theorem State.raise_busy (c : Cause) (ip op : Word) (s : State) : (s.raise c ip op).busy = false := by
  simp [State.busy]

@[simp] theorem State.halt_busy (s : State) : s.halt.busy = false := by simp [State.busy]

@[simp] theorem State.resetEvent_busy (s : State) : s.resetEvent.busy = false := by simp [State.busy]

theorem errInfoWord_legal (c : Cause) {s : State} (h : s.errInfo = errInfoWord c) : s.errInfoLegal := by
  rw [State.errInfoLegal, h]
  cases c <;> decide

/-- An error leaves the invariant, whatever state it is taken in (60_exceptions R263, R264). -/
theorem State.Sound.raise_inv {s : State} (h : s.Sound) (c : Cause) (ip op : Word) : (s.raise c ip op).Inv :=
  have hout : (s.raise c ip op).outMem.Sound s.cfg.outSize (s.freeTag + 2) :=
    h.out_mem.forgetFrom 0 (by omega) (by omega)
  have hin : s.inMem.Sound s.cfg.inSize (s.freeTag + 2) := h.in_mem.mono (by omega)
  { cfg_wf := h.cfg_wf
    in_wf := hin.wf
    out_wf := hout.wf
    in_within := hin.within
    out_within := hout.within
    in_tags := hin.tags
    out_tags := hout.tags
    status_legal := .inr (.inr (.inr rfl))
    err_info := fun _ => errInfoWord_legal c rfl
    no_err_info := fun he => absurd he (by simp [State.err])
    no_result := fun _ => rfl
    result_fits := Nat.zero_le _
    ctrl_kept := h.ctrl_kept
    running := fun hb => absurd hb (by simp) }

/-- The normal end leaves the invariant where no error was recorded and OUT_LEN lies in OUT (43_host_commands
R236). -/
theorem State.Sound.halt_inv {s : State} (h : s.Sound) (hi : s.errInfo = 0#32) (hp : s.errIp = 0#32)
    (ho : s.errOp = 0#32) (hlen : s.outLen.toNat ≤ s.cfg.outSize) : s.halt.Inv :=
  have hout : s.halt.outMem.Sound s.cfg.outSize (s.freeTag + 2) := h.out_mem.forgetFrom _ (by omega) (by omega)
  have hin : s.inMem.Sound s.cfg.inSize (s.freeTag + 2) := h.in_mem.mono (by omega)
  { cfg_wf := h.cfg_wf
    in_wf := hin.wf
    out_wf := hout.wf
    in_within := hin.within
    out_within := hout.within
    in_tags := hin.tags
    out_tags := hout.tags
    status_legal := .inr (.inr (.inl rfl))
    err_info := fun he => absurd he (by simp [State.err])
    no_err_info := fun _ => ⟨hi, hp, ho⟩
    no_result := fun hne => absurd rfl hne
    result_fits := hlen
    ctrl_kept := h.ctrl_kept
    running := fun hb => absurd hb (by simp) }

/-- The reset event leaves the invariant (70_reset_and_hazards R291, R292). -/
theorem State.Sound.resetEvent_inv {s : State} (h : s.Sound) : s.resetEvent.Inv :=
  State.Sound.inv_of_noReport
    { cfg_wf := h.cfg_wf
      in_mem := h.in_mem.forgetFrom 0 (by simp) (by simp)
      out_mem := h.out_mem.forgetFrom 0 (by simp) (by simp)
      ctrl_kept := by rw [State.resetEvent_ctrl]; decide }
    (.inl rfl) ⟨rfl, rfl, rfl, rfl⟩ fun hb => absurd hb (by simp)

/-! ### A step of DEC -/

/-- DEC's pointers stay in order when `ip` moves up inside the input and `op` below the declared size. -/
theorem State.Running.dec_advance {s : State} (h : s.Running) (hu : s.unit = .dec) {ip op : Word} (l : Latch)
    (m : Memory) (hge : s.ip.toNat ≤ ip.toNat) (hle : ip.toNat ≤ s.n.toNat) (hop : op.toNat ≤ s.dsize.toNat) :
    ({ s with ip := ip, op := op, latch := l, outMem := m } : State).Running :=
  have hd := h.dec_pointers hu
  { n_eq := h.n_eq
    in_fits := h.in_fits
    out_fits := h.out_fits
    hdr_eq := h.hdr_eq
    dec_pointers := fun _ => ⟨hd.hdr_le_ip.trans hge, hle, hop, hd.dsize_le_outCap⟩
    enc_pointers := fun hu' => absurd (hu.symm.trans hu') (by decide) }

/-- The declared size of a running DEC lies in OUT. -/
theorem State.Running.dsize_le_outSize {s : State} (h : s.Running) (hu : s.unit = .dec) :
    s.dsize.toNat ≤ s.cfg.outSize := (h.dec_pointers hu).dsize_le_outCap.trans h.out_fits

theorem afterOpcode_latchOpcode_eq (i : Instr) (s : State) :
    afterOpcode i (s.latchOpcode i) = { s with
      ip := s.ip + word (controlBytes i + literalCount i)
      op := s.op + word (literalCount i + matchLength i)
      latch := latchOf s.latch i
      outMem := (afterOpcode i (s.latchOpcode i)).outMem } := afterOpcode_eq i (s.latchOpcode i)

theorem afterEndLiterals_latchOpcode_eq (lit : Nat) (i : Instr) (s : State) :
    afterEndLiterals lit (s.latchOpcode i) = { s with
      ip := s.ip + word (1 + lit)
      op := s.op + word lit
      latch := latchOf s.latch i
      outLen := s.op + word lit
      outMem := (afterLiterals 1 lit (s.latchOpcode i)).outMem } := by
  rw [afterEndLiterals, afterLiterals_eq]; rfl

/-- An opcode that completes keeps the invariant (40_decoder_opcodes R147). -/
theorem State.Inv.afterOpcode_inv {s : State} {i : Instr} (h : s.Inv) (hb : s.busy = true) (hu : s.unit = .dec)
    (hf : LiteralsFit (controlBytes i) (literalCount i) s)
    (hd : s.op.toNat + literalCount i + matchLength i ≤ s.dsize.toNat) :
    (afterOpcode i (s.latchOpcode i)).Inv := by
  have hr := h.running hb
  have hsize := hr.dsize_le_outSize hu
  have hin := hf.input
  have hn := s.n.isLt
  have hds := s.dsize.isLt
  have hip : (s.ip + word (controlBytes i + literalCount i)).toNat =
      s.ip.toNat + (controlBytes i + literalCount i) := toNat_add_word _ _ (by omega)
  have hop : (s.op + word (literalCount i + matchLength i)).toNat =
      s.op.toNat + (literalCount i + matchLength i) := toNat_add_word _ _ (by omega)
  have hout : (afterOpcode i (s.latchOpcode i)).outMem.Sound s.cfg.outSize s.freeTag :=
    afterOpcode_sound i h.sound.out_mem (hd.trans hsize) (hd.trans_lt hds)
  rw [afterOpcode_latchOpcode_eq]
  exact State.Sound.running_inv { h.sound with out_mem := hout } (status_of_busy h.status_legal hb)
    { h.noReport hb with } (hr.dec_advance hu _ _ (by omega) (by omega) (by omega))

/-- StreamEnd's normal end keeps the invariant (40_decoder_opcodes R140). -/
theorem State.Inv.decEnd_inv {s : State} {lit : Nat} (h : s.Inv) (hb : s.busy = true)
    (hf : LiteralsFit 1 lit s) : (afterEndLiterals lit (s.latchOpcode (.streamEnd lit))).halt.Inv := by
  have hn := h.noReport hb
  have hds := s.dsize.isLt
  have hop := hf.output
  have hout : (afterLiterals 1 lit (s.latchOpcode (.streamEnd lit))).outMem.Sound s.cfg.outSize s.freeTag :=
    afterLiterals_sound 1 lit h.sound.out_mem hf.outCovers (hop.trans_lt hds)
  rw [afterEndLiterals_latchOpcode_eq]
  refine State.Sound.halt_inv { h.sound with out_mem := hout } hn.errInfo hn.errIp hn.errOp ?_
  rw [toNat_add_word _ _ (by omega)]
  exact hf.outCovers

theorem State.Inv.decStep_inv {s t : State} (h : s.Inv) (hb : s.busy = true) (hu : s.unit = .dec)
    (hs : decStep s = .next t) : t.Inv := by
  rcases decStep_cases (h.running hb) hu with ⟨c, ip, op, he⟩ | ⟨i, _, _, hf, _, hd, he⟩ | ⟨lit, hf, _, he⟩ <;>
    cases he.symm.trans hs
  · exact h.sound.raise_inv c ip op
  · exact h.afterOpcode_inv hb hu hf hd
  · exact h.decEnd_inv hb hf

/-! ### A step of ENC -/

/-- ENC's pointers stay in order when `op` moves up inside the capacity and `ls <= cur` inside the input. -/
theorem State.Running.enc_advance {s : State} (h : s.Running) (hu : s.unit = .enc) {op cur ls : Word} (l : Latch)
    (m : Memory) (hge : s.op.toNat ≤ op.toNat) (hle : op.toNat ≤ s.outCap.toNat) (hls : ls.toNat ≤ cur.toNat)
    (hcur : cur.toNat ≤ s.n.toNat) :
    ({ s with op := op, cur := cur, ls := ls, latch := l, outMem := m } : State).Running :=
  { n_eq := h.n_eq
    in_fits := h.in_fits
    out_fits := h.out_fits
    hdr_eq := h.hdr_eq
    dec_pointers := fun hu' => absurd (hu.symm.trans hu') (by decide)
    enc_pointers := fun _ => ⟨(h.enc_pointers hu).hdr_le_op.trans hge, hle, hls, hcur⟩ }

/-- A byte that joins the pending literals keeps the invariant (42_encoder R194). -/
theorem State.Inv.encLiteral_inv {s : State} (h : s.Inv) (hb : s.busy = true) (hu : s.unit = .enc)
    (hc : s.cur.toNat < s.n.toNat) : ({ s with cur := s.cur + 1#32 } : State).Inv := by
  have hr := h.running hb
  have he := hr.enc_pointers hu
  have hls := he.ls_le_cur
  have hn := s.n.isLt
  have hcur : (s.cur + 1#32).toNat = s.cur.toNat + 1 := toNat_add_word s.cur 1 (by omega)
  exact State.Sound.running_inv { h.sound with } (status_of_busy h.status_legal hb) { h.noReport hb with }
    (hr.enc_advance hu s.latch s.outMem (Nat.le_refl _) he.op_le_outCap (by omega) (by omega))

/-- A sequence of bytes that fits OUT_CAP leaves OUT sound. -/
theorem State.Inv.append_sound {s : State} (h : s.Inv) (hb : s.busy = true) (vs : List Byte)
    (hfit : s.op.toNat + vs.length ≤ s.outCap.toNat) :
    (pushAll vs s).outMem.Sound s.cfg.outSize s.freeTag :=
  pushAll_sound vs h.sound.out_mem (hfit.trans (h.running hb).out_fits) (hfit.trans_lt s.outCap.isLt)

/-- An emitted match keeps the invariant (42_encoder R193). -/
theorem State.Inv.afterMatch_inv {s : State} {o len : Nat} (h : s.Inv) (hb : s.busy = true) (hu : s.unit = .enc)
    (hc : s.cur.toNat + len ≤ s.n.toNat)
    (hfit : s.op.toNat + (s.matchBytes o len).length ≤ s.outCap.toNat) : (s.afterMatch o len).Inv := by
  have hr := h.running hb
  have hcap := s.outCap.isLt
  have hn := s.n.isLt
  have hop : (s.op + word (s.matchBytes o len).length).toNat = s.op.toNat + (s.matchBytes o len).length :=
    toNat_add_word _ _ (by omega)
  have hcur : (s.cur + word len).toNat = s.cur.toNat + len := toNat_add_word _ _ (by omega)
  exact State.Sound.running_inv { h.sound with out_mem := h.append_sound hb _ hfit }
    (status_of_busy h.status_legal hb) { h.noReport hb with }
    (hr.enc_advance hu _ _ (by omega) (by omega) (Nat.le_refl _) (by omega))

/-- ENC's normal end keeps the invariant (42_encoder R201). -/
theorem State.Inv.encEnd_inv {s : State} (h : s.Inv) (hb : s.busy = true)
    (hfit : s.op.toNat + s.endBytes.length ≤ s.outCap.toNat) : s.afterEnd.halt.Inv := by
  have hn := h.noReport hb
  have hcap := s.outCap.isLt
  refine State.Sound.halt_inv { h.sound with out_mem := h.append_sound hb _ hfit } hn.errInfo hn.errIp hn.errOp ?_
  calc (s.op + word s.endBytes.length).toNat
      = s.op.toNat + s.endBytes.length := toNat_add_word _ _ (by omega)
    _ ≤ s.outCap.toNat := hfit
    _ ≤ s.cfg.outSize := (h.running hb).out_fits

theorem State.Inv.encStep_inv {s t : State} (h : s.Inv) (hb : s.busy = true) (hu : s.unit = .enc)
    (hs : encStep s = .next t) : t.Inv := by
  rcases encStep_cases (h.running hb) hu with he | ⟨hc, _, he⟩ | ⟨o, len, _, _, hc, hfit, he⟩ | ⟨_, hfit, he⟩ <;>
    cases he.symm.trans hs
  · exact h.sound.raise_inv _ _ _
  · exact h.encLiteral_inv hb hu hc
  · exact h.afterMatch_inv hb hu hc hfit
  · exact h.encEnd_inv hb hfit

/-! ### A step of the engine and the start of a command -/

theorem engineStep_idle {s : State} (hb : s.busy = false) : engineStep s = .next s := by
  rw [engineStep, hb]; rfl

theorem engineStep_dec {s : State} (hb : s.busy = true) (hu : s.unit = .dec) : engineStep s = decStep s := by
  rw [engineStep, if_pos hb, hu]

theorem engineStep_enc {s : State} (hb : s.busy = true) (hu : s.unit = .enc) : engineStep s = encStep s := by
  rw [engineStep, if_pos hb, hu]

theorem State.Inv.engineStep_inv {s t : State} (h : s.Inv) (hs : engineStep s = .next t) : t.Inv := by
  cases hb : s.busy with
  | false => rw [engineStep_idle hb] at hs; cases hs; exact h
  | true =>
    cases hu : s.unit with
    | dec => rw [engineStep_dec hb hu] at hs; exact h.decStep_inv hb hu hs
    | enc => rw [engineStep_enc hb hu] at hs; exact h.encStep_inv hb hu hs

theorem State.Sound.accept {s : State} (h : s.Sound) (u : EngineUnit) : (s.accept u).Sound := { h with }

theorem toNat_hdr (large : Bool) : (BitVec.ofNat 3 (headerLength large)).toNat = headerLength large := by
  cases large <;> rfl

theorem headerLength_lt (large : Bool) : headerLength large < 2 ^ 32 := by cases large <;> decide

/-- DEC at the first opcode meets the invariant (40_decoder_opcodes R131). -/
theorem State.Inv.decStarted_inv {s : State} (h : s.Inv) (hf : s.operandsFit = true) {large : Bool} {dsize : Nat}
    (hn : headerLength large ≤ s.inLen.toNat) (hd : dsize ≤ s.outCap.toNat) : (s.decStarted large dsize).Inv := by
  obtain ⟨hin, hout⟩ := (operandsFit_iff s).1 hf
  have hip : (word (headerLength large)).toNat = headerLength large := toNat_word_of_lt _ (headerLength_lt large)
  have hds : (word dsize).toNat = dsize := toNat_word_of_lt _ (hd.trans_lt s.outCap.isLt)
  exact State.Sound.running_inv { h.sound with } rfl ⟨rfl, rfl, rfl, rfl⟩
    { n_eq := rfl
      in_fits := hin
      out_fits := hout
      hdr_eq := toNat_hdr large
      dec_pointers := fun _ =>
        { hdr_le_ip := ((toNat_hdr large).trans hip.symm).le
          ip_le_n := hip.trans_le hn
          op_le_dsize := Nat.zero_le _
          dsize_le_outCap := hds.trans_le hd }
      enc_pointers := fun hu => nomatch hu }

/-- ENC with its header in OUT meets the invariant (42_encoder R192). -/
theorem State.Inv.encStarted_inv {s : State} (h : s.Inv) (hf : s.operandsFit = true) {large : Bool}
    {vs : List Byte} (hlen : vs.length = headerLength large) (hcap : headerLength large ≤ s.outCap.toNat) :
    (pushAll vs (s.encStarted large)).Inv := by
  obtain ⟨hin, hout⟩ := (operandsFit_iff s).1 hf
  have hzero : (s.encStarted large).op.toNat = 0 := rfl
  have hmem : (pushAll vs (s.encStarted large)).outMem.Sound s.cfg.outSize s.freeTag :=
    pushAll_sound vs h.sound.out_mem (by omega) (by have := headerLength_lt large; omega)
  have hop : ((s.encStarted large).op + word vs.length).toNat = headerLength large := by
    rw [toNat_add_word _ _ (by have := headerLength_lt large; omega), hzero, hlen, Nat.zero_add]
  rw [pushAll_eq]
  exact State.Sound.running_inv { h.sound with out_mem := hmem } rfl ⟨rfl, rfl, rfl, rfl⟩
    { n_eq := rfl
      in_fits := hin
      out_fits := hout
      hdr_eq := toNat_hdr large
      dec_pointers := fun hu => nomatch hu
      enc_pointers := fun _ =>
        { hdr_le_op := ((toNat_hdr large).trans hop.symm).le
          op_le_outCap := hop.trans_le hcap
          ls_le_cur := Nat.le_refl _
          cur_le_n := Nat.zero_le _ } }

theorem State.Inv.compress_inv {s t : State} (h : s.Inv) (hb : s.busy = false) (hf : s.operandsFit = true)
    (hs : exec .compress s = .next t) : t.Inv := by
  rcases exec_compress_cases s hb hf with ⟨_, he⟩ | ⟨hcap, he⟩ <;> cases he.symm.trans hs
  · exact (h.sound.accept .enc).raise_inv _ _ _
  · exact h.encStarted_inv hf (length_headerBytes _ _ _) hcap

theorem State.Inv.decompress_inv {s t : State} (h : s.Inv) (hb : s.busy = false) (hf : s.operandsFit = true)
    (hs : exec .decompress s = .next t) : t.Inv := by
  rcases exec_decompress_cases s hb hf with ⟨_, he⟩ | ⟨_, _, he⟩ | ⟨_, _, _, he⟩ | ⟨_, _, _, he⟩ |
    ⟨hn, _, hd, he⟩ <;> cases he.symm.trans hs
  · exact (h.sound.accept .dec).raise_inv _ _ _
  · exact (h.sound.accept .dec).raise_inv _ _ _
  · exact (h.sound.accept .dec).raise_inv _ _ _
  · exact (h.sound.accept .dec).raise_inv _ _ _
  · exact h.decStarted_inv hf hn hd

/-- All that a write to CMD can do: nothing, or the meaning of one of the two commands (43_host_commands R233,
R234). -/
theorem writeCmd_cases (v : Word) (s : State) :
    writeCmd v s = .next s ∨ writeCmd v s = exec .compress s ∨ writeCmd v s = exec .decompress s := by
  unfold writeCmd decodeCommand
  split_ifs
  · exact .inr (.inl rfl)
  · exact .inr (.inr rfl)
  · exact .inl rfl

/-- A command can be accepted only while idle, with its operands inside the memories. -/
theorem exec_command_accepts {s t : State} {i : Instr} (hi : i.isOpcode = false) (hs : exec i s = .next t) :
    t = s ∨ (s.busy = false ∧ s.operandsFit = true) := by
  cases hb : s.busy with
  | true => rw [exec_command_busy i s hi hb] at hs; cases hs; exact .inl rfl
  | false =>
    cases hf : s.operandsFit with
    | true => exact .inr ⟨rfl, rfl⟩
    | false => rw [exec_command_beyond i s hi hb hf] at hs; cases hs

theorem State.Inv.writeCmd_inv {s t : State} {v : Word} (h : s.Inv) (hs : writeCmd v s = .next t) : t.Inv := by
  rcases writeCmd_cases v s with hw | hw | hw <;> rw [hw] at hs
  · cases hs; exact h
  · rcases exec_command_accepts rfl hs with rfl | ⟨hb, hf⟩
    · exact h
    · exact h.compress_inv hb hf hs
  · rcases exec_command_accepts rfl hs with rfl | ⟨hb, hf⟩
    · exact h
    · exact h.decompress_inv hb hf hs

/-! ### The host's moves -/

/-- What stands outside the core does not occur in the invariant, and free values may be taken. -/
theorem State.Inv.outside {s : State} (h : s.Inv) (moves : List HostMove) (d : Word) {k : Nat}
    (hk : s.freeTag ≤ k) : ({ s with host := moves, readData := d, freeTag := k } : State).Inv :=
  { h with
    in_tags := s.inMem.tagsBelow_mono _ _ h.in_tags hk
    out_tags := s.outMem.tagsBelow_mono _ _ h.out_tags hk
    running := fun hb =>
      { h.running hb with
        dec_pointers := fun hu => { (h.running hb).dec_pointers hu with }
        enc_pointers := fun hu => { (h.running hb).enc_pointers hu with } } }

theorem State.Inv.readReg_inv {s : State} (h : s.Inv) (r : HostReg) : (readReg r s).Inv := by
  unfold readReg
  split_ifs
  · exact h.outside s.host _ (Nat.le_succ _)
  · exact h.outside s.host _ (Nat.le_refl _)

theorem ctrlKept_ctrlKept (v : Word) : ctrlKept (ctrlKept v) = ctrlKept v := by
  rw [ctrlKept, ctrlKept, BitVec.and_assoc, BitVec.and_self]

/-- A register write while idle keeps the invariant, which speaks of the RW registers of a running command only, and
of CTRL's reserved bits (10_state R35, R42). -/
theorem State.Inv.writeIdle_inv {s : State} (h : s.Inv) (hb : s.busy = false) (r : HostReg) (v : Word) :
    (writeIdle r v s).Inv := by
  have hidle : ¬ s.busy = true := by rw [hb]; decide
  cases r with
  | inLen => exact { h with running := fun hb' => absurd hb' hidle }
  | outCap => exact { h with running := fun hb' => absurd hb' hidle }
  | expect => exact { h with running := fun hb' => absurd hb' hidle }
  | ctrl => exact { h with ctrl_kept := ctrlKept_ctrlKept v, running := fun hb' => absurd hb' hidle }
  | cmd => exact h
  | status => exact h
  | errInfo => exact h
  | outLen => exact h
  | errIp => exact h
  | errOp => exact h

/-- A write to a register other than CMD is ignored while BUSY (43_host_commands R235). -/
theorem writeReg_of_ne_cmd {r : HostReg} (hr : r ≠ .cmd) (v : Word) (s : State) :
    writeReg r v s = if s.busy then .next s else .next (writeIdle r v s) := by
  cases r with
  | cmd => exact absurd rfl hr
  | _ => rfl

theorem State.Inv.writeReg_inv {s t : State} {r : HostReg} {v : Word} (h : s.Inv)
    (hs : writeReg r v s = .next t) : t.Inv := by
  by_cases hr : r = .cmd
  · subst hr; exact h.writeCmd_inv hs
  · rw [writeReg_of_ne_cmd hr] at hs
    split at hs
    next => cases hs; exact h
    next hb => cases hs; exact h.writeIdle_inv (by simpa using hb) r v

/-- All that a host write of a byte of IN can answer (10_state R43; log 10, log 12). -/
theorem writeIn_cases (a : Nat) (b : Byte) (s : State) :
    (s.busy = true ∧ writeIn a b s = .refused .hostMemoryAccessWhileBusy) ∨
    (s.busy = false ∧ s.cfg.inSize ≤ a ∧ writeIn a b s = .fault .inAddressAbsent) ∨
    (s.busy = false ∧ a < s.cfg.inSize ∧ writeIn a b s = .next { s with inMem := s.inMem.write a b }) := by
  unfold writeIn State.inCovers
  cases hb : s.busy with
  | true => exact .inl ⟨rfl, rfl⟩
  | false =>
    by_cases ha : a < s.cfg.inSize
    · exact .inr (.inr ⟨rfl, ha, by simp [Nat.succ_le_of_lt ha]⟩)
    · exact .inr (.inl ⟨rfl, by omega, by simp [show s.cfg.inSize ≤ a by omega]⟩)

/-- All that a host read of a byte of OUT can answer (10_state R44; log 10, log 12). -/
theorem readOut_cases (a : Nat) (s : State) :
    (s.busy = true ∧ readOut a s = .refused .hostMemoryAccessWhileBusy) ∨
    (s.busy = false ∧ s.cfg.outSize ≤ a ∧ readOut a s = .fault .outAddressAbsent) ∨
    (s.busy = false ∧ a < s.cfg.outSize ∧
      readOut a s = .next { s with readData := (s.outMem.read a).setWidth 32 }) := by
  unfold readOut State.outCovers
  cases hb : s.busy with
  | true => exact .inl ⟨rfl, rfl⟩
  | false =>
    by_cases ha : a < s.cfg.outSize
    · exact .inr (.inr ⟨rfl, ha, by simp [Nat.succ_le_of_lt ha]⟩)
    · exact .inr (.inl ⟨rfl, by omega, by simp [show s.cfg.outSize ≤ a by omega]⟩)

theorem State.Inv.writeIn_inv {s t : State} {a : Nat} {b : Byte} (h : s.Inv) (hs : writeIn a b s = .next t) :
    t.Inv := by
  rcases writeIn_cases a b s with ⟨_, hw⟩ | ⟨_, _, hw⟩ | ⟨hb, ha, hw⟩ <;> cases hw.symm.trans hs
  have hin := h.sound.in_mem.write b ha
  exact { h with
    in_wf := hin.wf
    in_within := hin.within
    in_tags := hin.tags
    running := fun hb' => absurd (hb.symm.trans hb') (by decide) }

theorem State.Inv.readOut_inv {s t : State} {a : Nat} (h : s.Inv) (hs : readOut a s = .next t) : t.Inv := by
  rcases readOut_cases a s with ⟨_, hr⟩ | ⟨_, _, hr⟩ | ⟨_, _, hr⟩ <;> cases hr.symm.trans hs
  exact h.outside s.host _ (Nat.le_refl _)

theorem State.Inv.withMoves {s : State} (h : s.Inv) (moves : List HostMove) :
    ({ s with host := moves } : State).Inv := h.outside moves s.readData (Nat.le_refl _)

theorem State.Inv.hostMove_inv {s t : State} {m : HostMove} (h : s.Inv) (hs : hostMove m s = .next t) :
    t.Inv := by
  cases m with
  | writeReg r v => exact h.writeReg_inv hs
  | readReg r => cases hs; exact h.readReg_inv r
  | writeIn a b => exact h.writeIn_inv hs
  | readOut a => exact h.readOut_inv hs
  | tick => exact h.engineStep_inv hs
  | await =>
    rw [hostMove] at hs
    split at hs
    next => exact (h.withMoves _).engineStep_inv hs
    next => cases hs; exact h
  | reset => cases hs; exact h.sound.resetEvent_inv

/-- Settles O43: the next move of the host, or the engine's step where it makes none, keeps each part of the
invariant. -/
theorem stepKeepsInvariant : Obligations.StepKeepsInvariant := by
  intro s t h hs
  cases hm : s.host with
  | nil => rw [step_of_no_host hm] at hs; exact h.engineStep_inv hs
  | cons m rest => rw [step_of_host hm] at hs; exact (h.withMoves rest).hostMove_inv hs

end Sys2Proof.Machine
end

section
/-! Proofs of the statements about the state: what a step of the engine and a command never change, and where OUT
grows. -/

namespace Sys2Proof.Machine

/-! ### What the engine only reads -/

/-- What no instruction writes, opcode or command: IN, the RW registers, the parameters, and what stands outside the
core (10_state R21, R35, R43). -/
structure State.Keeps (s t : State) : Prop where
  inMem : t.inMem = s.inMem
  inLen : t.inLen = s.inLen
  outCap : t.outCap = s.outCap
  expect : t.expect = s.expect
  ctrl : t.ctrl = s.ctrl
  cfg : t.cfg = s.cfg
  host : t.host = s.host
  readData : t.readData = s.readData

theorem State.Keeps.refl (s : State) : s.Keeps s := ⟨rfl, rfl, rfl, rfl, rfl, rfl, rfl, rfl⟩

theorem State.Keeps.trans {s t u : State} (h : s.Keeps t) (g : t.Keeps u) : s.Keeps u :=
  ⟨g.inMem.trans h.inMem, g.inLen.trans h.inLen, g.outCap.trans h.outCap, g.expect.trans h.expect,
    g.ctrl.trans h.ctrl, g.cfg.trans h.cfg, g.host.trans h.host, g.readData.trans h.readData⟩

theorem State.keeps_raise (c : Cause) (ip op : Word) (s : State) : s.Keeps (s.raise c ip op) :=
  ⟨rfl, rfl, rfl, rfl, rfl, rfl, rfl, rfl⟩

theorem State.keeps_halt (s : State) : s.Keeps s.halt := ⟨rfl, rfl, rfl, rfl, rfl, rfl, rfl, rfl⟩

theorem State.keeps_accept (u : EngineUnit) (s : State) : s.Keeps (s.accept u) :=
  ⟨rfl, rfl, rfl, rfl, rfl, rfl, rfl, rfl⟩

theorem State.keeps_encStarted (large : Bool) (s : State) : s.Keeps (s.encStarted large) :=
  ⟨rfl, rfl, rfl, rfl, rfl, rfl, rfl, rfl⟩

theorem State.keeps_latchOpcode (i : Instr) (s : State) : s.Keeps (s.latchOpcode i) :=
  ⟨rfl, rfl, rfl, rfl, rfl, rfl, rfl, rfl⟩

theorem State.keeps_afterOpcode (i : Instr) (s : State) : s.Keeps (afterOpcode i s) := by
  rw [afterOpcode_eq]; exact ⟨rfl, rfl, rfl, rfl, rfl, rfl, rfl, rfl⟩

theorem State.keeps_afterEndLiterals (lit : Nat) (s : State) : s.Keeps (afterEndLiterals lit s) := by
  rw [afterEndLiterals, afterLiterals_eq]; exact ⟨rfl, rfl, rfl, rfl, rfl, rfl, rfl, rfl⟩

/-- Where the outcome is a next state, that state keeps what no instruction writes. -/
def OutcomeKeeps (s : State) (o : Host.Outcome State Fault Refusal) : Prop := ∀ t, o = .next t → s.Keeps t

theorem OutcomeKeeps.next {s t : State} (h : s.Keeps t) : OutcomeKeeps s (.next t) := by
  intro u hu; cases hu; exact h

theorem OutcomeKeeps.fault (s : State) (r : Fault) : OutcomeKeeps s (.fault r) := fun _ hu => nomatch hu

theorem OutcomeKeeps.refused (s : State) (r : Refusal) : OutcomeKeeps s (.refused r) := fun _ hu => nomatch hu

theorem OutcomeKeeps.of_keeps {s t : State} {o : Host.Outcome State Fault Refusal} (h : s.Keeps t)
    (ho : OutcomeKeeps t o) : OutcomeKeeps s o := fun u hu => h.trans (ho u hu)

/-- Two parts of an instruction, one after the other, keep what each of them keeps. -/
theorem OutcomeKeeps.andThen {s : State} {f : Flow} {g : State → Flow} (hf : OutcomeKeeps s f.outcome)
    (hg : ∀ t, OutcomeKeeps t (g t).outcome) : OutcomeKeeps s (f.andThen g).outcome := by
  cases f with
  | go t => exact .of_keeps (hf t rfl) (hg t)
  | ended o => exact hf

/-! ### The opcodes -/

theorem LiteralsStop.keeps {size lit : Nat} {s : State} {o : Host.Outcome State Fault Refusal}
    (h : LiteralsStop size lit s o) : OutcomeKeeps s o := by
  cases h with
  | exhausted => exact .next (s.keeps_raise _ _ _)
  | overrun => exact .next (s.keeps_raise _ _ _)
  | inAbsent => exact .fault s _
  | outAbsent => exact .fault s _

theorem exec_opcode_keeps {i : Instr} (s : State) (hi : i.isOpcode = true) : OutcomeKeeps s (exec i s) := by
  have ho := exec_opcode_outcome i s hi
  generalize exec i s = o at ho
  cases ho with
  | stopped h => exact h.keeps
  | badOffset => exact .next (s.keeps_raise _ _ _)
  | overrun => exact .next (s.keeps_raise _ _ _)
  | outAbsent => exact .fault s _
  | completed => exact .next (s.keeps_afterOpcode i)
  | sizeMismatch => exact .next (s.keeps_raise _ _ _)
  | expectMismatch => exact .next (s.keeps_raise _ _ _)
  | halted lit => exact .next ((s.keeps_afterEndLiterals lit).trans (State.keeps_halt _))

theorem decStep_keeps (s : State) : OutcomeKeeps s (decStep s) := by
  unfold decStep
  cases hf : fetch s with
  | got i => exact .of_keeps (s.keeps_latchOpcode i) (exec_opcode_keeps _ (fetch_isOpcode hf))
  | exhausted => exact .next (s.keeps_raise _ _ _)
  | absent => exact .fault s _

/-! ### The encoder -/

theorem put_keeps (v : Byte) (s : State) : OutcomeKeeps s (put v s).outcome := by
  rcases put_cases v s with ⟨_, h⟩ | ⟨_, _, h⟩ | ⟨_, _, h⟩ <;> rw [h]
  · exact .next (s.keeps_raise _ _ _)
  · exact .fault s _
  · exact .next ⟨rfl, rfl, rfl, rfl, rfl, rfl, rfl, rfl⟩

theorem putBytes_keeps (vs : List Byte) (s : State) : OutcomeKeeps s (putBytes vs s).outcome := by
  induction vs generalizing s with
  | nil => exact .next (.refl s)
  | cons v vs ih => exact (put_keeps v s).andThen ih

theorem putInput_keeps (a c : Nat) (s : State) : OutcomeKeeps s (putInput a c s).outcome := by
  unfold putInput
  split
  · exact .fault s _
  · exact putBytes_keeps _ s

theorem flushOne_keeps (s : State) : OutcomeKeeps s (flushOne s).outcome :=
  ((putBytes_keeps _ s).andThen (putInput_keeps _ _)).andThen
    fun _ => .next ⟨rfl, rfl, rfl, rfl, rfl, rfl, rfl, rfl⟩

theorem flushLoop_keeps (fuel : Nat) (s : State) : OutcomeKeeps s (flushLoop fuel s).outcome := by
  induction fuel generalizing s with
  | zero => exact .next (.refl s)
  | succ fuel ih =>
    unfold flushLoop
    split
    · exact (flushOne_keeps s).andThen ih
    · exact .next (.refl s)

theorem emitMatch_keeps (o len : Nat) (s : State) : OutcomeKeeps s (emitMatch o len s).outcome :=
  ((OutcomeKeeps.of_keeps (s.keeps_latchOpcode _) (putBytes_keeps _ _)).andThen (putInput_keeps _ _)).andThen
    fun _ => .next ⟨rfl, rfl, rfl, rfl, rfl, rfl, rfl, rfl⟩

theorem emitEnd_keeps (s : State) : OutcomeKeeps s (emitEnd s).outcome :=
  ((putBytes_keeps _ s).andThen (putInput_keeps _ _)).andThen
    fun _ => .next ⟨rfl, rfl, rfl, rfl, rfl, rfl, rfl, rfl⟩

theorem encCursorStep_keeps (s : State) : OutcomeKeeps s (encCursorStep s).outcome := by
  unfold encCursorStep
  split
  · exact .fault s _
  · split
    · exact .next ⟨rfl, rfl, rfl, rfl, rfl, rfl, rfl, rfl⟩
    · exact (flushLoop_keeps _ s).andThen (emitMatch_keeps _ _)

theorem encStep_keeps (s : State) : OutcomeKeeps s (encStep s) := by
  unfold encStep
  split
  · exact encCursorStep_keeps s
  · exact (flushLoop_keeps _ s).andThen emitEnd_keeps

/-! ### The engine and the commands -/

theorem engineStep_keeps (s : State) : OutcomeKeeps s (engineStep s) := by
  cases hb : s.busy with
  | false => rw [engineStep_idle hb]; exact .next (.refl s)
  | true =>
    cases hu : s.unit with
    | dec => rw [engineStep_dec hb hu]; exact decStep_keeps s
    | enc => rw [engineStep_enc hb hu]; exact encStep_keeps s

theorem decStart_accept_keeps (s : State) : s.Keeps (decStart (s.accept .dec)) := by
  have hr (c : Cause) : s.Keeps ((s.accept .dec).raise c 0 0) :=
    (s.keeps_accept .dec).trans (State.keeps_raise _ _ _ _)
  rw [decStart_accept]
  split_ifs
  · exact hr _
  · exact hr _
  · exact hr _
  · exact hr _
  · exact ⟨rfl, rfl, rfl, rfl, rfl, rfl, rfl, rfl⟩

theorem encStart_accept_keeps (s : State) : OutcomeKeeps s (encStart (s.accept .enc)).outcome := by
  rw [encStart_accept]
  exact .of_keeps (s.keeps_encStarted _) (putBytes_keeps _ _)

theorem exec_compress_keeps (s : State) : OutcomeKeeps s (exec .compress s) := by
  change OutcomeKeeps s (execCompress s)
  unfold execCompress
  split_ifs
  · exact .next (.refl s)
  · exact .refused s _
  · exact encStart_accept_keeps s

theorem exec_decompress_keeps (s : State) : OutcomeKeeps s (exec .decompress s) := by
  change OutcomeKeeps s (execDecompress s)
  unfold execDecompress
  split_ifs
  · exact .next (.refl s)
  · exact .refused s _
  · exact .next (decStart_accept_keeps s)

/-- Settles O45: with no host move pending a step is the engine's, which keeps what no instruction writes. -/
theorem engineReadsInOnly : Obligations.EngineReadsInOnly := by
  intro s t hm hs
  rw [step_of_no_host hm] at hs
  have hk := engineStep_keeps s t hs
  exact ⟨hk.inMem, hk.inLen, hk.outCap, hk.expect, hk.ctrl, hk.cfg, hk.host.trans hm, hk.readData⟩

/-! ### The parameters -/

theorem writeCmd_keeps (v : Word) (s : State) : OutcomeKeeps s (writeCmd v s) := by
  rcases writeCmd_cases v s with h | h | h <;> rw [h]
  · exact .next (.refl s)
  · exact exec_compress_keeps s
  · exact exec_decompress_keeps s

@[simp] theorem writeIdle_cfg (r : HostReg) (v : Word) (s : State) : (writeIdle r v s).cfg = s.cfg := by
  cases r <;> rfl

@[simp] theorem readReg_cfg (r : HostReg) (s : State) : (readReg r s).cfg = s.cfg := by
  unfold readReg; split <;> rfl

theorem writeReg_cfg {r : HostReg} {v : Word} {s t : State} (hs : writeReg r v s = .next t) : t.cfg = s.cfg := by
  by_cases hr : r = .cmd
  · subst hr; exact (writeCmd_keeps v s t hs).cfg
  · rw [writeReg_of_ne_cmd hr] at hs
    split at hs <;> cases hs
    · rfl
    · exact writeIdle_cfg r v s

theorem hostMove_cfg {m : HostMove} {s t : State} (hs : hostMove m s = .next t) : t.cfg = s.cfg := by
  cases m with
  | writeReg r v => exact writeReg_cfg hs
  | readReg r => cases hs; exact readReg_cfg r s
  | writeIn a b =>
    rcases writeIn_cases a b s with ⟨_, hw⟩ | ⟨_, _, hw⟩ | ⟨_, _, hw⟩ <;> cases hw.symm.trans hs
    rfl
  | readOut a =>
    rcases readOut_cases a s with ⟨_, hr⟩ | ⟨_, _, hr⟩ | ⟨_, _, hr⟩ <;> cases hr.symm.trans hs
    rfl
  | tick => exact (engineStep_keeps s t hs).cfg
  | await =>
    rw [hostMove] at hs
    split at hs
    next => exact (engineStep_keeps _ t hs).cfg
    next => cases hs; rfl
  | reset => cases hs; exact s.resetEvent_cfg

/-- Settles O47: neither a step of the engine nor a move of the host, the reset event included, writes a parameter. -/
theorem parametersNeverChange : Obligations.ParametersNeverChange := by
  intro s t hs
  cases hm : s.host with
  | nil => rw [step_of_no_host hm] at hs; exact (engineStep_keeps s t hs).cfg
  | cons m rest => rw [step_of_host hm] at hs; exact hostMove_cfg hs (s := { s with host := rest })

/-! ### OUT grows from the old `op` to the new one -/

/-- `op` moves no lower, and OUT is the same below the old `op` and from the new one up (10_state R44). -/
structure State.AppendsTo (s t : State) : Prop where
  op_le : s.op.toNat ≤ t.op.toNat
  read_outside : ∀ a, a < s.op.toNat ∨ t.op.toNat ≤ a → t.outMem.read a = s.outMem.read a

theorem afterOpcode_appends (i : Instr) (s : State)
    (h : s.op.toNat + literalCount i + matchLength i < 2 ^ 32) : s.AppendsTo (afterOpcode i s) := by
  have hop : (afterOpcode i s).op.toNat = s.op.toNat + (literalCount i + matchLength i) := by
    rw [afterOpcode_eq]; exact toNat_add_word _ _ (by omega)
  exact ⟨by omega, fun a ha => afterOpcode_read_outside i s a h (by omega)⟩

theorem afterMatch_appends (s : State) (o len : Nat) (h : s.op.toNat + (s.matchBytes o len).length < 2 ^ 32) :
    s.AppendsTo (s.afterMatch o len) := by
  have hop : (s.afterMatch o len).op.toNat = s.op.toNat + (s.matchBytes o len).length := toNat_add_word _ _ h
  refine ⟨by omega, fun a ha => ?_⟩
  exact (pushAll_read (s.matchBytes o len) s a h).trans (dif_neg (by omega))

theorem decStep_appends {s t : State} (h : s.Running) (hu : s.unit = .dec) (hs : decStep s = .next t)
    (ht : t.busy = true) : s.AppendsTo t := by
  rcases decStep_cases h hu with ⟨c, ip, op, he⟩ | ⟨i, _, _, _, _, hd, he⟩ | ⟨lit, _, _, he⟩ <;>
    cases he.symm.trans hs
  · exact absurd ht (by simp)
  · have ha := afterOpcode_appends i (s.latchOpcode i) (hd.trans_lt s.dsize.isLt)
    exact ⟨ha.op_le, ha.read_outside⟩
  · exact absurd ht (by simp)

theorem encStep_appends {s t : State} (h : s.Running) (hu : s.unit = .enc) (hs : encStep s = .next t)
    (ht : t.busy = true) : s.AppendsTo t := by
  rcases encStep_cases h hu with he | ⟨_, _, he⟩ | ⟨o, len, _, _, _, hfit, he⟩ | ⟨_, _, he⟩ <;>
    cases he.symm.trans hs
  · exact absurd ht (by simp)
  · exact ⟨Nat.le_refl _, fun _ _ => rfl⟩
  · exact afterMatch_appends s o len (hfit.trans_lt s.outCap.isLt)
  · exact absurd ht (by simp)

/-- Settles O46: an opcode appends its literals and its match, an emitted match its bytes, and every step that writes
OUT elsewhere ends the command. -/
theorem outputIsAppendOnly : Obligations.OutputIsAppendOnly := by
  intro s t h hm hb hs ht
  have ha : s.AppendsTo t := by
    cases hu : s.unit with
    | dec => rw [step_dec hm hb hu] at hs; exact decStep_appends (h.running hb) hu hs ht
    | enc => rw [step_enc hm hb hu] at hs; exact encStep_appends (h.running hb) hu hs ht
  exact ⟨ha.op_le, ha.read_outside⟩

end Sys2Proof.Machine
end

section
/-! Proofs of the statements about the state: its reset values, the host's accesses while idle, and the commands that
the model refuses. -/

namespace Sys2Proof.Machine

/-! ### Reset -/

/-- Settles O34: the registers by State.reset itself, the memories since nothing is listed in them. -/
theorem resetValues : Obligations.ResetValues :=
  ⟨rfl, rfl, rfl, rfl, rfl, rfl, rfl, rfl, rfl, Memory.read_unspecified 0, Memory.read_unspecified 1⟩

/-- A memory nothing has been written to is sound, whatever its size. -/
theorem Memory.unspecified_sound (size : Nat) {u t : Nat} (h : u < t) : (Memory.unspecified u).Sound size t where
  wf := Memory.unspecified_wf u
  within := by simp [Memory.unspecified, Memory.within]
  tags := by simpa [Memory.unspecified, Memory.tagsBelow] using h

/-- Settles O42: the memories hold nothing, and the registers report nothing while idle. -/
theorem invariantAtReset : Obligations.InvariantAtReset :=
  State.Sound.inv_of_noReport
    { cfg_wf := by decide
      in_mem := Memory.unspecified_sound _ (by decide)
      out_mem := Memory.unspecified_sound _ (by decide)
      ctrl_kept := by decide }
    (.inl rfl) ⟨rfl, rfl, rfl, rfl⟩ fun hb => absurd hb (by decide)

/-! ### The host's accesses while idle -/

/-- A write to CTRL keeps bit 0 alone (10_state R42). -/
theorem ctrlKept_eq (v : Word) : ctrlKept v = if v.getLsbD 0 then 1#32 else 0#32 := by
  rw [ctrlKept, BitVec.and_one_eq_setWidth_ofBool_getLsbD]
  cases v.getLsbD 0 <;> rfl

theorem readReg_idle {s : State} (hb : s.busy = false) (r : HostReg) :
    readReg r s = { s with readData := s.readIdle r } := by rw [readReg, hb]; rfl

theorem step_writeReg_idle {s : State} {r : HostReg} {v : Word} {rest : List HostMove} (hb : s.busy = false)
    (hr : r ≠ .cmd) (hm : s.host = .writeReg r v :: rest) :
    step s = .next (writeIdle r v { s with host := rest }) := by
  have hb' : ({ s with host := rest } : State).busy = false := hb
  rw [step_of_host hm, hostMove, writeReg_of_ne_cmd hr, hb']; rfl

theorem step_readReg_idle {s : State} {r : HostReg} {rest : List HostMove} (hb : s.busy = false)
    (hm : s.host = .readReg r :: rest) : step s = .next { s with host := rest, readData := s.readIdle r } := by
  have hb' : ({ s with host := rest } : State).busy = false := hb
  rw [step_of_host hm, hostMove, readReg_idle hb']
  cases r <;> rfl

/-- A read-only register ignores a write (10_state R35). -/
theorem writeIdle_readOnly {r : HostReg} (v : Word) (s : State)
    (hr : r = .status ∨ r = .errInfo ∨ r = .outLen ∨ r = .errIp ∨ r = .errOp) : writeIdle r v s = s := by
  rcases hr with rfl | rfl | rfl | rfl | rfl <;> rfl

/-- Settles O37: each register by what `writeIdle` stores and `readIdle` returns. -/
theorem idleRegisterAccess : Obligations.IdleRegisterAccess := by
  intro s v rest hb
  refine ⟨step_writeReg_idle hb (by decide), step_writeReg_idle hb (by decide), step_writeReg_idle hb (by decide),
    fun hm => ?_, fun r hr hm => ?_, step_readReg_idle hb, step_readReg_idle hb, step_readReg_idle hb,
    step_readReg_idle hb, step_readReg_idle hb, step_readReg_idle hb, step_readReg_idle hb, step_readReg_idle hb,
    step_readReg_idle hb, step_readReg_idle hb⟩
  · rw [step_writeReg_idle hb (by decide) hm, ← ctrlKept_eq]; rfl
  · have hne : r ≠ .cmd := by rintro rfl; simp at hr
    rw [step_writeReg_idle hb hne hm, writeIdle_readOnly v _ hr]

/-- Settles O39: below the size the access is one byte of one memory, from the size up it is the model's fault. -/
theorem idleMemoryAccess : Obligations.IdleMemoryAccess := by
  intro s a b rest hb
  have hb' : ({ s with host := rest } : State).busy = false := hb
  have hw := writeIn_cases a b { s with host := rest }
  have hr := readOut_cases a { s with host := rest }
  simp only [hb', Bool.false_eq_true, false_and, true_and, false_or] at hw hr
  refine ⟨fun hm ha => ?_, fun hm ha => ?_, fun hm ha => ?_, fun hm ha => ?_⟩ <;> rw [step_of_host hm, hostMove]
  · obtain ⟨hge, _⟩ | ⟨_, h⟩ := hw
    · omega
    · exact ⟨_, h, rfl, Memory.read_write_self _ _ _, fun x hx => Memory.read_write_ne _ _ _ _ hx.symm⟩
  · obtain ⟨hge, _⟩ | ⟨_, h⟩ := hr
    · omega
    · exact h
  · obtain ⟨_, h⟩ | ⟨hlt, _⟩ := hw
    · exact h
    · omega
  · obtain ⟨_, h⟩ | ⟨hlt, _⟩ := hr
    · exact h
    · omega

/-! ### The commands that the model refuses -/

/-- Settles O22: such operands do not fit, and neither command starts with operands that do not. -/
theorem operandsBeyondMemoryRefused : Obligations.OperandsBeyondMemoryRefused := by
  intro s hb hbeyond
  have hf : s.operandsFit = false := by
    rw [← Bool.not_eq_true, operandsFit_iff]
    omega
  exact ⟨exec_command_beyond .compress s rfl hb hf, exec_command_beyond .decompress s rfl hb hf⟩

end Sys2Proof.Machine
end

section
/-! Proofs of the statements about the encoding: the form control byte 0 selects, `decode` and `encode` as inverses of
each other, and both in the masks, shifts and ors of the spec. -/

namespace Sys2Proof

/-! ### The form of control byte 0 -/

/-- Settles O3: the ranges of `classify_cases` exclude each other. -/
theorem firstByteSelectsForm : Obligations.FirstByteSelectsForm := by
  intro b
  rcases classify_cases b with ⟨_, hc⟩ | ⟨_, _, hc⟩ | ⟨_, _, hc⟩ | ⟨_, _, hc⟩ | ⟨_, hc⟩ <;>
    simp only [hc, reduceCtorEq, false_iff, true_iff] <;> omega

/-! ### What `decode` reads once the form is known -/

theorem decode_shortCopy {b0 : Byte} (hc : classify b0 = .shortCopy) (b1 : Byte) (rest : List Byte) :
    decode (b0 :: b1 :: rest) = .ok (parseShort b0 b1, rest) := by simp only [decode, hc]

theorem decode_mediumCopy {b0 : Byte} (hc : classify b0 = .mediumCopy) (b1 b2 : Byte) (rest : List Byte) :
    decode (b0 :: b1 :: b2 :: rest) = .ok (parseMedium b0 b1 b2, rest) := by simp only [decode, hc]

theorem decode_longCopy {b0 : Byte} (hc : classify b0 = .longCopy) (b1 b2 b3 : Byte) (rest : List Byte) :
    decode (b0 :: b1 :: b2 :: b3 :: rest) = .ok (parseLong b0 b1 b2 b3, rest) := by simp only [decode, hc]

theorem decode_literalRun {b0 : Byte} (hc : classify b0 = .literalRun) (rest : List Byte) :
    decode (b0 :: rest) = .ok (parseRun b0, rest) := by simp only [decode, hc]

theorem decode_streamEnd {b0 : Byte} (hc : classify b0 = .streamEnd) (rest : List Byte) :
    decode (b0 :: rest) = .ok (parseEnd b0, rest) := by simp only [decode, hc]

/-! ### The operands' ranges as inequalities -/

theorem wellFormed_shortCopy {lit len off : Nat} : (Instr.shortCopy lit len off).wellFormed = true ↔
    lit ≤ 3 ∧ (3 ≤ len ∧ len ≤ 10) ∧ 1 ≤ off ∧ off ≤ 1024 := by
  simp [Instr.wellFormed, inRange, and_assoc]

theorem wellFormed_mediumCopy {lit len off : Nat} : (Instr.mediumCopy lit len off).wellFormed = true ↔
    lit ≤ 3 ∧ (4 ≤ len ∧ len ≤ 67) ∧ 1 ≤ off ∧ off ≤ 16384 := by
  simp [Instr.wellFormed, inRange, and_assoc]

theorem wellFormed_longCopy {lit len off : Nat} : (Instr.longCopy lit len off).wellFormed = true ↔
    lit ≤ 3 ∧ (5 ≤ len ∧ len ≤ 1028) ∧ 1 ≤ off ∧ off ≤ 131072 := by
  simp [Instr.wellFormed, inRange, and_assoc]

theorem wellFormed_literalRun {lit : Nat} : (Instr.literalRun lit).wellFormed = true ↔
    (4 ≤ lit ∧ lit ≤ 112) ∧ lit % 4 = 0 := by
  simp [Instr.wellFormed, inRange]

theorem wellFormed_streamEnd {lit : Nat} : (Instr.streamEnd lit).wellFormed = true ↔ lit ≤ 3 := by
  simp [Instr.wellFormed, inRange]

/-! ### Parsing the bytes of `encode`: its control byte 0 selects the opcode's form (`Laws.ControlSize`), and the
fields are the quotients and remainders of the numbers the bytes were made from -/

theorem decode_encode_shortCopy {lit len off : Nat} (h : (Instr.shortCopy lit len off).wellFormed = true)
    (rest : List Byte) :
    decode (encode (.shortCopy lit len off) ++ rest) = .ok (.shortCopy lit len off, rest) := by
  obtain ⟨_, hform⟩ := Laws.ControlSize.shortCopy lit len off h
  refine (decode_shortCopy (Option.some.inj hform) _ rest).trans ?_
  have hranges := wellFormed_shortCopy.mp h
  simp only [parseShort, bitsOf_1_0, bitsOf_4_2, bitsOf_6_5, BitVec.toNat_ofNat, Except.ok.injEq, Prod.mk.injEq,
    Instr.shortCopy.injEq, and_true]
  omega

theorem decode_encode_mediumCopy {lit len off : Nat} (h : (Instr.mediumCopy lit len off).wellFormed = true)
    (rest : List Byte) :
    decode (encode (.mediumCopy lit len off) ++ rest) = .ok (.mediumCopy lit len off, rest) := by
  obtain ⟨_, hform⟩ := Laws.ControlSize.mediumCopy lit len off h
  refine (decode_mediumCopy (Option.some.inj hform) _ _ rest).trans ?_
  have hranges := wellFormed_mediumCopy.mp h
  simp only [parseMedium, bitsOf_7_6, bitsOf_5_0, BitVec.toNat_ofNat, Except.ok.injEq, Prod.mk.injEq,
    Instr.mediumCopy.injEq, and_true]
  omega

theorem decode_encode_longCopy {lit len off : Nat} (h : (Instr.longCopy lit len off).wellFormed = true)
    (rest : List Byte) :
    decode (encode (.longCopy lit len off) ++ rest) = .ok (.longCopy lit len off, rest) := by
  obtain ⟨_, hform⟩ := Laws.ControlSize.longCopy lit len off h
  refine (decode_longCopy (Option.some.inj hform) _ _ _ rest).trans ?_
  have hranges := wellFormed_longCopy.mp h
  simp only [parseLong, bitsOf_1_0, bitsOf_3_2, bitsOf_4_4, BitVec.toNat_ofNat, Except.ok.injEq, Prod.mk.injEq,
    Instr.longCopy.injEq, and_true]
  omega

theorem decode_encode_literalRun {lit : Nat} (h : (Instr.literalRun lit).wellFormed = true) (rest : List Byte) :
    decode (encode (.literalRun lit) ++ rest) = .ok (.literalRun lit, rest) := by
  obtain ⟨_, hform⟩ := Laws.ControlSize.literalRun lit h
  refine (decode_literalRun (Option.some.inj hform) rest).trans ?_
  have hranges := wellFormed_literalRun.mp h
  simp only [parseRun, bitsOf_4_0, BitVec.toNat_ofNat, Except.ok.injEq, Prod.mk.injEq,
    Instr.literalRun.injEq, and_true]
  omega

theorem decode_encode_streamEnd {lit : Nat} (h : (Instr.streamEnd lit).wellFormed = true) (rest : List Byte) :
    decode (encode (.streamEnd lit) ++ rest) = .ok (.streamEnd lit, rest) := by
  obtain ⟨_, hform⟩ := Laws.ControlSize.streamEnd lit h
  refine (decode_streamEnd (Option.some.inj hform) rest).trans ?_
  have hrange := wellFormed_streamEnd.mp h
  simp only [parseEnd, bitsOf_1_0, BitVec.toNat_ofNat, Except.ok.injEq, Prod.mk.injEq,
    Instr.streamEnd.injEq, and_true]
  omega

/-- `decode` reads back the opcode that `encode` wrote (the first half of 30_encoding R105). -/
theorem decode_encode {i : Instr} (ho : i.isOpcode = true) (h : i.wellFormed = true) (rest : List Byte) :
    decode (encode i ++ rest) = .ok (i, rest) := by
  cases i with
  | shortCopy lit len off => exact decode_encode_shortCopy h rest
  | mediumCopy lit len off => exact decode_encode_mediumCopy h rest
  | longCopy lit len off => exact decode_encode_longCopy h rest
  | literalRun lit => exact decode_encode_literalRun h rest
  | streamEnd lit => exact decode_encode_streamEnd h rest
  | compress => cases ho
  | decompress => cases ho

/-! ### Encoding what was parsed: each byte is put together again from its fields and, in control byte 0, the bits
that are fixed in its form's range -/

theorem ofNat_eq_byte {k : Nat} {b : Byte} (h : k % 2 ^ 8 = b.toNat) : BitVec.ofNat 8 k = b :=
  BitVec.eq_of_toNat_eq ((BitVec.toNat_ofNat k 8).trans h)

theorem encode_parseShort {b0 : Byte} (hc : classify b0 = .shortCopy) (b1 : Byte) :
    encode (parseShort b0 b1) = [b0, b1] := by
  obtain ⟨hrange, -⟩ := firstByteSelectsForm b0
  have hb0 := hrange.mp hc
  have hb1 := b1.isLt
  simp only [parseShort, encode, bitsOf_1_0, bitsOf_4_2, bitsOf_6_5, List.cons.injEq, and_true]
  exact ⟨ofNat_eq_byte (by omega), ofNat_eq_byte (by omega)⟩

theorem encode_parseMedium {b0 : Byte} (hc : classify b0 = .mediumCopy) (b1 b2 : Byte) :
    encode (parseMedium b0 b1 b2) = [b0, b1, b2] := by
  obtain ⟨-, hrange, -⟩ := firstByteSelectsForm b0
  have hb0 := hrange.mp hc
  have hb1 := b1.isLt
  have hb2 := b2.isLt
  simp only [parseMedium, encode, bitsOf_7_6, bitsOf_5_0, List.cons.injEq, and_true]
  exact ⟨ofNat_eq_byte (by omega), ofNat_eq_byte (by omega), ofNat_eq_byte (by omega)⟩

theorem encode_parseLong {b0 : Byte} (hc : classify b0 = .longCopy) (b1 b2 b3 : Byte) :
    encode (parseLong b0 b1 b2 b3) = [b0, b1, b2, b3] := by
  obtain ⟨-, -, hrange, -⟩ := firstByteSelectsForm b0
  have hb0 := hrange.mp hc
  have hb1 := b1.isLt
  have hb2 := b2.isLt
  have hb3 := b3.isLt
  simp only [parseLong, encode, bitsOf_1_0, bitsOf_3_2, bitsOf_4_4, List.cons.injEq, and_true]
  exact ⟨ofNat_eq_byte (by omega), ofNat_eq_byte (by omega), ofNat_eq_byte (by omega), ofNat_eq_byte (by omega)⟩

theorem encode_parseRun {b0 : Byte} (hc : classify b0 = .literalRun) : encode (parseRun b0) = [b0] := by
  obtain ⟨-, -, -, hrange, -⟩ := firstByteSelectsForm b0
  have hb0 := hrange.mp hc
  simp only [parseRun, encode, bitsOf_4_0, List.cons.injEq, and_true]
  exact ofNat_eq_byte (by omega)

theorem encode_parseEnd {b0 : Byte} (hc : classify b0 = .streamEnd) : encode (parseEnd b0) = [b0] := by
  obtain ⟨-, -, -, -, hrange⟩ := firstByteSelectsForm b0
  have hb0 := hrange.mp hc
  simp only [parseEnd, encode, bitsOf_1_0, List.cons.injEq, and_true]
  exact ofNat_eq_byte (by omega)

/-- `encode` writes again the control bytes that `decode` read (the second half of 30_encoding R105). -/
theorem encode_of_decode {bs rest : List Byte} {i : Instr} (h : decode bs = .ok (i, rest)) :
    encode i ++ rest = bs := by
  rcases decode_cases h with ⟨b0, b1, rfl, hc, rfl⟩ | ⟨b0, b1, b2, rfl, hc, rfl⟩ |
    ⟨b0, b1, b2, b3, rfl, hc, rfl⟩ | ⟨b0, rfl, hc, rfl⟩ | ⟨b0, rfl, hc, rfl⟩
  · rw [encode_parseShort hc]; rfl
  · rw [encode_parseMedium hc]; rfl
  · rw [encode_parseLong hc]; rfl
  · rw [encode_parseRun hc]; rfl
  · rw [encode_parseEnd hc]; rfl

/-- Settles O1: `decode_encode` over the opcodes, `encode_of_decode` over the bytes. -/
theorem opcodesRoundTrip : Obligations.OpcodesRoundTrip :=
  ⟨fun _ rest ho hw => decode_encode ho hw rest, fun _ _ _ h => encode_of_decode h⟩

/-! ### Totality and the ranges of the fields -/

/-- Settles O6: the control bytes alone decode to an opcode, whose encoding they are, and `decode` reads an encoding
back whatever follows it. -/
theorem decodeTotalOnEnoughBytes : Obligations.DecodeTotalOnEnoughBytes := by
  intro b0 bs henough
  obtain ⟨k, hk⟩ : ∃ k, controlSize (classify b0) = k + 1 := Nat.exists_eq_add_of_le' (controlSize_pos _)
  rw [hk] at henough ⊢
  have hlen : (b0 :: bs.take k).length = k + 1 := by
    rw [List.length_cons, List.length_take_of_le (Nat.le_of_succ_le_succ henough)]
  obtain ⟨i, hd⟩ := decode_of_length b0 (bs.take k) (hlen.trans hk.symm)
  obtain ⟨ho, hw, _⟩ := Machine.encode_length_of_decode hd
  have hbytes : encode i = b0 :: bs.take k := (List.append_nil _).symm.trans (encode_of_decode hd)
  refine ⟨i, ?_, by rw [hbytes, hlen]⟩
  calc decode (b0 :: bs)
      = decode (encode i ++ bs.drop k) := by rw [hbytes, List.cons_append, List.take_append_drop]
    _ = .ok (i, (b0 :: bs).drop (k + 1)) := decode_encode ho hw _

/-- Settles O2: each `parse` keeps to its form's ranges, and the words of the ends are evaluated. -/
theorem parsedFieldsInRange : Obligations.ParsedFieldsInRange := by
  refine ⟨fun bs i rest h => ?_, by decide⟩
  obtain ⟨ho, hw, _⟩ := Machine.encode_length_of_decode h
  exact ⟨ho, hw⟩

/-! ### The spec's masks: a mask of adjacent bits leaves a field of `bitsOf` in its place -/

theorem and_mask_eq_bitsOf (b : Byte) (hi lo : Nat) :
    b.toNat &&& (2 ^ (hi + 1 - lo) - 1) <<< lo = bitsOf b hi lo <<< lo := by
  rw [bitsOf, ← Nat.shiftRight_eq_div_pow, ← Nat.and_two_pow_sub_one_eq_mod, Nat.shiftLeft_and_distrib]
  refine Nat.eq_of_testBit_eq fun j => ?_
  by_cases hj : lo ≤ j <;> simp [Nat.testBit_shiftLeft, hj]

theorem and_mask_1_0 (b : Byte) : b.toNat &&& 0x03 = bitsOf b 1 0 := and_mask_eq_bitsOf b 1 0
theorem and_mask_4_2 (b : Byte) : b.toNat &&& 0x1C = bitsOf b 4 2 <<< 2 := and_mask_eq_bitsOf b 4 2
theorem and_mask_6_5 (b : Byte) : b.toNat &&& 0x60 = bitsOf b 6 5 <<< 5 := and_mask_eq_bitsOf b 6 5
theorem and_mask_5_0 (b : Byte) : b.toNat &&& 0x3F = bitsOf b 5 0 := and_mask_eq_bitsOf b 5 0
theorem and_mask_3_2 (b : Byte) : b.toNat &&& 0x0C = bitsOf b 3 2 <<< 2 := and_mask_eq_bitsOf b 3 2
theorem and_mask_4_4 (b : Byte) : b.toNat &&& 0x10 = bitsOf b 4 4 <<< 4 := and_mask_eq_bitsOf b 4 4
theorem and_mask_4_0 (b : Byte) : b.toNat &&& 0x1F = bitsOf b 4 0 := and_mask_eq_bitsOf b 4 0

theorem shiftRight_6_eq_bitsOf (b : Byte) : b.toNat >>> 6 = bitsOf b 7 6 := by
  have := b.isLt
  rw [bitsOf_7_6, Nat.shiftRight_eq_div_pow]
  omega

/-! ### `parse` by masks and shifts (30_encoding R102) -/

theorem parseShort_masks (b0 b1 : Byte) : parseShort b0 b1 = .shortCopy
    (b0.toNat &&& 0x03) (((b0.toNat &&& 0x1C) >>> 2) + 3) (((b0.toNat &&& 0x60) <<< 3) + b1.toNat + 1) := by
  rw [and_mask_1_0, and_mask_4_2, and_mask_6_5, Nat.shiftLeft_shiftRight, ← Nat.shiftLeft_add, Nat.shiftLeft_eq]
  rfl

theorem parseMedium_masks (b0 b1 b2 : Byte) : parseMedium b0 b1 b2 = .mediumCopy
    (b1.toNat >>> 6) ((b0.toNat &&& 0x3F) + 4) (((b1.toNat &&& 0x3F) <<< 8) + b2.toNat + 1) := by
  rw [and_mask_5_0, and_mask_5_0, shiftRight_6_eq_bitsOf, Nat.shiftLeft_eq]
  rfl

theorem parseLong_masks (b0 b1 b2 b3 : Byte) : parseLong b0 b1 b2 b3 = .longCopy
    (b0.toNat &&& 0x03) (((b0.toNat &&& 0x0C) <<< 6) + b3.toNat + 5)
    (((b0.toNat &&& 0x10) <<< 12) + (b1.toNat <<< 8) + b2.toNat + 1) := by
  rw [and_mask_1_0, and_mask_3_2, and_mask_4_4, ← Nat.shiftLeft_add, ← Nat.shiftLeft_add, Nat.shiftLeft_eq,
    Nat.shiftLeft_eq, Nat.shiftLeft_eq]
  rfl

theorem parseRun_masks (b0 : Byte) : parseRun b0 = .literalRun (((b0.toNat &&& 0x1F) <<< 2) + 4) := by
  rw [and_mask_4_0, Nat.shiftLeft_eq]
  rfl

theorem parseEnd_masks (b0 : Byte) : parseEnd b0 = .streamEnd (b0.toNat &&& 0x03) := by
  rw [and_mask_1_0]
  rfl

/-- Settles O4: the byte's range gives the form, and each form's `parse` is its masks and shifts. -/
theorem parseByMasksAndShifts : Obligations.ParseByMasksAndShifts := by
  intro b0 b1 b2 b3 rest
  obtain ⟨hshort, hmedium, hlong, hrun, hend⟩ := firstByteSelectsForm b0
  refine ⟨fun h => ?_, fun hlo hhi => ?_, fun hlo hhi => ?_, fun hlo hhi => ?_, fun h => ?_⟩
  · rw [decode_shortCopy (hshort.mpr h), parseShort_masks]
  · rw [decode_mediumCopy (hmedium.mpr ⟨hlo, hhi⟩), parseMedium_masks]
  · rw [decode_longCopy (hlong.mpr ⟨hlo, hhi⟩), parseLong_masks]
  · rw [decode_literalRun (hrun.mpr ⟨hlo, hhi⟩), parseRun_masks]
  · rw [decode_streamEnd (hend.mpr h), parseEnd_masks]

/-! ### `emit` by shifts and ors (30_encoding R103) -/

/-- Numbers that share no bit are put together by `|||` as by `+` (40_decoder_opcodes R146). -/
theorem lor_eq_add (k : Nat) {a b : Nat} (ha : 2 ^ k ∣ a) (hb : b < 2 ^ k) : a ||| b = a + b := by
  obtain ⟨c, rfl⟩ := ha
  exact (Nat.two_pow_add_eq_or_of_lt hb c).symm

theorem ofNat_and_0xFF (k : Nat) : BitVec.ofNat 8 (k &&& 0xFF) = BitVec.ofNat 8 k :=
  ofNat_eq_byte (by rw [BitVec.toNat_ofNat, Nat.and_two_pow_sub_one_eq_mod k 8, Nat.mod_mod])

theorem encode_shortCopy_ors {lit len off : Nat} (h : (Instr.shortCopy lit len off).wellFormed = true) :
    encode (.shortCopy lit len off) =
      [BitVec.ofNat 8 ((((off - 1) >>> 8) <<< 5) ||| ((len - 3) <<< 2) ||| lit),
       BitVec.ofNat 8 ((off - 1) &&& 0xFF)] := by
  have hranges := wellFormed_shortCopy.mp h
  simp only [ofNat_and_0xFF, Nat.shiftLeft_eq, Nat.shiftRight_eq_div_pow]
  rw [lor_eq_add 5 (a := _ * 2 ^ 5) (by omega) (by omega), lor_eq_add 2 (by omega) (by omega)]
  rfl

theorem encode_mediumCopy_ors {lit len off : Nat} (h : (Instr.mediumCopy lit len off).wellFormed = true) :
    encode (.mediumCopy lit len off) =
      [BitVec.ofNat 8 (0x80 ||| (len - 4)),
       BitVec.ofNat 8 ((lit <<< 6) ||| ((off - 1) >>> 8)),
       BitVec.ofNat 8 ((off - 1) &&& 0xFF)] := by
  have hranges := wellFormed_mediumCopy.mp h
  simp only [ofNat_and_0xFF, Nat.shiftLeft_eq, Nat.shiftRight_eq_div_pow]
  rw [lor_eq_add 7 (by omega) (by omega), lor_eq_add 6 (by omega) (by omega)]
  rfl

theorem encode_longCopy_ors {lit len off : Nat} (h : (Instr.longCopy lit len off).wellFormed = true) :
    encode (.longCopy lit len off) =
      [BitVec.ofNat 8 (0xC0 ||| (((off - 1) >>> 16) <<< 4) ||| (((len - 5) >>> 8) <<< 2) ||| lit),
       BitVec.ofNat 8 (((off - 1) >>> 8) &&& 0xFF),
       BitVec.ofNat 8 ((off - 1) &&& 0xFF),
       BitVec.ofNat 8 ((len - 5) &&& 0xFF)] := by
  have hranges := wellFormed_longCopy.mp h
  simp only [ofNat_and_0xFF, Nat.shiftLeft_eq, Nat.shiftRight_eq_div_pow]
  rw [lor_eq_add 5 (a := 0xC0) (by omega) (by omega), lor_eq_add 4 (a := 0xC0 + _) (by omega) (by omega),
    lor_eq_add 2 (by omega) (by omega)]
  rfl

theorem encode_literalRun_ors {lit : Nat} (h : (Instr.literalRun lit).wellFormed = true) :
    encode (.literalRun lit) = [BitVec.ofNat 8 (0xE0 ||| (lit / 4 - 1))] := by
  have hranges := wellFormed_literalRun.mp h
  rw [lor_eq_add 5 (by omega) (by omega)]
  rfl

theorem encode_streamEnd_ors {lit : Nat} (h : (Instr.streamEnd lit).wellFormed = true) :
    encode (.streamEnd lit) = [BitVec.ofNat 8 (0xFC ||| lit)] := by
  have hrange := wellFormed_streamEnd.mp h
  rw [lor_eq_add 2 (by omega) (by omega)]
  rfl

/-- Settles O5: form by form, since the bit groups of a byte share no bit. -/
theorem emitByShiftsAndOrs : Obligations.EmitByShiftsAndOrs := fun _ _ _ =>
  ⟨encode_shortCopy_ors, encode_mediumCopy_ors, encode_longCopy_ors, encode_literalRun_ors, encode_streamEnd_ors⟩

/-! ### The words of the formats -/

/-- Settles O7: the words are literals, which the decoder evaluates. -/
theorem specWordsDecode : Obligations.SpecWordsDecode := by
  unfold Obligations.SpecWordsDecode
  decide

end Sys2Proof
end

section
/-! Proofs of the statements about the opcodes of DEC: the step that runs one, what each completes with, and what it
leaves unchanged. -/

namespace Sys2Proof.Machine

/-! ### The step -/

/-- DEC runs the opcode whose control bytes stand at `ip` (40_decoder_opcodes R132). -/
theorem decStep_of_encoded {s : State} {i : Instr} (hi : i.isOpcode = true) (hw : i.wellFormed = true)
    (hbytes : s.inMem.readBytes s.ip.toNat (encode i).length = encode i)
    (hin : s.ip.toNat + (encode i).length ≤ s.n.toNat) (hn : s.n.toNat ≤ s.cfg.inSize) :
    decStep s = exec i (s.latchOpcode i) := by
  have hd : decode (s.inMem.readBytes s.ip.toNat (encode i).length) = .ok (i, []) := by
    rw [hbytes, ← List.append_nil (encode i), decode_encode hi hw]
  rw [decStep, fetch_of_decode s i _ hd hin (hin.trans hn)]

theorem step_tick {s : State} {rest : List HostMove} (hm : s.host = .tick :: rest) :
    step s = engineStep { s with host := rest } := by rw [step_of_host hm, hostMove]

/-- An `await` stays pending while a command runs (log 9). -/
theorem step_await_busy {s : State} {rest : List HostMove} (hm : s.host = .await :: rest) (hb : s.busy = true) :
    step s = engineStep s := by
  have hb' : ({ s with host := rest } : State).busy = true := hb
  rw [step_of_host hm, hostMove, if_pos hb', ← hm]

/-- Settles O8: whoever lets DEC step, its step is that of `decStep_of_encoded`. -/
theorem stepRunsDecodedInstruction : Obligations.StepRunsDecodedInstruction := by
  refine ⟨fun s i hm hb hu hi hw hbytes hin hn => ?_, fun s i rest hm hb hu hi hw hbytes hin hn => ?_,
    fun s i rest hm hb hu hi hw hbytes hin hn => ?_, fun s v i rest hm hv => ?_⟩
  · rw [step_dec hm hb hu]
    exact decStep_of_encoded hi hw hbytes hin hn
  · rw [step_tick hm, engineStep_dec (s := { s with host := rest }) hb hu]
    exact decStep_of_encoded (s := { s with host := rest }) hi hw hbytes hin hn
  · rw [step_await_busy hm hb, engineStep_dec hb hu]
    exact decStep_of_encoded hi hw hbytes hin hn
  · rw [step_of_host hm, hostMove, writeReg, writeCmd, hv]

/-! ### The opcodes that complete -/

/-- An opcode other than StreamEnd whose checks pass completes (40_decoder_opcodes R133, R134). -/
theorem exec_completes {i : Instr} {s : State} (hi : i.isOpcode = true) (hne : ∀ lit, i ≠ .streamEnd lit)
    (hin : s.ip.toNat + controlBytes i + literalCount i ≤ s.n.toNat) (hn : s.n.toNat ≤ s.cfg.inSize)
    (hout : s.op.toNat + literalCount i + matchLength i ≤ s.dsize.toNat) (hd : s.dsize.toNat ≤ s.cfg.outSize)
    (hoff : matchOffset i ≤ s.op.toNat + literalCount i) : exec i s = .next (afterOpcode i s) := by
  have ho := exec_opcode_outcome i s hi
  generalize exec i s = o at ho
  cases ho with
  | stopped h => cases h <;> omega
  | badOffset _ _ h => omega
  | overrun _ _ _ h => omega
  | outAbsent _ _ _ h => omega
  | completed => rfl
  | sizeMismatch lit hs => exact absurd hs (hne lit)
  | expectMismatch lit hs => exact absurd hs (hne lit)
  | halted lit hs => exact absurd hs (hne lit)

theorem isOpcode_of_isCopy {i : Instr} (hc : i.isCopy = true) : i.isOpcode = true := by
  cases i with
  | shortCopy | mediumCopy | longCopy => rfl
  | literalRun | streamEnd | compress | decompress => cases hc

theorem ne_streamEnd_of_isCopy {i : Instr} (hc : i.isCopy = true) (lit : Nat) : i ≠ .streamEnd lit := by
  rintro rfl
  cases hc

/-- The offset of a copy reaches back at least one byte (30_encoding R93). -/
theorem matchOffset_pos {i : Instr} (hc : i.isCopy = true) (hw : i.wellFormed = true) : 1 ≤ matchOffset i := by
  cases i with
  | shortCopy =>
    obtain ⟨-, -, hpos, -⟩ := wellFormed_shortCopy.mp hw
    exact hpos
  | mediumCopy =>
    obtain ⟨-, -, hpos, -⟩ := wellFormed_mediumCopy.mp hw
    exact hpos
  | longCopy =>
    obtain ⟨-, -, hpos, -⟩ := wellFormed_longCopy.mp hw
    exact hpos
  | literalRun | streamEnd | compress | decompress => cases hc

/-- Settles O10: one argument for the three copies, in the operands of the opcode. -/
theorem copyOpcodesComplete : Obligations.CopyOpcodesComplete := by
  intro s i size lit len off hi hw hin hn hout hd hoff
  obtain ⟨hc, rfl, rfl, rfl, rfl⟩ : i.isCopy = true ∧ controlBytes i = size ∧ literalCount i = lit ∧
      matchLength i = len ∧ matchOffset i = off := by
    rcases hi with ⟨rfl, rfl⟩ | ⟨rfl, rfl⟩ | ⟨rfl, rfl⟩ <;> exact ⟨rfl, rfl, rfl, rfl, rfl⟩
  have hlt := hout.trans_lt s.dsize.isLt
  exact ⟨afterOpcode i s, exec_completes (isOpcode_of_isCopy hc) (ne_streamEnd_of_isCopy hc) hin hn hout hd hoff,
    afterOpcode_eq i s,
    fun k hk => afterOpcode_read_literal i s k hlt hk,
    fun k hk => afterOpcode_read_match i s k hlt hk (matchOffset_pos hc hw) hoff,
    fun a ha => afterOpcode_read_outside i s a hlt ha⟩

/-- Settles O11: a LiteralRun is an opcode whose match is empty. -/
theorem literalRunCompletes : Obligations.LiteralRunCompletes := by
  intro s lit _ hin hn hout hd
  have hlt := hout.trans_lt s.dsize.isLt
  exact ⟨afterOpcode (.literalRun lit) s,
    exec_completes rfl (by simp) hin hn hout hd (Nat.zero_le _), afterOpcode_eq (.literalRun lit) s,
    fun k hk => afterOpcode_read_literal (.literalRun lit) s k hlt hk,
    fun a ha => afterOpcode_read_outside (.literalRun lit) s a hlt ha⟩

/-! ### StreamEnd -/

/-- The normal end of StreamEnd, recorded against the state before the opcode. -/
theorem halt_afterEndLiterals_ended (lit : Nat) (s : State) : s.EndedNormally (afterEndLiterals lit s).halt := by
  rw [afterEndLiterals, afterLiterals_eq]
  exact { State.halt_ended _ with }

/-- OUT below OUT_LEN after StreamEnd: its literals, and below them what was there before (43_host_commands R237). -/
theorem halt_afterEndLiterals_read (lit : Nat) (s : State) {a : Nat} (h : s.op.toNat + lit < 2 ^ 32)
    (ha : a < s.op.toNat + lit) : (afterEndLiterals lit s).halt.outMem.read a =
      if s.op.toNat ≤ a then s.inMem.read (s.ip.toNat + 1 + (a - s.op.toNat)) else s.outMem.read a := by
  have hlen : (afterEndLiterals lit s).outLen.toNat = s.op.toNat + lit := toNat_add_word _ _ h
  rw [State.halt_read, hlen, if_pos ha]
  exact (afterLiterals_read 1 lit s a h).trans (by simp only [ha, and_true])

/-- A StreamEnd whose checks pass halts (40_decoder_opcodes R140). -/
theorem exec_streamEnd_halts {lit : Nat} {s : State} (hin : s.ip.toNat + 1 + lit ≤ s.n.toNat)
    (hn : s.n.toNat ≤ s.cfg.inSize) (hop : s.op + word lit = s.dsize) (hle : s.op.toNat + lit ≤ s.dsize.toNat)
    (hd : s.dsize.toNat ≤ s.cfg.outSize) (he : s.expectEn = true → s.expect = s.dsize) :
    exec (.streamEnd lit) s = .next (afterEndLiterals lit s).halt := by
  rw [exec]
  rcases execStreamEnd_cases lit s with ⟨o, h, _⟩ | ⟨_, h, _⟩ | ⟨_, _, hen, h, _⟩ | ⟨_, _, _, h⟩
  · cases h <;> omega
  · exact absurd hop h
  · exact absurd (hop.trans (he hen).symm) h
  · exact h

/-- Settles O12: the literals bring `op` to the declared size, which OUT_LEN takes. -/
theorem streamEndCompletes : Obligations.StreamEndCompletes := by
  intro s lit _ hin hn hout hd he
  have hlt : s.op.toNat + lit < 2 ^ 32 := hout.trans_lt s.dsize.isLt
  have hop : s.op + word lit = s.dsize := BitVec.eq_of_toNat_eq ((toNat_add_word _ _ hlt).trans hout)
  refine ⟨_, exec_streamEnd_halts hin hn hop hout.le hd he, halt_afterEndLiterals_ended lit s, hop,
    fun k hk => ?_, fun a ha => ?_⟩
  · rw [halt_afterEndLiterals_read lit s hlt (by omega), if_pos (by omega), Nat.add_sub_cancel_left]
  · rw [halt_afterEndLiterals_read lit s hlt (by omega), if_neg (by omega)]

/-! ### The frame of all five opcodes -/

/-- Settles O16: an opcode whose outcome is neither a stop nor an error completes or, as StreamEnd, halts. -/
theorem opcodeChangesOnly : Obligations.OpcodeChangesOnly := by
  intro s t i hi hst hx hne
  have ho := exec_opcode_outcome i s hi
  rw [hx] at ho
  cases ho with
  | stopped h =>
    cases h with
    | exhausted => exact absurd rfl hne
    | overrun => exact absurd rfl hne
  | badOffset => exact absurd rfl hne
  | overrun => exact absurd rfl hne
  | completed _ _ _ h =>
    have hlt := h.trans_lt s.dsize.isLt
    exact .inl ⟨by rw [afterOpcode_eq]; exact hst, afterOpcode_eq i s,
      fun a ha => afterOpcode_read_outside i s a hlt ha⟩
  | sizeMismatch => exact absurd rfl hne
  | expectMismatch => exact absurd rfl hne
  | halted lit hi' hf =>
    subst hi'
    have hlt := hf.output.trans_lt s.dsize.isLt
    refine .inr ⟨⟨lit, rfl⟩, halt_afterEndLiterals_ended lit s, rfl, fun a ha => ?_⟩
    rw [halt_afterEndLiterals_read lit s hlt (by omega), if_neg (by omega)]

end Sys2Proof.Machine
end

section
/-! Proof that a DECOMPRESS depends on its operands alone: two runs of DEC in lockstep, each part of an opcode answering
the same in both. -/

namespace Sys2Proof.Machine

/-! ### Two runs that agree -/

/-- DEC runs with no host move pending, its input in IN and its declared size in OUT. -/
structure State.DecReady (s : State) : Prop where
  host : s.host = []
  busy : s.busy = true
  unit : s.unit = .dec
  n_le : s.n.toNat ≤ s.cfg.inSize
  dsize_le : s.dsize.toNat ≤ s.cfg.outSize

/-- What a run of DEC can use is the same in both states: the input below `n`, the output below `op`, its pointers and
what it compares them with (40_decoder_opcodes R147). -/
structure State.DecAgrees (s s' : State) : Prop where
  ready : s.DecReady
  ready' : s'.DecReady
  ip : s'.ip = s.ip
  op : s'.op = s.op
  dsize : s'.dsize = s.dsize
  n : s'.n = s.n
  expect : s'.expect = s.expect
  expectEn : s'.expectEn = s.expectEn
  errInfo : s'.errInfo = s.errInfo
  errIp : s'.errIp = s.errIp
  errOp : s'.errOp = s.errOp
  input : ∀ a, a < s.n.toNat → s'.inMem.read a = s.inMem.read a
  output : ∀ a, a < s.op.toNat → s'.outMem.read a = s.outMem.read a

/-- Both states are idle with no host move pending, and hold the same result of a command. -/
structure State.SameResult (t t' : State) : Prop where
  host : t.host = []
  host' : t'.host = []
  idle : t.busy = false
  status : t'.status = t.status
  errInfo : t'.errInfo = t.errInfo
  errIp : t'.errIp = t.errIp
  errOp : t'.errOp = t.errOp
  outLen : t'.outLen = t.outLen
  output : ∀ a, a < t.outLen.toNat → t'.outMem.read a = t.outMem.read a

theorem State.SameResult.idle' {t t' : State} (h : t.SameResult t') : t'.busy = false := by
  rw [State.busy, h.status]; exact h.idle

/-- Both states have the next opcode before them, or the same result. -/
def State.Agrees (t t' : State) : Prop := t.DecAgrees t' ∨ t.SameResult t'

/-- Both outcomes are next states, and those agree. -/
def OutcomesAgree (o o' : Host.Outcome State Fault Refusal) : Prop :=
  ∃ t t', o = .next t ∧ o' = .next t' ∧ t.Agrees t'

/-- Two parts of an instruction both go on, in states related by `R`, or both end with the same result. -/
inductive Flow.Agrees (R : State → State → Prop) : Flow → Flow → Prop where
  | go {t t' : State} (h : R t t') : Flow.Agrees R (.go t) (.go t')
  | ended {t t' : State} (h : t.SameResult t') : Flow.Agrees R (.ended (.next t)) (.ended (.next t'))

theorem Flow.Agrees.andThen {R Q : State → State → Prop} {f f' : Flow} {g g' : State → Flow}
    (hf : f.Agrees R f') (hg : ∀ t t', R t t' → (g t).Agrees Q (g' t')) :
    (f.andThen g).Agrees Q (f'.andThen g') := by
  cases hf with
  | go h => exact hg _ _ h
  | ended h => exact .ended h

theorem Flow.Agrees.outcome {R : State → State → Prop} {f f' : Flow} (hf : f.Agrees R f')
    (hR : ∀ t t', R t t' → t.Agrees t') : OutcomesAgree f.outcome f'.outcome := by
  cases hf with
  | go h => exact ⟨_, _, rfl, rfl, hR _ _ h⟩
  | ended h => exact ⟨_, _, rfl, rfl, .inr h⟩

theorem Flow.Agrees.ite {R : State → State → Prop} {f f' g g' : Flow} {c c' : Prop} [Decidable c] [Decidable c']
    (hc : c' ↔ c) (hf : f.Agrees R f') (hg : g.Agrees R g') :
    (if c then f else g).Agrees R (if c' then f' else g') := by
  rw [ite_cond_congr (propext hc)]
  split
  · exact hf
  · exact hg

/-! ### The ends of a command -/

/-- An error leaves its cause and positions, and nothing of OUT. -/
theorem State.raise_sameResult (c : Cause) {ip ip' op op' : Word} {s s' : State} (h : s.host = [])
    (h' : s'.host = []) (hip : ip' = ip) (hop : op' = op) : (s.raise c ip op).SameResult (s'.raise c ip' op') where
  host := h
  host' := h'
  idle := State.raise_busy ..
  status := rfl
  errInfo := rfl
  errIp := hip
  errOp := hop
  outLen := rfl
  output := fun _ ha => absurd ha (Nat.not_lt_zero _)

section
variable {s s' : State} (h : s.DecAgrees s')
include h

theorem State.DecAgrees.raise_sameResult (c : Cause) {ip ip' op op' : Word} (hip : ip' = ip) (hop : op' = op) :
    (s.raise c ip op).SameResult (s'.raise c ip' op') :=
  State.raise_sameResult c h.ready.host h.ready'.host hip hop

/-- The normal end leaves the bytes of OUT below `op`. -/
theorem State.DecAgrees.halt_sameResult :
    ({ s with outLen := s.op } : State).halt.SameResult ({ s' with outLen := s'.op } : State).halt where
  host := h.ready.host
  host' := h.ready'.host
  idle := State.halt_busy _
  status := rfl
  errInfo := h.errInfo
  errIp := h.errIp
  errOp := h.errOp
  outLen := h.op
  output := fun a (ha : a < s.op.toNat) => by
    rw [State.halt_read, State.halt_read, if_pos ha, if_pos (by simpa only [h.op] using ha)]
    exact h.output a ha

/-! ### The copies -/

theorem State.DecAgrees.latchOpcode (i : Instr) : (s.latchOpcode i).DecAgrees (s'.latchOpcode i) :=
  { h with ready := { h.ready with }, ready' := { h.ready' with } }

theorem State.DecAgrees.advanceIp (ip : Word) : ({ s with ip := ip } : State).DecAgrees { s' with ip := ip } :=
  { h with ready := { h.ready with }, ready' := { h.ready' with }, ip := rfl }

theorem State.DecAgrees.outPush {v v' : Byte} (hv : v' = v) (hop : s.op.toNat + 1 < 2 ^ 32) :
    (s.outPush v).DecAgrees (s'.outPush v') where
  ready := { h.ready with }
  ready' := { h.ready' with }
  ip := h.ip
  op := congrArg (· + 1#32) h.op
  dsize := h.dsize
  n := h.n
  expect := h.expect
  expectEn := h.expectEn
  errInfo := h.errInfo
  errIp := h.errIp
  errOp := h.errOp
  input := h.input
  output := fun a ha => by
    have hop' : (s.outPush v).op.toNat = s.op.toNat + 1 := toNat_add_word s.op 1 hop
    rw [State.outPush_outMem, State.outPush_outMem, Memory.read_write, Memory.read_write, h.op, hv]
    split
    · rfl
    · exact h.output a (by omega)

end

theorem copyLiterals_agrees {s s' : State} (src k : Nat) (h : s.DecAgrees s') (hin : src + k ≤ s.n.toNat)
    (hop : s.op.toNat + k < 2 ^ 32) : (copyLiterals src k s).DecAgrees (copyLiterals src k s') := by
  induction k generalizing src s s' with
  | zero => exact h
  | succ k ih =>
    have hop' : (s.outPush (s.inMem.read src)).op.toNat = s.op.toNat + 1 := toNat_add_word s.op 1 (by omega)
    exact ih (src + 1) (h.outPush (h.input src (by omega)) (by omega))
      (by rw [State.outPush_n]; omega) (by omega)

/-- Every byte that CopyMatch reads stands below the moving `op`. -/
theorem copyMatch_agrees {s s' : State} {off : Nat} (k : Nat) (h : s.DecAgrees s') (hoff : 1 ≤ off)
    (hle : off ≤ s.op.toNat) (hop : s.op.toNat + k < 2 ^ 32) :
    (copyMatch off k s).DecAgrees (copyMatch off k s') := by
  induction k generalizing s s' with
  | zero => exact h
  | succ k ih =>
    have hop' : (s.outPush (s.outMem.read (s.op.toNat - off))).op.toNat = s.op.toNat + 1 :=
      toNat_add_word s.op 1 (by omega)
    have hread : s'.outMem.read (s'.op.toNat - off) = s.outMem.read (s.op.toNat - off) := by
      rw [h.op]; exact h.output _ (by omega)
    exact ih (h.outPush hread (by omega)) (by omega) (by omega)

/-! ### The phases of an opcode -/

theorem literalPhase_agrees {s s' : State} (size lit : Nat) (h : s.DecAgrees s') :
    (literalPhase size lit s).Agrees State.DecAgrees (literalPhase size lit s') := by
  by_cases h1 : s.n.toNat < s.ip.toNat + size + lit
  · simp only [literalPhase, h.n, h.ip, h.op, if_pos h1]
    exact .ended (h.raise_sameResult _ rfl rfl)
  by_cases h2 : s.dsize.toNat < s.op.toNat + lit
  · simp only [literalPhase, h.n, h.ip, h.op, h.dsize, if_neg h1, if_pos h2]
    exact .ended (h.raise_sameResult _ rfl rfl)
  have hlt := s.dsize.isLt
  rw [literalPhase_go size lit s (by omega) (by omega) h.ready.n_le h.ready.dsize_le,
    literalPhase_go size lit s' (by rw [h.n, h.ip]; omega) (by rw [h.op, h.dsize]; omega) h.ready'.n_le
      h.ready'.dsize_le, afterLiterals, afterLiterals, h.ip]
  exact .go ((copyLiterals_agrees _ _ h (by omega) (by omega)).advanceIp _)

theorem matchPhase_agrees {s s' : State} (ip0 : Word) (len : Nat) {off : Nat} (hoff : 1 ≤ off)
    (h : s.DecAgrees s') : (matchPhase ip0 len off s).Agrees State.DecAgrees (matchPhase ip0 len off s') := by
  by_cases h1 : s.op.toNat < off
  · simp only [matchPhase, h.op, if_pos h1]
    exact .ended (h.raise_sameResult _ rfl rfl)
  by_cases h2 : s.dsize.toNat < s.op.toNat + len
  · simp only [matchPhase, h.op, h.dsize, if_neg h1, if_pos h2]
    exact .ended (h.raise_sameResult _ rfl rfl)
  have hlt := s.dsize.isLt
  rw [matchPhase_go ip0 len off s (by omega) (by omega) h.ready.dsize_le,
    matchPhase_go ip0 len off s' (by rw [h.op]; omega) (by rw [h.op, h.dsize]; omega) h.ready'.dsize_le]
  exact .go (copyMatch_agrees len h hoff (by omega) (by omega))

theorem endPhase_agrees {s s' : State} (ip0 : Word) (h : s.DecAgrees s') :
    (endPhase ip0 s).Agrees State.SameResult (endPhase ip0 s') := by
  have hraise (c : Cause) :
      Flow.Agrees State.SameResult (.ended (.next (s.raise c ip0 s.op))) (.ended (.next (s'.raise c ip0 s'.op))) :=
    .ended (h.raise_sameResult c rfl h.op)
  exact .ite (by rw [h.op, h.dsize]) (hraise _)
    (.ite (by rw [h.op, h.expect, h.expectEn]) (hraise _) (.go h.halt_sameResult))

/-! ### The opcodes -/

theorem copyOpcode_agrees {s s' : State} (size lit len : Nat) {off : Nat} (hoff : 1 ≤ off)
    (h : s.DecAgrees s') : OutcomesAgree (copyOpcode size lit len off s) (copyOpcode size lit len off s') := by
  unfold copyOpcode
  rw [h.ip]
  exact ((literalPhase_agrees size lit h).andThen fun _ _ => matchPhase_agrees s.ip len hoff).outcome fun _ _ => .inl

/-- A well-formed opcode does the same in states that agree. -/
theorem exec_opcode_agrees {s s' : State} {i : Instr} (hi : i.isOpcode = true) (hw : i.wellFormed = true)
    (h : s.DecAgrees s') : OutcomesAgree (exec i s) (exec i s') := by
  cases i with
  | shortCopy lit len off => exact copyOpcode_agrees _ lit len (matchOffset_pos rfl hw) h
  | mediumCopy lit len off => exact copyOpcode_agrees _ lit len (matchOffset_pos rfl hw) h
  | longCopy lit len off => exact copyOpcode_agrees _ lit len (matchOffset_pos rfl hw) h
  | literalRun lit => exact (literalPhase_agrees _ lit h).outcome fun _ _ => .inl
  | streamEnd lit =>
    simp only [exec, execStreamEnd, h.ip]
    exact ((literalPhase_agrees _ lit h).andThen fun _ _ => endPhase_agrees s.ip).outcome fun _ _ => .inr
  | compress => cases hi
  | decompress => cases hi

/-! ### The step and the run -/

theorem State.DecReady.inCovers {s : State} (h : s.DecReady) {k : Nat} (hk : k ≤ s.n.toNat) :
    s.inCovers k = true := decide_eq_true (hk.trans h.n_le)

/-- The fetch reads bytes below `n` only. -/
theorem fetch_agrees {s s' : State} (h : s.DecAgrees s') : fetch s' = fetch s := by
  have hcovers {k : Nat} (hk : k ≤ s.n.toNat) : s'.inCovers k = s.inCovers k := by
    rw [h.ready.inCovers hk, h.ready'.inCovers (h.n ▸ hk)]
  have hpos := controlSize_pos (classify (s.inMem.read s.ip.toNat))
  unfold fetch
  rw [h.n, h.ip]
  by_cases h1 : s.n.toNat ≤ s.ip.toNat
  · rw [if_pos h1, if_pos h1]
  rw [if_neg h1, if_neg h1, h.input s.ip.toNat (by omega), hcovers (k := s.ip.toNat + 1) (by omega)]
  by_cases h2 : s.n.toNat < s.ip.toNat + controlSize (classify (s.inMem.read s.ip.toNat))
  · simp only [if_pos h2]
  have hbytes := Memory.readBytes_congr s'.inMem s.inMem s.ip.toNat
    (controlSize (classify (s.inMem.read s.ip.toNat))) fun a _ ha => h.input a (by omega)
  simp only [if_neg h2, hbytes, hcovers (Nat.le_of_not_lt h2)]

/-- Where the input lies in IN, DEC fetches a well-formed opcode, or the input ends before one. -/
theorem State.DecReady.fetch_eq {s : State} (h : s.DecReady) :
    fetch s = .exhausted ∨ ∃ i, i.isOpcode = true ∧ i.wellFormed = true ∧ fetch s = .got i := by
  have hn := h.n_le
  rcases fetch_cases s with ⟨_, hf⟩ | ⟨_, _, hf | ⟨_, _⟩⟩ | ⟨_, _, _⟩ | ⟨_, _, i, _, _, hi, hw, hf⟩
  · exact .inl hf
  · exact .inl hf
  · omega
  · omega
  · exact .inr ⟨i, hi, hw, hf⟩

theorem decStep_agrees {s s' : State} (h : s.DecAgrees s') : OutcomesAgree (decStep s) (decStep s') := by
  unfold decStep
  rw [fetch_agrees h]
  rcases h.ready.fetch_eq with hf | ⟨i, hi, hw, hf⟩ <;> rw [hf]
  · exact ⟨_, _, rfl, rfl, .inr (h.raise_sameResult _ h.ip h.op)⟩
  · exact exec_opcode_agrees hi hw (h.latchOpcode i)

/-- Machines that agree end with the same result after the same number of steps. -/
theorem run_agrees {s s' t : State} {k : Nat} (h : s.Agrees s') (hrun : Host.Core.run core k s = .next t)
    (ht : t.busy = false) : ∃ t', Host.Core.run core k s' = .next t' ∧ t.SameResult t' := by
  induction k generalizing s s' with
  | zero =>
    cases hrun
    rcases h with h | h
    · exact absurd (h.ready.busy.symm.trans ht) (by decide)
    · exact ⟨s', rfl, h⟩
  | succ k ih =>
    rcases h with h | h
    · obtain ⟨u, u', hu, hu', hagree⟩ := decStep_agrees h
      rw [← step_dec h.ready.host h.ready.busy h.ready.unit] at hu
      rw [← step_dec h.ready'.host h.ready'.busy h.ready'.unit] at hu'
      rw [run_succ k s u hu] at hrun
      rw [run_succ k s' u' hu']
      exact ih hagree hrun
    · rw [run_idle _ s h.host h.idle] at hrun
      cases hrun
      exact ⟨s', run_idle _ s' h.host' h.idle', h⟩

/-! ### The start -/

/-- Both states have no host move pending, and hold the same legal operands of a DECOMPRESS and the same magic
(40_decoder_opcodes R147). -/
structure State.SameOperands (s s' : State) : Prop where
  host : s.host = []
  host' : s'.host = []
  fit : s.operandsFit = true
  fit' : s'.operandsFit = true
  magic0 : s'.cfg.magic0 = s.cfg.magic0
  magic1 : s'.cfg.magic1 = s.cfg.magic1
  largeMask : s'.cfg.largeMask = s.cfg.largeMask
  inLen : s'.inLen = s.inLen
  outCap : s'.outCap = s.outCap
  expect : s'.expect = s.expect
  expectEn : s'.expectEn = s.expectEn
  input : ∀ a, a < s.inLen.toNat → s'.inMem.read a = s.inMem.read a

section
variable {s s' : State} (h : s.SameOperands s')
include h

theorem State.SameOperands.magicRecognised_eq (hn : 2 ≤ s.inLen.toNat) :
    magicRecognised s'.cfg (s'.inMem.read 0) (s'.inMem.read 1) =
      magicRecognised s.cfg (s.inMem.read 0) (s.inMem.read 1) := by
  rw [magicRecognised, h.magic0, h.magic1, h.largeMask, h.input 0 (by omega), h.input 1 (by omega), magicRecognised]

theorem State.SameOperands.headerIsLarge_eq (hn : 2 ≤ s.inLen.toNat) :
    headerIsLarge s'.cfg (s'.inMem.read 1) = headerIsLarge s.cfg (s.inMem.read 1) := by
  rw [headerIsLarge, h.largeMask, h.input 1 (by omega), headerIsLarge]

theorem State.SameOperands.declaredSize_eq {large : Bool} (hn : headerLength large ≤ s.inLen.toNat) :
    declaredSize s'.inMem large = declaredSize s.inMem large := by
  have hlen : 2 ≤ headerLength large := by unfold headerLength; omega
  rw [declaredSize, Memory.readBytes_congr s'.inMem s.inMem _ _ fun a _ ha => h.input a (by omega), declaredSize]

/-- A declared size within the capacity leaves DEC ready for the first opcode. -/
theorem State.SameOperands.decStarted_agrees {dsize : Nat} (large : Bool) (hd : dsize ≤ s.outCap.toNat) :
    (s.decStarted large dsize).DecAgrees (s'.decStarted large dsize) := by
  obtain ⟨hin, hout⟩ := (operandsFit_iff s).1 h.fit
  obtain ⟨hin', hout'⟩ := (operandsFit_iff s').1 h.fit'
  have hds : (word dsize).toNat = dsize := toNat_word_of_lt _ (hd.trans_lt s.outCap.isLt)
  exact
    { ready := ⟨h.host, busy_of_status rfl, rfl, hin, hds.trans_le (hd.trans hout)⟩
      ready' := ⟨h.host', busy_of_status rfl, rfl, hin', hds.trans_le (hd.trans (h.outCap ▸ hout'))⟩
      ip := rfl
      op := rfl
      dsize := rfl
      n := h.inLen
      expect := h.expect
      expectEn := h.expectEn
      errInfo := rfl
      errIp := rfl
      errOp := rfl
      input := h.input
      output := fun _ ha => absurd ha (Nat.not_lt_zero _) }

/-- DEC_START reads the header only, and makes the same checks (40_decoder_opcodes R131). -/
theorem State.SameOperands.decStart_agrees : (decStart (s.accept .dec)).Agrees (decStart (s'.accept .dec)) := by
  have hraise (c : Cause) : ((s.accept .dec).raise c 0 0).Agrees ((s'.accept .dec).raise c 0 0) :=
    .inr (State.raise_sameResult c h.host h.host' rfl rfl)
  rw [decStart_accept, decStart_accept, h.inLen, h.outCap]
  by_cases h1 : s.inLen.toNat < 2
  · rw [if_pos h1, if_pos h1]; exact hraise _
  rw [if_neg h1, if_neg h1, h.magicRecognised_eq (by omega), h.headerIsLarge_eq (by omega)]
  generalize headerIsLarge s.cfg (s.inMem.read 1) = large
  split
  · exact hraise _
  by_cases h3 : s.inLen.toNat < headerLength large
  · rw [if_pos h3, if_pos h3]; exact hraise _
  rw [if_neg h3, if_neg h3, h.declaredSize_eq (by omega)]
  by_cases h4 : s.outCap.toNat < declaredSize s.inMem large
  · rw [if_pos h4, if_pos h4]; exact hraise _
  rw [if_neg h4, if_neg h4]
  exact .inl (h.decStarted_agrees large (by omega))

end

/-- Settles O32: the start rule and then every step answer the same on both machines. -/
theorem decompressDependsOnlyOnOperands : Obligations.DecompressDependsOnlyOnOperands := by
  intro s s' s1 t k hm hm' hb hb' hf hf' hmagic0 hmagic1 hmask hinLen hcap hexpect hexpectEn hin hs1 hrun ht
  have hops : s.SameOperands s' :=
    ⟨hm, hm', hf, hf', hmagic0, hmagic1, hmask, hinLen, hcap, hexpect, hexpectEn, hin⟩
  rw [exec_decompress s hb hf] at hs1
  cases hs1
  obtain ⟨t', hrun', h⟩ := run_agrees hops.decStart_agrees hrun ht
  exact ⟨_, t', exec_decompress s' hb' hf', hrun', h.status, h.errInfo, h.errIp, h.errOp, h.outLen, h.output⟩

end Sys2Proof.Machine
end

section
/-! Proof that MF selects the longest candidate and, among equal lengths, the one of the smallest offset. -/

namespace Sys2Proof.Machine

/-! ### The candidates in the match finder's own terms -/

theorem le_equalRun {m : Memory} {a b cap k : Nat} (hk : k ≤ cap)
    (h : ∀ i, i < k → m.read (a + i) = m.read (b + i)) : k ≤ equalRun m a b cap := by
  by_contra hlt
  exact equalRun_maximal m a b cap (by omega) (h _ (by omega))

theorem le_runlen {m : Memory} {n cur o k : Nat} (hmax : k ≤ 1028) (hn : cur + k ≤ n)
    (h : ∀ i, i < k → m.read (cur - o + i) = m.read (cur + i)) : k ≤ runlen m n cur o :=
  le_equalRun (le_min hmax (by omega)) h

theorem runLengthIs_iff {m : Memory} {n cur o len : Nat} (hc : cur ≤ n) :
    RunLengthIs m n cur o len ↔ len = runlen m n cur o := by
  have hle := runlen_le m n cur o
  have heq : ∀ k, k < runlen m n cur o → m.read (cur - o + k) = m.read (cur + k) := equalRun_eq _ _ _ _
  constructor
  · rintro ⟨hmax, hn, hrun, hlongest⟩
    exact (le_runlen hmax hn hrun).antisymm (hlongest _ (by omega) (by omega) heq)
  · rintro rfl
    exact ⟨by omega, by omega, heq, fun _ => le_runlen⟩

/-- MF's loop looks at every offset of the window, and keeps one by its run alone. -/
theorem candidate_iff {m : Memory} {n cur o len : Nat} (hc : cur ≤ n) :
    Candidate m n cur o len ↔
      1 ≤ o ∧ o ≤ min cur maxLookback ∧ encodable o len = true ∧ len = runlen m n cur o := by
  rw [Candidate, runLengthIs_iff hc, encodable_iff, Covered, maxLookback, le_min_iff]
  tauto

/-! ### The candidate that MF selects -/

/-- A candidate that every other one falls short of in length, or equals in length with an offset no smaller
(41_match_finder R173, R174). -/
def IsSelected (m : Memory) (n cur o len : Nat) : Prop :=
  Candidate m n cur o len ∧
    ∀ o' len', Candidate m n cur o' len' → len' < len ∨ (len' = len ∧ o ≤ o')

/-- The result is unique (41_match_finder R174). -/
theorem IsSelected.unique {m : Memory} {n cur o len o' len' : Nat} (h : IsSelected m n cur o len)
    (h' : IsSelected m n cur o' len') : o = o' ∧ len = len' := by
  have hle := h.2 o' len' h'.1
  have hge := h'.2 o len h.1
  omega

/-- What the search over the whole window answers: no candidate exists, or the selected one is found. -/
theorem matchFinder_cases (m : Memory) {n cur : Nat} (hc : cur ≤ n) :
    (matchFinder m n cur = none ∧ ∀ o len, ¬Candidate m n cur o len) ∨
      ∃ o len, matchFinder m n cur = some (o, len) ∧ IsSelected m n cur o len := by
  rcases bestMatch_spec m n cur (min cur maxLookback) with ⟨hnone, hall⟩ | ⟨o, ho, hpos, hwin, henc, hbest⟩
  · refine .inl ⟨hnone, fun o len h => ?_⟩
    obtain ⟨hpos, hwin, henc, rfl⟩ := (candidate_iff hc).1 h
    simp [hall o hpos hwin] at henc
  · refine .inr ⟨o, _, ho, (candidate_iff hc).2 ⟨hpos, hwin, henc, rfl⟩, fun o' len' h' => ?_⟩
    obtain ⟨hpos', hwin', henc', rfl⟩ := (candidate_iff hc).1 h'
    exact hbest o' hpos' hwin' henc'

theorem matchFinder_eq_some_iff {m : Memory} {n cur o len : Nat} (hc : cur ≤ n) :
    matchFinder m n cur = some (o, len) ↔ IsSelected m n cur o len := by
  rcases matchFinder_cases m hc with ⟨hnone, hno⟩ | ⟨o', len', hsome, hsel⟩
  · simpa [hnone] using fun h : IsSelected m n cur o len => hno o len h.1
  · rw [hsome, Option.some.injEq, Prod.mk.injEq]
    exact ⟨fun ⟨ho, hlen⟩ => ho ▸ hlen ▸ hsel, hsel.unique⟩

theorem matchFinder_eq_none_iff {m : Memory} {n cur : Nat} (hc : cur ≤ n) :
    matchFinder m n cur = none ↔ ∀ o len, ¬Candidate m n cur o len := by
  rcases matchFinder_cases m hc with ⟨hnone, hno⟩ | ⟨o, len, hsome, hsel⟩
  · exact iff_of_true hnone hno
  · exact iff_of_false (by simp [hsome]) fun hno => hno o len hsel.1

/-- Settles O23: `matchFinder_cases`, with the uniqueness of the selected candidate. -/
theorem matchFinderSelectsLongestNearest : Obligations.MatchFinderSelectsLongestNearest :=
  fun _ _ _ hc => ⟨fun _ _ => matchFinder_eq_some_iff hc, matchFinder_eq_none_iff hc⟩

end Sys2Proof.Machine
end

section
/-! What a running ENC writes, as sequences of bytes that OUT holds, and what its step answers in each case. -/

namespace Sys2Proof.Machine

/-! ### A sequence of bytes in a memory -/

/-- The bytes of the memory from `a` up are `bs`. -/
def Memory.Holds (m : Memory) (a : Nat) (bs : List Byte) : Prop := m.readBytes a bs.length = bs

theorem Memory.holds_iff {m : Memory} {a : Nat} {bs : List Byte} :
    m.Holds a bs ↔ ∀ j (h : j < bs.length), m.read (a + j) = bs[j] := by
  constructor
  · intro h j hj
    rw [← Memory.getElem_readBytes m a bs.length j (by rwa [Memory.length_readBytes])]
    exact List.getElem_of_eq h _
  · intro h
    refine List.ext_getElem (Memory.length_readBytes ..) fun j _ hj => ?_
    rw [Memory.getElem_readBytes, h j hj]

theorem Memory.holds_append {m : Memory} {a : Nat} {bs cs : List Byte} :
    m.Holds a (bs ++ cs) ↔ m.Holds a bs ∧ m.Holds (a + bs.length) cs := by
  unfold Memory.Holds
  rw [List.length_append, Memory.readBytes_add]
  exact ⟨fun h => List.append_inj h (Memory.length_readBytes ..), fun h => congrArg₂ _ h.1 h.2⟩

theorem Memory.holds_readBytes {m m' : Memory} {a b k : Nat} :
    m.Holds a (m'.readBytes b k) ↔ ∀ j, j < k → m.read (a + j) = m'.read (b + j) := by
  simp only [Memory.holds_iff, Memory.length_readBytes, Memory.getElem_readBytes]

theorem Memory.Holds.read_of_getElem? {m : Memory} {a j : Nat} {bs : List Byte} {b : Byte} (h : m.Holds a bs)
    (hj : bs[j]? = some b) : m.read (a + j) = b := by
  obtain ⟨hlt, rfl⟩ := List.getElem?_eq_some_iff.1 hj
  exact Memory.holds_iff.1 h j hlt

theorem Memory.Holds.congr {m m' : Memory} {a : Nat} {bs : List Byte} (h : m.Holds a bs)
    (heq : ∀ x, a ≤ x → x < a + bs.length → m'.read x = m.read x) : m'.Holds a bs :=
  (Memory.readBytes_congr m' m a bs.length heq).trans h

theorem pushAll_holds (vs : List Byte) (s : State) (h : s.op.toNat + vs.length < 2 ^ 32) :
    (pushAll vs s).outMem.Holds s.op.toNat vs := by
  refine Memory.holds_iff.2 fun j hj => ?_
  rw [pushAll_read vs s _ h, dif_pos (by omega)]
  simp only [Nat.add_sub_cancel_left]

theorem pushAll_read_outside (vs : List Byte) (s : State) {a : Nat} (h : s.op.toNat + vs.length < 2 ^ 32)
    (ha : a < s.op.toNat ∨ s.op.toNat + vs.length ≤ a) : (pushAll vs s).outMem.read a = s.outMem.read a := by
  rw [pushAll_read vs s a h, dif_neg (by omega)]

/-- A sequence appended to one that OUT holds up to `op`. -/
theorem pushAll_holds_append {bs vs : List Byte} {s : State} {a : Nat} (h : s.outMem.Holds a bs)
    (hop : s.op.toNat = a + bs.length) (hlt : s.op.toNat + vs.length < 2 ^ 32) :
    (pushAll vs s).outMem.Holds a (bs ++ vs) :=
  Memory.holds_append.2
    ⟨h.congr fun _ _ hx => pushAll_read_outside vs s hlt (.inl (by omega)), hop ▸ pushAll_holds vs s hlt⟩

/-! ### The bytes of a flush, of a match and of the end -/

/-- A memory that holds a flush holds it as the statements spell it out (42_encoder R195, R200). -/
theorem flushedAt_of_holds {s t : State} (h : t.outMem.Holds s.op.toNat s.flushBytes) : FlushedAt s t s.pending := by
  refine ⟨fun j hj => ?_, fun k hk => ?_⟩
  · rw [h.read_of_getElem? (runBytes_control _ _ _ _ j (Nat.le_refl _) hj), lor_eq_add 5 (by omega) (by omega)]
  · rw [Nat.add_assoc, Nat.add_assoc, ← Nat.add_assoc k]
    exact h.read_of_getElem? (runBytes_literal _ _ _ _ k (Nat.le_refl _) hk)

theorem add_word_eq_word {w : Word} {k : Nat} (h : w.toNat + k < 2 ^ 32) : w + word k = word (w.toNat + k) :=
  BitVec.eq_of_toNat_eq ((toNat_add_word w k h).trans (toNat_word_of_lt _ h).symm)

theorem op_add_length_matchBytes (s : State) (o len : Nat) : s.op.toNat + (s.matchBytes o len).length =
    s.op.toNat + flushLength s.pending + (encode (copyInstr (s.pending % 4) o len)).length + s.pending % 4 := by
  simp only [State.matchBytes, List.length_append, length_flushBytes, Memory.length_readBytes, Nat.add_assoc]

theorem op_add_length_endBytes (s : State) :
    s.op.toNat + s.endBytes.length = s.op.toNat + flushLength s.pending + 1 + s.pending % 4 := by
  simp only [State.endBytes, List.length_append, length_flushBytes, Memory.length_readBytes, Nat.add_assoc, encode,
    List.length_singleton]

/-- Where OUT holds a flush, control bytes and the pending literals in a row, each stands where the statements say. -/
theorem holds_emission {s t : State} {bytes : List Byte}
    (h : t.outMem.Holds s.op.toNat (s.flushBytes ++ (bytes ++
      s.inMem.readBytes (s.cur.toNat - s.pending % 4) (s.pending % 4)))) :
    FlushedAt s t s.pending ∧ t.outMem.Holds (s.op.toNat + flushLength s.pending) bytes ∧
      ∀ k, k < s.pending % 4 → t.outMem.read (s.op.toNat + flushLength s.pending + bytes.length + k) =
        s.inMem.read (s.cur.toNat - s.pending % 4 + k) := by
  rw [Memory.holds_append, Memory.holds_append, length_flushBytes] at h
  obtain ⟨hflush, hbytes, hlits⟩ := h
  exact ⟨flushedAt_of_holds hflush, hbytes, Memory.holds_readBytes.1 hlits⟩

/-! ### The opcode of a match -/

/-- The opcode of a match is a copy with the operands of the match, whatever its class. -/
theorem copyInstr_operands (lit o len : Nat) : (copyInstr lit o len).isCopy = true ∧
    literalCount (copyInstr lit o len) = lit ∧ matchLength (copyInstr lit o len) = len ∧
    matchOffset (copyInstr lit o len) = o := by
  unfold copyInstr
  rcases copyClass_cases o len with ⟨h, _⟩ | ⟨h, _⟩ | ⟨h, _⟩ <;> rw [h] <;> exact ⟨rfl, rfl, rfl, rfl⟩

theorem copyInstr_eq_classOpcode (lit o len : Nat) : copyInstr lit o len = classOpcode lit o len := by
  unfold copyInstr classOpcode
  rcases copyClass_cases o len with ⟨h, hs⟩ | ⟨h, ho, hlo, hhi, hs⟩ | ⟨h, hs, hm⟩ <;> rw [h]
  · rw [if_pos hs]
  · rw [if_neg hs, if_pos ⟨ho, hlo, hhi⟩]
  · rw [if_neg hs, if_neg hm]

/-! ### A running ENC -/

theorem State.toNat_afterMatch {s : State} {o len : Nat} (hlen : s.cur.toNat + len ≤ s.n.toNat)
    (hfit : s.op.toNat + (s.matchBytes o len).length ≤ s.outCap.toNat) :
    (s.afterMatch o len).op.toNat = s.op.toNat + (s.matchBytes o len).length ∧
      (s.afterMatch o len).cur.toNat = s.cur.toNat + len ∧ (s.afterMatch o len).ls.toNat = s.cur.toNat + len :=
  have hcur := toNat_add_word s.cur len (hlen.trans_lt s.n.isLt)
  ⟨toNat_add_word _ _ (hfit.trans_lt s.outCap.isLt), hcur, hcur⟩

/-- ENC runs with no host move pending, its pointers in order. -/
structure State.EncRuns (s : State) : Prop where
  host : s.host = []
  status : s.status = 1#32
  unit : s.unit = .enc
  running : s.Running

theorem State.Inv.encRuns {s : State} (h : s.Inv) (hm : s.host = []) (hb : s.busy = true) (hu : s.unit = .enc) :
    s.EncRuns := ⟨hm, status_of_busy h.status_legal hb, hu, h.running hb⟩

section
variable {s : State} (h : s.EncRuns)
include h

theorem State.EncRuns.busy : s.busy = true := busy_of_status h.status

theorem State.EncRuns.ready : s.EncReady := h.running.encReady h.unit

theorem State.EncRuns.n_le : s.n.toNat ≤ s.cfg.inSize := by rw [h.running.n_eq]; exact h.running.in_fits

theorem State.EncRuns.cur_le_n : s.cur.toNat ≤ s.n.toNat := (h.running.enc_pointers h.unit).cur_le_n

theorem State.EncRuns.ls_add_pending : s.ls.toNat + s.pending = s.cur.toNat :=
  Nat.add_sub_cancel' h.ready.ls_le

/-! ### What its step answers -/

theorem State.EncRuns.step_pass (hc : s.cur.toNat < s.n.toNat)
    (hmf : matchFinder s.inMem s.n.toNat s.cur.toNat = none) : step s = .next { s with cur := s.cur + 1#32 } := by
  rw [step_enc h.host h.busy h.unit, encStep_literal s hc h.n_le hmf]

theorem State.EncRuns.step_match {o len : Nat} (hc : s.cur.toNat < s.n.toNat)
    (hmf : matchFinder s.inMem s.n.toNat s.cur.toNat = some (o, len)) :
    step s = if s.op.toNat + (s.matchBytes o len).length ≤ s.outCap.toNat then .next (s.afterMatch o len)
      else .next (s.raise .outCapacity s.cur s.outCap) := by
  rw [step_enc h.host h.busy h.unit, encStep_match s h.ready hc h.n_le o len hmf]

theorem State.EncRuns.step_end (hc : s.n.toNat ≤ s.cur.toNat) :
    step s = if s.op.toNat + s.endBytes.length ≤ s.outCap.toNat then .next s.afterEnd.halt
      else .next (s.raise .outCapacity s.cur s.outCap) := by
  rw [step_enc h.host h.busy h.unit, encStep_end s h.ready hc]

/-- A byte that joins the pending literals leaves ENC running. -/
theorem State.EncRuns.pass (hc : s.cur.toNat < s.n.toNat) : ({ s with cur := s.cur + 1#32 } : State).EncRuns := by
  have hp := h.running.enc_pointers h.unit
  have hls := hp.ls_le_cur
  have hn := s.n.isLt
  have hcur : (s.cur + 1#32).toNat = s.cur.toNat + 1 := toNat_add_word s.cur 1 (by omega)
  exact { h with
    running := h.running.enc_advance h.unit s.latch s.outMem (Nat.le_refl _) hp.op_le_outCap (by omega) (by omega) }

/-- An emitted match leaves ENC running. -/
theorem State.EncRuns.afterMatch {o len : Nat} (hlen : s.cur.toNat + len ≤ s.n.toNat)
    (hfit : s.op.toNat + (s.matchBytes o len).length ≤ s.outCap.toNat) : (s.afterMatch o len).EncRuns := by
  obtain ⟨hop, hcur, hls⟩ := State.toNat_afterMatch hlen hfit
  exact { h with
    running := h.running.enc_advance h.unit _ _ ((Nat.le_add_right _ _).trans hop.ge) (hop.trans_le hfit)
      (hls.trans hcur.symm).le (hcur.trans_le hlen) }

end

/-! ### The statements about one step -/

/-- Settles O24: MF answers encodable pairs only, and each class covers what reaches it. -/
theorem emittedOpcodeIsValid : Obligations.EmittedOpcodeIsValid := by
  intro m n cur o len lit hm hlit
  obtain ⟨hpos, hcur, -, henc, hmax, -⟩ := matchFinder_some m n cur o len hm
  obtain ⟨-, hw⟩ := copyInstr_cases lit o len hlit hpos henc hmax
  exact ⟨copyInstr_eq_classOpcode lit o len, copyInstr_eq_classOpcode lit o len ▸ hw, hcur⟩

/-- Settles O25: MF answers none where there is no candidate. -/
theorem encoderPassesUnmatchedByte : Obligations.EncoderPassesUnmatchedByte := by
  intro s hm hb hu hc hn hno
  rw [step_enc hm hb hu, encStep_literal s hc hn ((matchFinder_eq_none_iff hc.le).2 hno)]

/-- Settles O26: the bytes of the flush, the opcode and the literals are put as one sequence. -/
theorem encoderEmitsMatch : Obligations.EncoderEmitsMatch := by
  intro s o len hi hm hb hu hc hmf
  have h := hi.encRuns hm hb hu
  simp only [← copyInstr_eq_classOpcode]
  intro hfit
  have hlen := op_add_length_matchBytes s o len
  have hlt := (hlen.trans_le hfit).trans_lt s.outCap.isLt
  have hheld : (s.afterMatch o len).outMem.Holds s.op.toNat (s.matchBytes o len) := pushAll_holds _ s hlt
  obtain ⟨hflush, hbytes, hlits⟩ := holds_emission hheld
  refine ⟨s.afterMatch o len, ?_, ?_, hflush, hbytes, hlits, fun a ha => ?_⟩
  · rw [h.step_match hc hmf, if_pos (hlen.trans_le hfit)]
  · rw [← State.pending, ← hlen, ← add_word_eq_word hlt]; rfl
  · exact pushAll_read_outside _ _ hlt (by rwa [hlen])

/-- The normal end of ENC, recorded against the state before ENC_END. -/
theorem halt_afterEnd_ended (s : State) : s.EndedNormally s.afterEnd.halt := { State.halt_ended s.afterEnd with }

/-- OUT below OUT_LEN after ENC_END (43_host_commands R237). -/
theorem halt_afterEnd_read (s : State) {a : Nat} (hlt : s.op.toNat + s.endBytes.length < 2 ^ 32)
    (ha : a < s.op.toNat + s.endBytes.length) :
    s.afterEnd.halt.outMem.read a = (pushAll s.endBytes s).outMem.read a := by
  have hlen : s.afterEnd.outLen.toNat = s.op.toNat + s.endBytes.length := toNat_add_word _ _ hlt
  rw [State.halt_read, hlen, if_pos ha]
  rfl

/-- Settles O27: the bytes of the flush, StreamEnd and the literals are put as one sequence, all below OUT_LEN. -/
theorem encoderEndsStream : Obligations.EncoderEndsStream := by
  intro s hi hm hb hu hc p lit op1 hfit
  have h := hi.encRuns hm hb hu
  have hlen : s.op.toNat + s.endBytes.length = op1 + 1 + lit := op_add_length_endBytes s
  have hlt := (hlen.trans_le hfit).trans_lt s.outCap.isLt
  have hheld : s.afterEnd.halt.outMem.Holds s.op.toNat s.endBytes :=
    (pushAll_holds s.endBytes s hlt).congr fun _ _ hx => halt_afterEnd_read s hlt hx
  obtain ⟨hflush, hbyte, hlits⟩ := holds_emission hheld
  refine ⟨s.afterEnd.halt, ?_, halt_afterEnd_ended s, ?_, hflush, ?_, hlits, fun a ha => ?_⟩
  · rw [h.step_end (by rw [hc]), if_pos (hlen.trans_le hfit)]
  · rw [← hlen, ← add_word_eq_word hlt]; rfl
  · rw [lor_eq_add 2 (by omega) (by omega)]
    exact hbyte.read_of_getElem? (j := 0) rfl
  · rw [halt_afterEnd_read s hlt (by omega), pushAll_read_outside _ _ hlt (.inl ha)]

theorem err_of_status {t : State} (h : t.status = 1#32 ∨ t.status = 2#32) : ¬ t.err = true := by
  rcases h with h | h <;> rw [State.err, h] <;> decide

/-- Settles O28: of the four answers of a step only the one where the bytes do not fit is an error. -/
theorem encoderFailsOnlyForCapacity : Obligations.EncoderFailsOnlyForCapacity := by
  intro s hi hm hb hu
  have h := hi.encRuns hm hb hu
  have hended : s.EndedByError (s.raise .outCapacity s.cur s.outCap) 0x072 s.cur s.outCap :=
    State.raise_ended _ _ _ _ _ rfl
  intro p lit op1
  refine ⟨fun t hs he => ?_, fun o len hc hmf hfull => ⟨_, ?_, hended⟩, fun hc hfull => ⟨_, ?_, hended⟩⟩
  · rw [step_enc hm hb hu] at hs
    rcases encStep_cases h.running hu with hx | ⟨_, _, hx⟩ | ⟨o, len, _, _, _, _, hx⟩ | ⟨_, _, hx⟩ <;>
      cases hx.symm.trans hs
    · exact hended
    · exact absurd he (err_of_status (.inl h.status))
    · exact absurd he (err_of_status (.inl h.status))
    · exact absurd he (err_of_status (.inr rfl))
  · rw [← copyInstr_eq_classOpcode] at hfull
    rw [h.step_match hc hmf, if_neg ((op_add_length_matchBytes s o len).trans_gt hfull).not_ge]
  · rw [h.step_end (by rw [hc]), if_neg ((op_add_length_endBytes s).trans_gt hfull).not_ge]

/-! ### The start -/

theorem headerLength_decide (p : Prop) [Decidable p] : headerLength (decide p) = if p then 6 else 5 := by
  by_cases h : p
  · rw [decide_eq_true h, if_pos h]; rfl
  · rw [decide_eq_false h, if_neg h]; rfl

/-- Settles O20: the header is put like any other sequence. -/
theorem compressHeaderDoesNotFit : Obligations.CompressHeaderDoesNotFit := by
  intro s hb hf hcap
  rw [← headerLength_decide] at hcap
  rcases exec_compress_cases s hb hf with ⟨_, he⟩ | ⟨hle, _⟩
  · exact ⟨_, he, State.raise_accept_ended _ _ _ _ _ _ rfl⟩
  · exact absurd hcap hle.not_gt

end Sys2Proof.Machine
end

section
/-! Whole runs of ENC: what a COMPRESS that ends normally has gone through, and the bounds on its output. -/

namespace Sys2Proof.Machine

/-! ### From a running ENC to the normal end -/

theorem run_succ_iff {k : Nat} {s t : State} :
    Host.Core.run core (k + 1) s = .next t ↔ ∃ u, step s = .next u ∧ Host.Core.run core k u = .next t := by
  refine ⟨fun h => ?_, fun ⟨u, hu, h⟩ => (run_succ k s u hu).trans h⟩
  have hmatch := (Host.Core.run.eq_2 core s k).symm.trans h
  split at hmatch
  next u hu => exact ⟨u, hu, hmatch⟩
  next => cases hmatch
  next => cases hmatch

/-- A command that has ended stays ended. -/
theorem run_of_idle {k : Nat} {s t : State} (hrun : Host.Core.run core k s = .next t) (h : s.host = [])
    (hb : s.busy = false) : t = s := by
  rw [run_idle k s h hb] at hrun
  cases hrun
  rfl

/-- Every step of ENC that leaves it running keeps `P`. -/
structure EncKeeps (P : State → Prop) : Prop where
  pass : ∀ s : State, s.EncRuns → s.cur.toNat < s.n.toNat → P s → P { s with cur := s.cur + 1#32 }
  emit : ∀ (s : State) (o len : Nat), s.EncRuns → matchFinder s.inMem s.n.toNat s.cur.toNat = some (o, len) →
    s.cur.toNat + len ≤ s.n.toNat → s.op.toNat + (s.matchBytes o len).length ≤ s.outCap.toNat →
    P s → P (s.afterMatch o len)

/-- The last state of a running ENC, from which ENC_END leads to the normal end in `t`. -/
structure State.EndsIn (u t : State) : Prop where
  runs : u.EncRuns
  cur : u.cur = u.n
  fits : u.op.toNat + u.endBytes.length ≤ u.outCap.toNat
  result : t = u.afterEnd.halt

/-- A run of ENC that ends normally ends by ENC_END, in a state with all that the steps before it keep. -/
theorem State.EncRuns.run_ends {P : State → Prop} (hP : EncKeeps P) {s t : State} {k : Nat} (h : s.EncRuns)
    (hs : P s) (hrun : Host.Core.run core k s = .next t) (ht : t.status = 2#32) :
    ∃ u : State, P u ∧ u.EndsIn t := by
  induction k generalizing s with
  | zero =>
    cases hrun
    exact absurd (h.status.symm.trans ht) (by decide)
  | succ k ih =>
    obtain ⟨u, hu, hrun⟩ := run_succ_iff.1 hrun
    rw [step_enc h.host h.busy h.unit] at hu
    rcases encStep_cases h.running h.unit with hx | ⟨hc, _, hx⟩ | ⟨o, len, hmf, _, hlen, hfit, hx⟩ |
      ⟨hc, hfit, hx⟩ <;> cases hx.symm.trans hu
    · cases run_of_idle hrun h.host (State.raise_busy ..)
      exact absurd ht (by rw [State.raise_status]; decide)
    · exact ih (h.pass hc) (hP.pass s h hc hs) hrun
    · exact ih (h.afterMatch hlen hfit) (hP.emit s o len h hmf hlen hfit hs) hrun
    · cases run_of_idle hrun h.host (State.halt_busy _)
      exact ⟨s, hs, h, hc, hfit, rfl⟩

theorem State.EndsIn.toNat_outLen {u t : State} (h : u.EndsIn t) :
    t.outLen.toNat = u.op.toNat + u.endBytes.length := by
  rw [h.result]
  exact toNat_add_word _ _ (h.fits.trans_lt u.outCap.isLt)

/-! ### The start -/

/-- The header is the 6-byte form: the input is longer than the 3-byte size can say (42_encoder R192). -/
def State.needsLarge (s : State) : Bool := decide (2 ^ 24 - 1 < s.inLen.toNat)

theorem length_headerBytes_lt (c : Config) (large : Bool) (n : Nat) : (headerBytes c large n).length < 2 ^ 32 := by
  rw [length_headerBytes]
  exact headerLength_lt large

/-- ENC with its header in OUT (42_encoder R192). -/
def State.compressStarted (s : State) : State :=
  pushAll (headerBytes s.cfg s.needsLarge s.inLen.toNat) (s.encStarted s.needsLarge)

theorem State.compressStarted_eq (s : State) : s.compressStarted =
    { s.encStarted s.needsLarge with
      op := word (headerLength s.needsLarge), outMem := s.compressStarted.outMem } := by
  unfold State.compressStarted
  rw [pushAll_eq, length_headerBytes, show (s.encStarted s.needsLarge).op = 0#32 from rfl, BitVec.zero_add]

theorem State.toNat_compressStarted_op (s : State) : s.compressStarted.op.toNat = headerLength s.needsLarge := by
  rw [State.compressStarted_eq]
  exact toNat_word_of_lt _ (headerLength_lt _)

@[simp] theorem State.compressStarted_n (s : State) : s.compressStarted.n = s.inLen := by
  rw [State.compressStarted_eq]; rfl

@[simp] theorem State.compressStarted_cur (s : State) : s.compressStarted.cur = 0#32 := by
  rw [State.compressStarted_eq]; rfl

@[simp] theorem State.compressStarted_ls (s : State) : s.compressStarted.ls = 0#32 := by
  rw [State.compressStarted_eq]; rfl

@[simp] theorem State.compressStarted_outCap (s : State) : s.compressStarted.outCap = s.outCap := by
  rw [State.compressStarted_eq]; rfl

@[simp] theorem State.compressStarted_inMem (s : State) : s.compressStarted.inMem = s.inMem := by
  rw [State.compressStarted_eq]; rfl

theorem State.compressStarted_noReport (s : State) : s.compressStarted.NoReport := by
  rw [State.compressStarted_eq]; exact ⟨rfl, rfl, rfl, rfl⟩

theorem State.compressStarted_holds (s : State) :
    s.compressStarted.outMem.Holds 0 (headerBytes s.cfg s.needsLarge s.inLen.toNat) :=
  pushAll_holds _ _ ((Nat.zero_add _).trans_lt (length_headerBytes_lt ..))

theorem State.compressStarted_encRuns {s : State} (hm : s.host = []) (hf : s.operandsFit = true)
    (hcap : headerLength s.needsLarge ≤ s.outCap.toNat) : s.compressStarted.EncRuns := by
  obtain ⟨hin, hout⟩ := (operandsFit_iff s).1 hf
  have hop := toNat_word_of_lt _ (headerLength_lt s.needsLarge)
  rw [State.compressStarted_eq]
  exact
    { host := hm
      status := rfl
      unit := rfl
      running :=
        { n_eq := rfl
          in_fits := hin
          out_fits := hout
          hdr_eq := toNat_hdr _
          dec_pointers := fun hu => nomatch hu
          enc_pointers := fun _ =>
            { hdr_le_op := ((toNat_hdr _).trans hop.symm).le
              op_le_outCap := hop.trans_le hcap
              ls_le_cur := Nat.le_refl _
              cur_le_n := Nat.zero_le _ } } }

/-- A COMPRESS that ends normally has got past its header, and then what its steps keep holds at ENC_END. -/
theorem compress_run_ends {P : State → Prop} (hP : EncKeeps P) {s s1 t : State} {k : Nat} (hm : s.host = [])
    (hb : s.busy = false) (hf : s.operandsFit = true) (hs : P s.compressStarted) (hx : exec .compress s = .next s1)
    (hrun : Host.Core.run core k s1 = .next t) (ht : t.status = 2#32) : ∃ u : State, P u ∧ u.EndsIn t := by
  rcases exec_compress_cases s hb hf with ⟨_, he⟩ | ⟨hcap, he⟩ <;> cases he.symm.trans hx
  · cases run_of_idle hrun hm (State.raise_busy ..)
    exact absurd ht (by rw [State.raise_status]; decide)
  · exact (State.compressStarted_encRuns hm hf hcap).run_ends hP hs hrun ht

/-! ### The bound on the output (42_encoder R203) -/

/-- A copy opcode has fewer control bytes than the match has bytes (42_encoder R196). -/
theorem length_encode_copyInstr_lt {lit o len : Nat} (henc : encodable o len = true) :
    (encode (copyInstr lit o len)).length < len := by
  rw [encodable_iff] at henc
  rcases copyClass_cases o len with ⟨h, h'⟩ | ⟨h, h'⟩ | ⟨h, h'⟩ <;>
    simp only [copyInstr, h, encode, List.length_cons, List.length_nil] <;> omega

/-- OUT has grown past a header of `hdr` bytes by no more than the input taken, and one byte for every 112 of it. -/
def State.WithinBound (hdr : Nat) (s : State) : Prop := s.op.toNat ≤ hdr + s.ls.toNat + s.ls.toNat / 112

theorem State.EncRuns.matchBytes_withinBound {s : State} {hdr o len : Nat} (h : s.EncRuns)
    (hb : s.WithinBound hdr) (hmf : matchFinder s.inMem s.n.toNat s.cur.toNat = some (o, len)) :
    s.op.toNat + (s.matchBytes o len).length ≤ hdr + (s.cur.toNat + len) + (s.cur.toNat + len) / 112 := by
  obtain ⟨-, -, -, henc, -⟩ := matchFinder_some _ _ _ _ _ hmf
  have hlt := length_encode_copyInstr_lt (lit := s.pending % 4) henc
  have hcur := h.ls_add_pending
  rw [op_add_length_matchBytes, flushLength]
  unfold State.WithinBound at hb
  omega

theorem State.EncRuns.endBytes_withinBound {s : State} {hdr : Nat} (h : s.EncRuns) (hb : s.WithinBound hdr)
    (hc : s.cur = s.n) : s.op.toNat + s.endBytes.length ≤ hdr + s.n.toNat + s.n.toNat / 112 + 2 := by
  have hcur := h.ls_add_pending
  rw [op_add_length_endBytes, flushLength, ← hc]
  unfold State.WithinBound at hb
  omega

theorem encKeeps_withinBound (n : Word) (hdr : Nat) : EncKeeps fun s => s.n = n ∧ s.WithinBound hdr where
  pass _ _ _ := id
  emit s o len h hmf hlen hfit := by
    rintro ⟨hn, hbound⟩
    obtain ⟨hop, -, hls⟩ := State.toNat_afterMatch hlen hfit
    refine ⟨hn, ?_⟩
    rw [State.WithinBound, hop, hls]
    exact h.matchBytes_withinBound hbound hmf

theorem State.compressStarted_withinBound (s : State) :
    s.compressStarted.WithinBound (headerLength s.needsLarge) := by
  rw [State.WithinBound, State.toNat_compressStarted_op]
  omega

/-- ENC has found no match yet: nothing but the header is written, and every byte taken is pending. -/
structure State.AllPending (m : Memory) (n : Word) (hdr : Nat) (s : State) : Prop where
  inMem : s.inMem = m
  n : s.n = n
  op : s.op.toNat = hdr
  ls : s.ls = 0#32

theorem encKeeps_allPending {m : Memory} {n : Word}
    (hno : ∀ cur, cur < n.toNat → matchFinder m n.toNat cur = none) (hdr : Nat) :
    EncKeeps (State.AllPending m n hdr) where
  pass _ _ _ hs := { hs with }
  emit s o len _ hmf hlen _ hs := by
    obtain ⟨-, -, -, henc, -⟩ := matchFinder_some _ _ _ _ _ hmf
    have hpos := length_encode_copyInstr_lt (lit := 0) henc
    rw [hs.inMem, hs.n, hno _ (by rw [← hs.n]; omega)] at hmf
    cases hmf

/-- With the capacity of the bound a step below `n` never ends the command: it passes a byte, or emits a match whose
bytes fit. -/
theorem State.EncRuns.step_withinBound {s : State} {hdr : Nat} (h : s.EncRuns) (hb : s.WithinBound hdr)
    (hcap : hdr + s.n.toNat + s.n.toNat / 112 + 2 ≤ s.outCap.toNat) (hc : s.cur.toNat < s.n.toNat) :
    ∃ u, step s = .next u ∧ u.EncRuns ∧ u.WithinBound hdr ∧ u.n = s.n ∧ u.outCap = s.outCap ∧
      s.cur.toNat < u.cur.toNat := by
  cases hmf : matchFinder s.inMem s.n.toNat s.cur.toNat with
  | none =>
    have hcur : (s.cur + 1#32).toNat = s.cur.toNat + 1 := toNat_add_word s.cur 1 (by omega)
    exact ⟨_, h.step_pass hc hmf, h.pass hc, hb, rfl, rfl, by rw [hcur]; omega⟩
  | some m =>
    obtain ⟨o, len⟩ := m
    obtain ⟨-, -, -, henc, -, hlen, -⟩ := matchFinder_some _ _ _ _ _ hmf
    have hpos := length_encode_copyInstr_lt (lit := 0) henc
    have hbytes := h.matchBytes_withinBound hb hmf
    have hfit : s.op.toNat + (s.matchBytes o len).length ≤ s.outCap.toNat := by omega
    obtain ⟨-, hcur, -⟩ := State.toNat_afterMatch hlen hfit
    obtain ⟨-, hbu⟩ := (encKeeps_withinBound s.n hdr).emit s o len h hmf hlen hfit ⟨rfl, hb⟩
    exact ⟨_, (h.step_match hc hmf).trans (if_pos hfit), h.afterMatch hlen hfit, hbu, rfl, rfl, by omega⟩

/-- With the capacity of the bound ENC takes at least a byte a step, and ends normally. -/
theorem State.EncRuns.completes {s : State} {hdr : Nat} (h : s.EncRuns) (hb : s.WithinBound hdr)
    (hcap : hdr + s.n.toNat + s.n.toNat / 112 + 2 ≤ s.outCap.toNat) :
    ∃ (k : Nat) (t : State), k ≤ s.n.toNat - s.cur.toNat + 1 ∧ Host.Core.run core k s = .next t ∧
      t.status = 2#32 := by
  induction hd : s.n.toNat - s.cur.toNat using Nat.strong_induction_on generalizing s with
  | _ d ih =>
    have hle := h.cur_le_n
    by_cases hc : s.cur.toNat < s.n.toNat
    · obtain ⟨u, hs, hu, hbu, hn, hcapu, hcur⟩ := h.step_withinBound hb hcap hc
      obtain ⟨k, t, hk, hrun, ht⟩ := ih (u.n.toNat - u.cur.toNat) (by rw [hn]; omega) hu hbu
        (by rw [hn, hcapu]; exact hcap) rfl
      exact ⟨k + 1, t, by rw [hn] at hk; omega, (run_succ k s u hs).trans hrun, ht⟩
    · have hfit : s.op.toNat + s.endBytes.length ≤ s.outCap.toNat :=
        (h.endBytes_withinBound hb (BitVec.eq_of_toNat_eq (by omega))).trans hcap
      exact ⟨1, s.afterEnd.halt, by omega, run_succ 0 s _ ((h.step_end (by omega)).trans (if_pos hfit)), rfl⟩

/-- Settles O29: the bound and the absence of a match are kept by every step, and ENC_END adds its own bytes. -/
theorem compressOutputSize : Obligations.CompressOutputSize := by
  intro s _ hm hb hf n hdr
  have hdr_eq : headerLength s.needsLarge = hdr := headerLength_decide _
  refine ⟨fun s1 t k hx hrun ht => ⟨?_, fun hno => ?_⟩, fun hcap => ?_⟩
  · obtain ⟨u, ⟨hn, hbound⟩, hend⟩ := compress_run_ends (encKeeps_withinBound s.inLen hdr) hm hb hf
      ⟨s.compressStarted_n, hdr_eq ▸ s.compressStarted_withinBound⟩ hx hrun ht
    have hle := hend.runs.endBytes_withinBound hbound hend.cur
    rw [hn, ← hend.toNat_outLen] at hle
    exact hle
  · obtain ⟨u, hu, hend⟩ := compress_run_ends (encKeeps_allPending hno hdr) hm hb hf
      ⟨s.compressStarted_inMem, s.compressStarted_n, s.toNat_compressStarted_op.trans hdr_eq, s.compressStarted_ls⟩
      hx hrun ht
    have hpend : u.pending = n := by rw [State.pending, hend.cur, hu.n, hu.ls]; rfl
    rw [hend.toNat_outLen, op_add_length_endBytes, hu.op, hpend, flushLength]
    omega
  · have hle : hdr ≤ 6 := by rw [← hdr_eq]; cases s.needsLarge <;> decide
    rcases exec_compress_cases s hb hf with ⟨hlt, _⟩ | ⟨hfit, hx⟩
    · exact absurd hlt (by rw [← State.needsLarge, hdr_eq]; omega)
    have hruns := State.compressStarted_encRuns hm hf hfit
    obtain ⟨k, t, hk, hrun, ht⟩ := hruns.completes s.compressStarted_withinBound
      (by rw [State.compressStarted_n, State.compressStarted_outCap, hdr_eq]; omega)
    rw [State.compressStarted_n, State.compressStarted_cur] at hk
    exact ⟨_, t, k, hx, hk, hrun, ht⟩

end Sys2Proof.Machine
end

section
/-! Proof that a COMPRESS depends on its operands alone: two runs of ENC in lockstep, which find the same matches and
put the same bytes. -/

namespace Sys2Proof.Machine

/-! ### Two runs that agree -/

/-- What a run of ENC can use is the same in both states: the input below `n`, the output below `op`, its pointers and
the capacity (42_encoder R204). -/
structure State.EncAgrees (s s' : State) : Prop where
  runs : s.EncRuns
  runs' : s'.EncRuns
  op : s'.op = s.op
  n : s'.n = s.n
  cur : s'.cur = s.cur
  ls : s'.ls = s.ls
  outCap : s'.outCap = s.outCap
  errInfo : s'.errInfo = s.errInfo
  errIp : s'.errIp = s.errIp
  errOp : s'.errOp = s.errOp
  input : ∀ a, a < s.n.toNat → s'.inMem.read a = s.inMem.read a
  output : ∀ a, a < s.op.toNat → s'.outMem.read a = s.outMem.read a

/-- A relation between running states whose steps keep it until both end with the same result. -/
structure Lockstep (R : State → State → Prop) : Prop where
  busy : ∀ s s', R s s' → s.busy = true
  step : ∀ s s', R s s' → ∃ t t', step s = .next t ∧ step s' = .next t' ∧ (R t t' ∨ t.SameResult t')

theorem Lockstep.run {R : State → State → Prop} (hR : Lockstep R) {s s' t : State} {k : Nat}
    (h : R s s' ∨ s.SameResult s') (hrun : Host.Core.run core k s = .next t) (ht : t.busy = false) :
    ∃ t', Host.Core.run core k s' = .next t' ∧ t.SameResult t' := by
  induction k generalizing s s' with
  | zero =>
    cases hrun
    rcases h with h | h
    · exact absurd ((hR.busy _ _ h).symm.trans ht) (by decide)
    · exact ⟨s', rfl, h⟩
  | succ k ih =>
    rcases h with h | h
    · obtain ⟨u, u', hu, hu', hagree⟩ := hR.step s s' h
      rw [run_succ k s u hu] at hrun
      rw [run_succ k s' u' hu']
      exact ih hagree hrun
    · cases run_of_idle hrun h.host h.idle
      exact ⟨s', run_idle _ s' h.host' h.idle', h⟩

/-! ### The same bytes put -/

theorem runBytes_congr {m m' : Memory} {ls p : Nat} (fuel : Nat)
    (h : ∀ x, ls ≤ x → x < ls + p → m'.read x = m.read x) : runBytes m' ls p fuel = runBytes m ls p fuel := by
  induction fuel generalizing ls p with
  | zero => rfl
  | succ fuel ih =>
    have hc := flushChunk_le p
    rw [runBytes, runBytes, Memory.readBytes_congr m' m _ _ fun x hlo hhi => h x hlo (by omega),
      ih fun x hlo hhi => h x (by omega) (by omega)]

/-- The same bytes appended at the same `op` leave the same OUT up to the new one. -/
theorem pushAll_read_agrees {vs : List Byte} {s s' : State} (hop : s'.op = s.op)
    (hout : ∀ a, a < s.op.toNat → s'.outMem.read a = s.outMem.read a) (hlt : s.op.toNat + vs.length < 2 ^ 32)
    {a : Nat} (ha : a < s.op.toNat + vs.length) : (pushAll vs s').outMem.read a = (pushAll vs s).outMem.read a := by
  rw [pushAll_read vs s a hlt, pushAll_read vs s' a (by rwa [hop])]
  by_cases hlo : a < s.op.toNat
  · rw [dif_neg (by rw [hop]; omega), dif_neg (by omega), hout a hlo]
  · rw [dif_pos (by rw [hop]; omega), dif_pos (by omega)]
    simp only [hop]

section
variable {s s' : State} (h : s.EncAgrees s')
include h

theorem State.EncAgrees.pending : s'.pending = s.pending := by
  rw [State.pending, h.cur, h.ls, State.pending]

theorem State.EncAgrees.flushBytes : s'.flushBytes = s.flushBytes := by
  rw [State.flushBytes, h.ls, h.pending, State.flushBytes]
  refine runBytes_congr _ fun x _ hx => h.input x ?_
  rw [h.runs.ls_add_pending] at hx
  exact hx.trans_le h.runs.cur_le_n

theorem State.EncAgrees.literals : s'.inMem.readBytes (s'.cur.toNat - s'.pending % 4) (s'.pending % 4) =
    s.inMem.readBytes (s.cur.toNat - s.pending % 4) (s.pending % 4) := by
  rw [h.cur, h.pending]
  have hls := h.runs.ls_add_pending
  have hcur := h.runs.cur_le_n
  exact Memory.readBytes_congr _ _ _ _ fun x _ hx => h.input x (by omega)

theorem State.EncAgrees.matchBytes (o len : Nat) : s'.matchBytes o len = s.matchBytes o len := by
  rw [State.matchBytes, h.flushBytes, h.literals, h.pending, State.matchBytes]

theorem State.EncAgrees.endBytes : s'.endBytes = s.endBytes := by
  rw [State.endBytes, h.flushBytes, h.literals, h.pending, State.endBytes]

theorem State.EncAgrees.matchFinder :
    matchFinder s'.inMem s'.n.toNat s'.cur.toNat = matchFinder s.inMem s.n.toNat s.cur.toNat := by
  rw [h.n, h.cur]
  exact matchFinder_congr _ _ _ _ h.input h.runs.cur_le_n

/-! ### The step and the run -/

theorem State.EncAgrees.raise : (s.raise .outCapacity s.cur s.outCap).SameResult
    (s'.raise .outCapacity s'.cur s'.outCap) :=
  State.raise_sameResult _ h.runs.host h.runs'.host h.cur h.outCap

theorem State.EncAgrees.pass (hc : s.cur.toNat < s.n.toNat) :
    ({ s with cur := s.cur + 1#32 } : State).EncAgrees { s' with cur := s'.cur + 1#32 } :=
  { h with
    runs := h.runs.pass hc
    runs' := h.runs'.pass (by rwa [h.cur, h.n])
    cur := congrArg (· + 1#32) h.cur }

theorem State.EncAgrees.afterMatch {o len : Nat} (hlen : s.cur.toNat + len ≤ s.n.toNat)
    (hfit : s.op.toNat + (s.matchBytes o len).length ≤ s.outCap.toNat) :
    (s.afterMatch o len).EncAgrees (s'.afterMatch o len) := by
  have hop : s'.op + word (s'.matchBytes o len).length = s.op + word (s.matchBytes o len).length := by
    rw [h.op, h.matchBytes]
  have hcur : s'.cur + word len = s.cur + word len := by rw [h.cur]
  have hlt := hfit.trans_lt s.outCap.isLt
  obtain ⟨hop', -⟩ := State.toNat_afterMatch hlen hfit
  exact { h with
    runs := h.runs.afterMatch hlen hfit
    runs' := h.runs'.afterMatch (by rwa [h.cur, h.n]) (by rwa [h.op, h.matchBytes, h.outCap])
    op := hop
    cur := hcur
    ls := hcur
    output := fun a ha => by
      rw [hop'] at ha
      rw [State.afterMatch, State.afterMatch, h.matchBytes]
      exact pushAll_read_agrees h.op h.output hlt ha }

theorem State.EncAgrees.halt (hfit : s.op.toNat + s.endBytes.length ≤ s.outCap.toNat) :
    s.afterEnd.halt.SameResult s'.afterEnd.halt := by
  have hlt := hfit.trans_lt s.outCap.isLt
  exact
    { host := h.runs.host
      host' := h.runs'.host
      idle := State.halt_busy _
      status := rfl
      errInfo := h.errInfo
      errIp := h.errIp
      errOp := h.errOp
      outLen := show s'.op + word s'.endBytes.length = s.op + word s.endBytes.length by rw [h.op, h.endBytes]
      output := fun a ha => by
        replace ha : a < s.op.toNat + s.endBytes.length := ha.trans_eq (toNat_add_word _ _ hlt)
        rw [halt_afterEnd_read s hlt ha,
          halt_afterEnd_read s' (by rwa [h.op, h.endBytes]) (by rwa [h.op, h.endBytes]), h.endBytes]
        exact pushAll_read_agrees h.op h.output hlt ha }

end

theorem lockstep_encAgrees : Lockstep State.EncAgrees where
  busy _ _ h := h.runs.busy
  step s s' h := by
    by_cases hc : s.cur.toNat < s.n.toNat
    · have hc' : s'.cur.toNat < s'.n.toNat := by rwa [h.cur, h.n]
      cases hmf : matchFinder s.inMem s.n.toNat s.cur.toNat with
      | none =>
        exact ⟨_, _, h.runs.step_pass hc hmf, h.runs'.step_pass hc' (h.matchFinder.trans hmf), .inl (h.pass hc)⟩
      | some m =>
        obtain ⟨o, len⟩ := m
        obtain ⟨-, -, -, -, -, hlen, -⟩ := matchFinder_some _ _ _ _ _ hmf
        rw [h.runs.step_match hc hmf, h.runs'.step_match hc' (h.matchFinder.trans hmf), h.op, h.matchBytes, h.outCap]
        split
        next hfit => exact ⟨_, _, rfl, rfl, .inl (h.afterMatch hlen hfit)⟩
        next => exact ⟨_, _, rfl, rfl, .inr (h.outCap ▸ h.raise)⟩
    · rw [h.runs.step_end (by omega), h.runs'.step_end (by rw [h.cur, h.n]; omega), h.op, h.endBytes, h.outCap]
      split
      next hfit => exact ⟨_, _, rfl, rfl, .inr (h.halt hfit)⟩
      next => exact ⟨_, _, rfl, rfl, .inr (h.outCap ▸ h.raise)⟩

/-! ### The start -/

/-- Both states are idle with no host move pending, and hold the same legal operands of a COMPRESS and the same magic
(42_encoder R204). -/
structure State.SameInput (s s' : State) : Prop where
  host : s.host = []
  host' : s'.host = []
  idle : s.busy = false
  idle' : s'.busy = false
  fit : s.operandsFit = true
  fit' : s'.operandsFit = true
  magic0 : s'.cfg.magic0 = s.cfg.magic0
  magic1 : s'.cfg.magic1 = s.cfg.magic1
  largeMask : s'.cfg.largeMask = s.cfg.largeMask
  inLen : s'.inLen = s.inLen
  outCap : s'.outCap = s.outCap
  input : ∀ a, a < s.inLen.toNat → s'.inMem.read a = s.inMem.read a

section
variable {s s' : State} (h : s.SameInput s')
include h

theorem State.SameInput.needsLarge : s'.needsLarge = s.needsLarge := by
  rw [State.needsLarge, h.inLen, State.needsLarge]

theorem State.SameInput.headerBytes : headerBytes s'.cfg s'.needsLarge s'.inLen.toNat =
    headerBytes s.cfg s.needsLarge s.inLen.toNat := by
  simp only [Machine.headerBytes, h.needsLarge, h.inLen, h.magic0, h.magic1, h.largeMask]

/-- A header that fits leaves ENC at the first input byte, with the same header in OUT. -/
theorem State.SameInput.compressStarted (hcap : headerLength s.needsLarge ≤ s.outCap.toNat) :
    s.compressStarted.EncAgrees s'.compressStarted := by
  have hop : s'.compressStarted.op = s.compressStarted.op := by
    rw [State.compressStarted_eq s, State.compressStarted_eq s', h.needsLarge]
  have hn := s.compressStarted_noReport
  have hn' := s'.compressStarted_noReport
  exact
    { runs := State.compressStarted_encRuns h.host h.fit hcap
      runs' := State.compressStarted_encRuns h.host' h.fit' (by rwa [h.needsLarge, h.outCap])
      op := hop
      n := by simp [h.inLen]
      cur := by simp
      ls := by simp
      outCap := by simp [h.outCap]
      errInfo := hn'.errInfo.trans hn.errInfo.symm
      errIp := hn'.errIp.trans hn.errIp.symm
      errOp := hn'.errOp.trans hn.errOp.symm
      input := by simpa using h.input
      output := fun a ha => by
        rw [State.toNat_compressStarted_op, ← length_headerBytes s.cfg _ s.inLen.toNat] at ha
        rw [State.compressStarted, h.headerBytes]
        exact pushAll_read_agrees (s' := s'.encStarted s'.needsLarge) (s := s.encStarted s.needsLarge) rfl
          (fun _ hneg => absurd hneg (Nat.not_lt_zero _)) ((Nat.zero_add _).trans_lt (length_headerBytes_lt ..))
          (ha.trans_eq (Nat.zero_add _).symm) }

/-- ENC_START puts the same header on both machines, or has no room for it on either. -/
theorem State.SameInput.exec_compress {s1 : State} (hx : exec .compress s = .next s1) :
    ∃ s1', exec .compress s' = .next s1' ∧ (s1.EncAgrees s1' ∨ s1.SameResult s1') := by
  have hcases' := exec_compress_cases s' h.idle' h.fit'
  rw [← State.needsLarge, h.needsLarge, h.outCap] at hcases'
  rcases exec_compress_cases s h.idle h.fit with ⟨hlt, he⟩ | ⟨hle, he⟩ <;> cases he.symm.trans hx
  · rcases hcases' with ⟨_, he'⟩ | ⟨hle, _⟩
    · exact ⟨_, he', .inr (State.raise_sameResult _ h.host h.host' rfl rfl)⟩
    · exact absurd hlt hle.not_gt
  · rcases hcases' with ⟨hlt, _⟩ | ⟨_, he'⟩
    · exact absurd hlt hle.not_gt
    · exact ⟨_, he', .inl (by rw [← h.needsLarge]; exact h.compressStarted hle)⟩

end

/-- Settles O33: the start answers the same on both machines, and then every step does. -/
theorem compressDependsOnlyOnOperands : Obligations.CompressDependsOnlyOnOperands := by
  intro s s' s1 t k hm hm' hb hb' hf hf' hmagic0 hmagic1 hmask hinLen hcap hin hx hrun ht
  have hsame : s.SameInput s' := ⟨hm, hm', hb, hb', hf, hf', hmagic0, hmagic1, hmask, hinLen, hcap, hin⟩
  obtain ⟨s1', hx', hagree⟩ := hsame.exec_compress hx
  obtain ⟨t', hrun', h⟩ := lockstep_encAgrees.run hagree hrun ht
  exact ⟨s1', t', hx', hrun', h.status, h.errInfo, h.errIp, h.errOp, h.outLen, h.output⟩

end Sys2Proof.Machine
end

section
/-! Proof that DECOMPRESS of what a COMPRESS wrote gives the input back: the bytes ENC puts are opcodes that carry DEC
over the same part of the input, and StreamEnd ends both. -/

namespace Sys2Proof.Machine

theorem run_add {j k : Nat} {s t : State} (h : Host.Core.run core j s = .next t) :
    Host.Core.run core (j + k) s = Host.Core.run core k t := by
  induction j generalizing s with
  | zero => cases h; rw [Nat.zero_add]
  | succ j ih =>
    obtain ⟨u, hu, h⟩ := run_succ_iff.1 h
    rw [Nat.succ_add, run_succ _ s u hu, ih h]

/-! ### Sequences that DEC turns into a part of the input -/

/-- DEC runs with a declared size of `n`, and has produced the first `pos` bytes of `m`. -/
structure State.Produced (m : Memory) (n pos : Nat) (d : State) : Prop where
  ready : d.DecReady
  dsize : d.dsize.toNat = n
  op : d.op.toNat = pos
  output : ∀ a, a < pos → d.outMem.read a = m.read a

/-- DEC has consumed `k` bytes of its input from `d` to `e`. -/
structure State.Consumed (k : Nat) (d e : State) : Prop where
  keeps : d.Keeps e
  n : e.n = d.n
  ip : e.ip.toNat = d.ip.toNat + k

/-- Wherever the bytes stand at `ip` of a DEC that has produced `m` below `pos`, they carry it on to `pos'`. -/
def Decodes (m : Memory) (n pos pos' : Nat) (bs : List Byte) : Prop :=
  ∀ d : State, d.Produced m n pos → d.inMem.Holds d.ip.toNat bs → d.ip.toNat + bs.length ≤ d.n.toNat →
    ∃ (j : Nat) (e : State), Host.Core.run core j d = .next e ∧ e.Produced m n pos' ∧ d.Consumed bs.length e

theorem decodes_nil (m : Memory) (n pos : Nat) : Decodes m n pos pos [] :=
  fun d hd _ _ => ⟨0, d, rfl, hd, .refl d, rfl, rfl⟩

theorem Decodes.append {m : Memory} {n pos pos' pos'' : Nat} {bs cs : List Byte} (hb : Decodes m n pos pos' bs)
    (hc : Decodes m n pos' pos'' cs) : Decodes m n pos pos'' (bs ++ cs) := by
  intro d hd hheld hlen
  rw [List.length_append] at hlen ⊢
  obtain ⟨hbs, hcs⟩ := Memory.holds_append.1 hheld
  obtain ⟨j, e, hrun, he, hde⟩ := hb d hd hbs (by omega)
  obtain ⟨j', e', hrun', he', hee'⟩ := hc e he (by rwa [hde.keeps.inMem, hde.ip]) (by rw [hde.ip, hde.n]; omega)
  refine ⟨j + j', e', (run_add hrun).trans hrun', he', hde.keeps.trans hee'.keeps, hee'.n.trans hde.n, ?_⟩
  rw [hee'.ip, hde.ip, Nat.add_assoc]

/-! ### One opcode -/

/-- The bytes of an opcode with its literals, the bytes of `m` from `pos` up. -/
def opcodeBytes (m : Memory) (pos : Nat) (i : Instr) : List Byte := encode i ++ m.readBytes pos (literalCount i)

theorem length_encode {i : Instr} (hi : i.isOpcode = true) (hw : i.wellFormed = true) :
    (encode i).length = controlBytes i := by
  obtain ⟨-, -, hlen, -⟩ := encode_length_of_decode (decode_encode hi hw [])
  exact hlen

theorem length_opcodeBytes {m : Memory} {pos : Nat} {i : Instr} (hi : i.isOpcode = true) (hw : i.wellFormed = true) :
    (opcodeBytes m pos i).length = controlBytes i + literalCount i := by
  rw [opcodeBytes, List.length_append, Memory.length_readBytes, length_encode hi hw]

theorem isCopy_of_matchLength_pos {i : Instr} (h : 0 < matchLength i) : i.isCopy = true := by
  cases i with
  | shortCopy | mediumCopy | longCopy => rfl
  | literalRun | streamEnd | compress | decompress => exact absurd h (Nat.lt_irrefl 0)

/-- A run of bytes equal to those `off` before it is the periodic extension of the last `off` bytes
(40_decoder_opcodes R145). -/
theorem read_periodic {m : Memory} {c off len : Nat} (hoff : 1 ≤ off)
    (h : ∀ k, k < len → m.read (c - off + k) = m.read (c + k)) (hle : off ≤ c) {k : Nat} (hk : k < len) :
    m.read (c - off + k % off) = m.read (c + k) := by
  induction k using Nat.strong_induction_on with
  | _ k ih =>
    by_cases hlt : k < off
    · rw [Nat.mod_eq_of_lt hlt, h k hk]
    · rw [Nat.mod_eq_sub_mod (by omega), ih (k - off) (by omega) (by omega), ← h k hk]
      congr 1
      omega

/-- What an opcode is asked to add to the bytes of `m` below `pos`: its literals are the next bytes of `m`, and its
match repeats bytes of `m` that stand `matchOffset i` before it. -/
structure Continues (m : Memory) (n pos : Nat) (i : Instr) : Prop where
  fits : pos + literalCount i + matchLength i ≤ n
  offset : matchOffset i ≤ pos + literalCount i
  repeats : ∀ k, k < matchLength i →
    m.read (pos + literalCount i - matchOffset i + k) = m.read (pos + literalCount i + k)

/-- An opcode that completes leaves the bytes of `m` in OUT. -/
theorem afterOpcode_read_produced {m : Memory} {n pos : Nat} {i : Instr} {d : State} (hw : i.wellFormed = true)
    (hc : Continues m n pos i) (hd : d.Produced m n pos)
    (hlits : ∀ j, j < literalCount i → d.inMem.read (d.ip.toNat + controlBytes i + j) = m.read (pos + j))
    {a : Nat} (ha : a < pos + literalCount i + matchLength i) : (afterOpcode i d).outMem.read a = m.read a := by
  obtain ⟨-, hsize, rfl, hout⟩ := hd
  obtain ⟨hfits, hoff, hrep⟩ := hc
  have hlt := (hfits.trans_eq hsize.symm).trans_lt d.dsize.isLt
  have hbelow {x : Nat} (hx : x < d.op.toNat + literalCount i) : (afterOpcode i d).outMem.read x = m.read x := by
    by_cases hlo : x < d.op.toNat
    · rw [afterOpcode_read_outside i d x hlt (.inl hlo), hout x hlo]
    · obtain ⟨j, rfl⟩ := Nat.exists_eq_add_of_le (Nat.le_of_not_lt hlo)
      rw [afterOpcode_read_literal i d j hlt (by omega), hlits j (by omega)]
  by_cases hlo : a < d.op.toNat + literalCount i
  · exact hbelow hlo
  · obtain ⟨k, rfl⟩ := Nat.exists_eq_add_of_le (Nat.le_of_not_lt hlo)
    have hk : k < matchLength i := by omega
    have hpos := matchOffset_pos (isCopy_of_matchLength_pos (Nat.zero_lt_of_lt hk)) hw
    have hmod : k % matchOffset i < matchOffset i := Nat.mod_lt _ hpos
    rw [afterOpcode_read_match i d k hlt hk hpos hoff, hbelow (by omega), read_periodic hpos hrep hoff hk]

/-- DEC completes an opcode that continues the input (40_decoder_opcodes R132). -/
theorem step_of_continues {m : Memory} {n pos : Nat} {i : Instr} {d : State} (hi : i.isOpcode = true)
    (hw : i.wellFormed = true) (hne : ∀ lit, i ≠ .streamEnd lit) (hc : Continues m n pos i) (hd : d.Produced m n pos)
    (hctrl : d.inMem.Holds d.ip.toNat (encode i))
    (hlen : d.ip.toNat + controlBytes i + literalCount i ≤ d.n.toNat) :
    step d = .next (afterOpcode i (d.latchOpcode i)) := by
  obtain ⟨hr, hsize, rfl, -⟩ := hd
  rw [step_dec hr.host hr.busy hr.unit,
    decStep_of_encoded hi hw hctrl (by rw [length_encode hi hw]; exact le_of_add_le_left hlen) hr.n_le]
  exact exec_completes hi hne hlen hr.n_le (hc.fits.trans_eq hsize.symm) hr.dsize_le hc.offset

/-- An opcode that continues the input carries DEC over its literals and its match. -/
theorem decodes_opcode {m : Memory} {n pos : Nat} {i : Instr} (hi : i.isOpcode = true) (hw : i.wellFormed = true)
    (hne : ∀ lit, i ≠ .streamEnd lit) (hc : Continues m n pos i) :
    Decodes m n pos (pos + literalCount i + matchLength i) (opcodeBytes m pos i) := by
  intro d hd hheld hlen
  obtain ⟨hctrl, hlits⟩ := Memory.holds_append.1 hheld
  rw [Memory.holds_readBytes, length_encode hi hw] at hlits
  rw [length_opcodeBytes hi hw] at hlen ⊢
  have hstep := step_of_continues hi hw hne hc hd hctrl ((Nat.add_assoc _ _ _).trans_le hlen)
  have hfits := hc.fits
  have hop : (d.op + word (literalCount i + matchLength i)).toNat = pos + (literalCount i + matchLength i) := by
    rw [← hd.op] at hfits ⊢
    exact toNat_add_word _ _ (by rw [← hd.dsize] at hfits; have := d.dsize.isLt; omega)
  have hip : (d.ip + word (controlBytes i + literalCount i)).toNat = d.ip.toNat + (controlBytes i + literalCount i) :=
    toNat_add_word _ _ (hlen.trans_lt d.n.isLt)
  have hread {a : Nat} := afterOpcode_read_produced (d := d.latchOpcode i) (a := a) hw hc
    { hd with ready := { hd.ready with } } hlits
  have hkeeps := (d.keeps_latchOpcode i).trans (State.keeps_afterOpcode i _)
  have heq := afterOpcode_latchOpcode_eq i d
  refine ⟨1, _, run_succ 0 d _ hstep, ⟨?_, ?_, ?_, fun a => hread⟩, hkeeps, ?_, ?_⟩ <;> rw [heq]
  · exact { hd.ready with }
  · exact hd.dsize
  · exact hop.trans (Nat.add_assoc _ _ _).symm
  · exact hip

/-! ### The bytes of ENC -/

/-- A LiteralRun continues any input: its literals are the next bytes, and it has no match. -/
theorem continues_literalRun {m : Memory} {n pos lit : Nat} (hn : pos + lit ≤ n) :
    Continues m n pos (.literalRun lit) where
  fits := hn
  offset := Nat.zero_le _
  repeats k hk := absurd hk (Nat.not_lt_zero k)

/-- The LiteralRuns of a flush carry DEC over the literals they take (42_encoder R195). -/
theorem decodes_runBytes {m : Memory} {n pos p fuel : Nat} (hp : p ≤ fuel) (hn : pos + p ≤ n) :
    Decodes m n pos (pos + (p - p % 4)) (runBytes m pos p fuel) := by
  induction fuel generalizing pos p with
  | zero =>
    obtain rfl : p = 0 := by omega
    exact decodes_nil m n pos
  | succ fuel ih =>
    by_cases h4 : 4 ≤ p
    · have hle := flushChunk_le p
      have hmod := flushChunk_mod p
      have hpos := flushChunk_pos p h4
      have hone : Decodes m n pos (pos + flushChunk p) (opcodeBytes m pos (.literalRun (flushChunk p))) :=
        decodes_opcode rfl (wellFormed_literalRun.2 ⟨⟨hpos, flushChunk_le_max p⟩, hmod⟩) (by simp)
          (continues_literalRun (by omega))
      have hrest := ih (pos := pos + flushChunk p) (p := p - flushChunk p) (by omega) (by omega)
      rw [show pos + flushChunk p + (p - flushChunk p - (p - flushChunk p) % 4) = pos + (p - p % 4) by omega] at hrest
      rw [runBytes, if_pos h4]
      exact hone.append hrest
    · rw [runBytes, if_neg h4, show p - p % 4 = 0 by omega]
      exact decodes_nil m n pos

section
variable {s : State} (h : s.EncRuns)
include h

theorem State.EncRuns.decodes_flushBytes :
    Decodes s.inMem s.n.toNat s.ls.toNat (s.cur.toNat - s.pending % 4) s.flushBytes := by
  have hcur := h.ls_add_pending
  have hle := h.cur_le_n
  rw [show s.cur.toNat - s.pending % 4 = s.ls.toNat + (s.pending - s.pending % 4) by omega]
  exact decodes_runBytes (Nat.le_refl _) (by omega)

/-- The bytes of a match carry DEC from the start of the pending literals to the end of the match. -/
theorem State.EncRuns.decodes_matchBytes {o len : Nat}
    (hmf : matchFinder s.inMem s.n.toNat s.cur.toNat = some (o, len)) :
    Decodes s.inMem s.n.toNat s.ls.toNat (s.cur.toNat + len) (s.matchBytes o len) := by
  obtain ⟨hpos, hle, -, henc, hmax, hn, hrep⟩ := matchFinder_some _ _ _ _ _ hmf
  obtain ⟨-, hw⟩ := copyInstr_cases (s.pending % 4) o len (by omega) hpos henc hmax
  obtain ⟨hcopy, hlit, hlen, hoff⟩ := copyInstr_operands (s.pending % 4) o len
  refine h.decodes_flushBytes.append ?_
  generalize copyInstr (s.pending % 4) o len = i at hw hcopy hlit hlen hoff ⊢
  have hcur := h.ls_add_pending
  have hstart : s.cur.toNat - s.pending % 4 + literalCount i = s.cur.toNat := by omega
  have hc : Continues s.inMem s.n.toNat (s.cur.toNat - s.pending % 4) i :=
    { fits := by rwa [hstart, hlen]
      offset := by rwa [hstart, hoff]
      repeats := by rwa [hstart, hlen, hoff] }
  have hone := decodes_opcode (isOpcode_of_isCopy hcopy) hw (ne_streamEnd_of_isCopy hcopy) hc
  rwa [hstart, hlen, opcodeBytes, hlit] at hone

end

/-! ### The stream that ENC writes -/

/-- The bytes are the header for `n` bytes of `m`, then bytes that decode to the first `pos` of them, then a StreamEnd
with the others (42_encoder R190). -/
def IsStreamOf (m : Memory) (n : Nat) (header stream : List Byte) : Prop :=
  ∃ (bs : List Byte) (pos lit : Nat), stream = header ++ (bs ++ opcodeBytes m pos (.streamEnd lit)) ∧
    Decodes m n 0 pos bs ∧ pos + lit = n ∧ lit ≤ 3

/-- OUT below `op` is the header and then bytes that decode to the input below `ls`. -/
structure State.Encoded (m : Memory) (n : Word) (header : List Byte) (s : State) : Prop where
  inMem_eq : s.inMem = m
  n_eq : s.n = n
  stream : ∃ bs, s.op.toNat = (header ++ bs).length ∧ s.outMem.Holds 0 (header ++ bs) ∧
    Decodes m n.toNat 0 s.ls.toNat bs

theorem encKeeps_encoded (m : Memory) (n : Word) (header : List Byte) : EncKeeps (State.Encoded m n header) where
  pass _ _ _ hs := { hs with }
  emit s o len h hmf hlen hfit hs := by
    obtain ⟨rfl, rfl, bs, hop, hheld, hdec⟩ := hs
    obtain ⟨hop', -, hls⟩ := State.toNat_afterMatch hlen hfit
    refine ⟨rfl, rfl, bs ++ s.matchBytes o len, ?_, ?_, ?_⟩
    · rw [hop', hop, ← List.append_assoc, List.length_append (bs := s.matchBytes o len)]
    · rw [← List.append_assoc]
      exact pushAll_holds_append hheld (hop.trans (Nat.zero_add _).symm) (hfit.trans_lt s.outCap.isLt)
    · rw [hls]
      exact hdec.append (h.decodes_matchBytes hmf)

theorem State.compressStarted_encoded (s : State) :
    s.compressStarted.Encoded s.inMem s.inLen (headerBytes s.cfg s.needsLarge s.inLen.toNat) where
  inMem_eq := s.compressStarted_inMem
  n_eq := s.compressStarted_n
  stream := by
    refine ⟨[], ?_, ?_, ?_⟩
    · rw [List.append_nil, State.toNat_compressStarted_op, length_headerBytes]
    · rw [List.append_nil]
      exact s.compressStarted_holds
    · rw [State.compressStarted_ls]
      exact decodes_nil _ _ 0

/-- ENC_END adds the last literals and StreamEnd, and OUT_LEN takes the length of the whole (42_encoder R201). -/
theorem State.EndsIn.stream {u t : State} {m : Memory} {n : Word} {header : List Byte} (h : u.EndsIn t)
    (hu : u.Encoded m n header) :
    ∃ stream, IsStreamOf m n.toNat header stream ∧ t.outMem.Holds 0 stream ∧ t.outLen.toNat = stream.length := by
  obtain ⟨rfl, rfl, bs, hop, hheld, hdec⟩ := hu
  have hlt := h.fits.trans_lt u.outCap.isLt
  have hlen : t.outLen.toNat = (header ++ bs ++ u.endBytes).length := by
    rw [h.toNat_outLen, hop, List.length_append (bs := u.endBytes)]
  have hcur := h.runs.ls_add_pending
  refine ⟨header ++ bs ++ u.endBytes, ⟨bs ++ u.flushBytes, u.cur.toNat - u.pending % 4, u.pending % 4, ?_,
    hdec.append h.runs.decodes_flushBytes, by rw [← h.cur]; omega, by omega⟩, ?_, hlen⟩
  · simp only [State.endBytes, opcodeBytes, literalCount, List.append_assoc]
  · refine (pushAll_holds_append hheld (hop.trans (Nat.zero_add _).symm) hlt).congr fun x _ hx => ?_
    rw [h.result]
    exact halt_afterEnd_read u hlt (by rw [← h.toNat_outLen, hlen]; omega)

/-- A COMPRESS that ends normally leaves a stream of its input in OUT. -/
theorem compress_stream {s s1 t : State} {k : Nat} (hm : s.host = []) (hb : s.busy = false)
    (hf : s.operandsFit = true) (hx : exec .compress s = .next s1) (hrun : Host.Core.run core k s1 = .next t)
    (ht : t.status = 2#32) :
    ∃ stream, IsStreamOf s.inMem s.inLen.toNat (headerBytes s.cfg s.needsLarge s.inLen.toNat) stream ∧
      t.outMem.Holds 0 stream ∧ t.outLen.toNat = stream.length := by
  obtain ⟨u, hu, hend⟩ := compress_run_ends (encKeeps_encoded _ _ _) hm hb hf s.compressStarted_encoded hx hrun ht
  exact hend.stream hu

/-! ### DEC on a stream -/

theorem word_toNat (w : Word) : word w.toNat = w := BitVec.eq_of_toNat_eq (toNat_word_of_lt _ w.isLt)

theorem State.Produced.dsize_eq {m : Memory} {n pos : Nat} {d : State} (h : d.Produced m n pos) :
    d.dsize = word n := by
  rw [← h.dsize, word_toNat]

/-- The constraints of 00_scope R8 on the flag bit. -/
theorem State.Inv.mask {s : State} (h : s.Inv) :
    s.cfg.largeMask ≠ 0#8 ∧ s.cfg.magic1 &&& s.cfg.largeMask = 0#8 := by
  have hwf := h.cfg_wf
  simp only [Config.wf, Bool.and_eq_true, decide_eq_true_eq] at hwf
  obtain ⟨⟨⟨⟨hne, -⟩, hdisj⟩, -⟩, -⟩ := hwf
  exact ⟨hne, hdisj⟩

/-- ENC takes the form whose size field holds the input's length (42_encoder R192). -/
theorem State.inLen_lt_headerForm (s : State) : s.inLen.toNat < 256 ^ (headerLength s.needsLarge - 2) := by
  have hlt := s.inLen.isLt
  by_cases h : 2 ^ 24 - 1 < s.inLen.toNat
  · rw [State.needsLarge, decide_eq_true h]
    exact hlt
  · rw [State.needsLarge, decide_eq_false h, headerLength]
    simp only [Bool.toNat_false]
    omega

/-- The flag bit of a byte in which it was set. -/
theorem flag_of_set (a b : Byte) : (a ||| b) &&& b = b := by
  ext i hi
  simpa using Or.inr

/-- A flag bit that is clear in `a` is masked out of it without effect, before and after it was set. -/
theorem masked_of_clear {a b : Byte} (h : a &&& b = 0#8) : a &&& ~~~b = a ∧ (a ||| b) &&& ~~~b = a := by
  have hclear : a &&& ~~~b = a := by
    refine BitVec.eq_of_getLsbD_eq fun i hi => ?_
    have hbit : (a.getLsbD i && b.getLsbD i) = false := by rw [← BitVec.getLsbD_and, h, BitVec.getLsbD_zero]
    rw [BitVec.getLsbD_and, BitVec.getLsbD_not, decide_eq_true hi, Bool.true_and]
    revert hbit
    cases a.getLsbD i <;> cases b.getLsbD i <;> decide
  have hset : (a ||| b) &&& ~~~b = a &&& ~~~b := by
    ext i hi
    simp only [BitVec.getElem_and, BitVec.getElem_or, BitVec.getElem_not]
    cases a[i] <;> cases b[i] <;> rfl
  exact ⟨hclear, hset.trans hclear⟩

/-- The second magic byte says which form the header has (30_encoding R91, R92). -/
theorem magic_of_form {c : Config} (hmask : c.largeMask ≠ 0#8) (hdisj : c.magic1 &&& c.largeMask = 0#8)
    (large : Bool) : magicRecognised c c.magic0 (if large then c.magic1 ||| c.largeMask else c.magic1) = true ∧
      headerIsLarge c (if large then c.magic1 ||| c.largeMask else c.magic1) = large := by
  obtain ⟨hsmall, hlarge⟩ := masked_of_clear hdisj
  rw [magicRecognised_iff, headerIsLarge]
  cases large with
  | false => exact ⟨⟨rfl, hsmall⟩, decide_eq_false (not_not.2 hdisj)⟩
  | true => exact ⟨⟨rfl, hlarge⟩, decide_eq_true (by rw [if_pos rfl, flag_of_set]; exact hmask)⟩

/-- A StreamEnd with the last bytes of the input ends the command (40_decoder_opcodes R140). -/
theorem streamEnd_ends {m : Memory} {n pos lit : Nat} {d : State} (hd : d.Produced m n pos) (hn : pos + lit = n)
    (hlit : lit ≤ 3) (hheld : d.inMem.Holds d.ip.toNat (opcodeBytes m pos (.streamEnd lit)))
    (hlen : d.ip.toNat + (opcodeBytes m pos (.streamEnd lit)).length ≤ d.n.toNat)
    (he : d.expectEn = true → d.expect = d.dsize) :
    ∃ e, step d = .next e ∧ e.status = 2#32 ∧ e.outLen = d.dsize ∧
      ∀ a, a < n → e.outMem.read a = m.read a := by
  obtain ⟨hr, rfl, rfl, hout⟩ := hd
  have hw := wellFormed_streamEnd.2 hlit
  obtain ⟨hctrl, hlits⟩ := Memory.holds_append.1 hheld
  rw [Memory.holds_readBytes] at hlits
  rw [length_opcodeBytes rfl hw, ← Nat.add_assoc] at hlen
  obtain ⟨e, hx, hended, houtLen, hread, hbelow⟩ := streamEndCompletes (d.latchOpcode (.streamEnd lit)) lit hw
    hlen hr.n_le hn hr.dsize_le he
  refine ⟨e, ?_, hended.status, houtLen, fun a ha => ?_⟩
  · rw [step_dec hr.host hr.busy hr.unit, decStep_of_encoded rfl hw hctrl (le_of_add_le_left hlen) hr.n_le, hx]
  · by_cases hlo : a < d.op.toNat
    · exact (hbelow a hlo).trans (hout a hlo)
    · obtain ⟨j, rfl⟩ := Nat.exists_eq_add_of_le (Nat.le_of_not_lt hlo)
      exact (hread j (by omega)).trans (hlits j (by simp only [literalCount]; omega))

/-- The machine is idle with legal operands, no host move is pending, and MAGIC1 leaves the flag bit clear
(00_scope R8). -/
structure State.CanDecompress (d : State) : Prop where
  host : d.host = []
  idle : d.busy = false
  fit : d.operandsFit = true
  mask : d.cfg.largeMask ≠ 0#8
  clear : d.cfg.magic1 &&& d.cfg.largeMask = 0#8

section
variable {d : State} (h : d.CanDecompress)
include h

/-- DEC_START accepts the header that ENC_START writes (40_decoder_opcodes R131). -/
theorem State.CanDecompress.exec_decompress {large : Bool} {n : Nat}
    (hheld : d.inMem.Holds 0 (headerBytes d.cfg large n)) (hlen : headerLength large ≤ d.inLen.toNat)
    (hn : n < 256 ^ (headerLength large - 2)) (hcap : n ≤ d.outCap.toNat) :
    exec .decompress d = .next (d.decStarted large n) := by
  have hfirst : d.inMem.read 0 = d.cfg.magic0 := hheld.read_of_getElem? (j := 0) rfl
  have hsecond : d.inMem.read 1 = if large then d.cfg.magic1 ||| d.cfg.largeMask else d.cfg.magic1 :=
    hheld.read_of_getElem? (j := 1) rfl
  obtain ⟨hmagic, hlarge⟩ := magic_of_form h.mask h.clear large
  have hsize : declaredSize d.inMem large = n := by
    obtain ⟨-, htail⟩ := (Memory.holds_append (bs := [_, _])).1 hheld
    rw [Memory.Holds, length_beBytes] at htail
    exact (congrArg beValue htail).trans (beValue_beBytes n _ hn)
  have hlong : 2 ≤ headerLength large := by unfold headerLength; omega
  have hcases := exec_decompress_cases d h.idle h.fit
  rw [hfirst, hsecond, hlarge, hmagic, hsize] at hcases
  rcases hcases with ⟨hlt, _⟩ | ⟨_, hno, _⟩ | ⟨_, _, hlt, _⟩ | ⟨_, _, hlt, _⟩ | ⟨_, _, _, hx⟩
  · omega
  · cases hno
  · omega
  · omega
  · exact hx

theorem State.CanDecompress.decStarted_produced (m : Memory) {n : Nat} (large : Bool) (hcap : n ≤ d.outCap.toNat) :
    (d.decStarted large n).Produced m n 0 := by
  obtain ⟨hin, hout⟩ := (operandsFit_iff d).1 h.fit
  have hsize : (d.decStarted large n).dsize.toNat = n := toNat_word_of_lt _ (hcap.trans_lt d.outCap.isLt)
  exact
    { ready := ⟨h.host, busy_of_status rfl, rfl, hin, hsize.trans_le (hcap.trans hout)⟩
      dsize := hsize
      op := rfl
      output := fun _ ha => absurd ha (Nat.not_lt_zero _) }

/-- DECOMPRESS of a stream of the input gives the input. -/
theorem State.CanDecompress.decompress_stream {m : Memory} {n : Nat} {large : Bool} {stream : List Byte}
    (hs : IsStreamOf m n (headerBytes d.cfg large n) stream) (hheld : d.inMem.Holds 0 stream)
    (hlen : d.inLen.toNat = stream.length) (hn : n < 256 ^ (headerLength large - 2)) (hcap : n ≤ d.outCap.toNat)
    (he : d.expectEn = true → d.expect = word n) :
    ∃ (d1 e : State) (j : Nat), exec .decompress d = .next d1 ∧ Host.Core.run core j d1 = .next e ∧
      e.status = 2#32 ∧ e.outLen = word n ∧ ∀ a, a < n → e.outMem.read a = m.read a := by
  obtain ⟨bs, pos, lit, rfl, hdec, hpos, hlit⟩ := hs
  obtain ⟨hheader, hbody⟩ := Memory.holds_append.1 hheld
  rw [length_headerBytes, Nat.zero_add] at hbody
  obtain ⟨hbs, hend⟩ := Memory.holds_append.1 hbody
  rw [List.length_append, length_headerBytes, List.length_append, ← Nat.add_assoc] at hlen
  have hip : (d.decStarted large n).ip.toNat = headerLength large := toNat_word_of_lt _ (headerLength_lt large)
  obtain ⟨j, e, hrun, hprod, hkeeps, hen, heip⟩ := hdec _ (h.decStarted_produced m large hcap)
    (by rw [hip]; exact hbs) (by rw [hip]; exact (Nat.le_add_right _ _).trans hlen.ge)
  have hexpect : e.expectEn = true → e.expect = e.dsize := by
    rw [State.expectEn, hkeeps.ctrl, hkeeps.expect, hprod.dsize_eq]
    exact he
  obtain ⟨e', hstep, hst, houtLen, hread⟩ := streamEnd_ends hprod hpos hlit
    (by rw [heip, hip, hkeeps.inMem]; exact hend) (by rw [heip, hip, hen]; exact hlen.ge) hexpect
  exact ⟨_, e', j + 1, h.exec_decompress hheader (by omega) hn hcap, (run_add hrun).trans (run_succ 0 e e' hstep),
    hst, houtLen.trans hprod.dsize_eq, hread⟩

end

/-- Settles O30: what ENC leaves in OUT is a stream of the input, and DECOMPRESS of a stream gives the input. -/
theorem compressThenDecompressRoundTrip : Obligations.CompressThenDecompressRoundTrip := by
  intro s s1 t d k hi hm hb hf hx hrun ht hmagic0 hmagic1 hlargeMask hdm hdb hdf hinLen hin hcap he
  obtain ⟨stream, hstream, hheld, hlen⟩ := compress_stream hm hb hf hx hrun ht
  obtain ⟨hmask, hclear⟩ := hi.mask
  have hd : d.CanDecompress :=
    { host := hdm
      idle := hdb
      fit := hdf
      mask := by rwa [hlargeMask]
      clear := by rwa [hmagic1, hlargeMask] }
  have hheader : headerBytes d.cfg s.needsLarge s.inLen.toNat = headerBytes s.cfg s.needsLarge s.inLen.toNat := by
    simp only [headerBytes, hmagic0, hmagic1, hlargeMask]
  have hheld' : d.inMem.Holds 0 stream := hheld.congr fun x _ hx => hin x (by omega)
  have hdone := hd.decompress_stream (hheader ▸ hstream) hheld' (by rw [hinLen, hlen]) s.inLen_lt_headerForm hcap
    (by rwa [word_toNat])
  rwa [word_toNat] at hdone

end Sys2Proof.Machine
end

section
/-! Proofs of the statements about the host: what an accepted command starts, what it leaves in OUT when it has ended,
and what the host's moves do while BUSY. -/

namespace Sys2Proof.Machine

/-! ### The start of DECOMPRESS -/

/-- DEC_START with every check of 60_exceptions R260 passed. -/
theorem exec_decompress_started {s : State} {large : Bool} {dsize : Nat} (hb : s.busy = false)
    (hf : s.operandsFit = true) (hmagic : magicRecognised s.cfg (s.inMem.read 0) (s.inMem.read 1) = true)
    (hlarge : headerIsLarge s.cfg (s.inMem.read 1) = large) (hlen : headerLength large ≤ s.inLen.toNat)
    (hsize : declaredSize s.inMem large = dsize) (hcap : dsize ≤ s.outCap.toNat) :
    exec .decompress s = .next (s.decStarted large dsize) := by
  have htwo : 2 ≤ headerLength large := by unfold headerLength; omega
  rw [exec_decompress s hb hf, decStart_accept, hmagic, hlarge, hsize, if_neg (htwo.trans hlen).not_gt,
    if_neg (by decide), if_neg hlen.not_gt, if_neg hcap.not_gt]

theorem headerIsLarge_eq {c : Config} {h1 : Byte} {large : Bool} (h : large = true ↔ h1 &&& c.largeMask ≠ 0#8) :
    headerIsLarge c h1 = large := Bool.eq_iff_iff.2 (decide_eq_true_iff.trans h.symm)

/-- Settles O17: the header's bytes pass each check of DEC_START, and `decStarted` is the state of the statement. -/
theorem decompressStarts : Obligations.DecompressStarts := by
  intro s large dsize hb hf hfirst hsecond hform hsmall hbig hcap
  have hmagic := (magicRecognised_iff _ _ _).2 ⟨hfirst, hsecond⟩
  cases large with
  | false =>
    obtain ⟨hlen, hsize⟩ := hsmall rfl
    exact exec_decompress_started hb hf hmagic (headerIsLarge_eq hform) hlen
      ((declaredSize_small _).trans hsize.symm) hcap
  | true =>
    obtain ⟨hlen, hsize⟩ := hbig rfl
    exact exec_decompress_started hb hf hmagic (headerIsLarge_eq hform) hlen
      ((declaredSize_large _).trans hsize.symm) hcap

/-! ### The start of COMPRESS -/

/-- COMPRESS whose header fits (42_encoder R192). -/
theorem exec_compress_started {s : State} (hb : s.busy = false) (hf : s.operandsFit = true)
    (hcap : headerLength s.needsLarge ≤ s.outCap.toNat) : exec .compress s = .next s.compressStarted := by
  rcases exec_compress_cases s hb hf with ⟨hlt, _⟩ | ⟨_, hx⟩
  · exact absurd hcap hlt.not_ge
  · exact hx

theorem State.needsLarge_eq {s : State} {large : Bool} (h : large = true ↔ 2 ^ 24 - 1 < s.inLen.toNat) :
    s.needsLarge = large := Bool.eq_iff_iff.2 (decide_eq_true_iff.trans h.symm)

/-- A header in a memory gives back the size it was made for (30_encoding R91). -/
theorem Memory.Holds.declaredSize_eq {m : Memory} {c : Config} {large : Bool} {n : Nat}
    (h : m.Holds 0 (headerBytes c large n)) (hn : n < 256 ^ (headerLength large - 2)) :
    declaredSize m large = n := by
  obtain ⟨-, hsize⟩ := (Memory.holds_append (bs := [_, _])).1 h
  rw [Memory.Holds, length_beBytes] at hsize
  exact (congrArg beValue hsize).trans (beValue_beBytes n _ hn)

/-- The header is all that COMPRESS's start writes to OUT. -/
theorem State.compressStarted_read_beyond {s : State} {a : Nat} (ha : headerLength s.needsLarge ≤ a) :
    s.compressStarted.outMem.read a = s.outMem.read a := by
  have hlen := length_headerBytes_lt s.cfg s.needsLarge s.inLen.toNat
  refine pushAll_read_outside _ (s.encStarted s.needsLarge) ((Nat.zero_add _).trans_lt hlen) (.inr ?_)
  rw [length_headerBytes]
  exact (Nat.zero_add _).trans_le ha

/-- Settles O19: OUT holds the header of the input's length, and `compressStarted_eq` is the rest of the state. -/
theorem compressStarts : Obligations.CompressStarts := by
  intro s large hb hf hform hcap
  obtain rfl := State.needsLarge_eq hform
  have hheader := s.compressStarted_holds
  have hfirst : s.compressStarted.outMem.read 0 = s.cfg.magic0 := hheader.read_of_getElem? (j := 0) rfl
  have hsecond : s.compressStarted.outMem.read 1 =
      if s.needsLarge then s.cfg.magic1 ||| s.cfg.largeMask else s.cfg.magic1 :=
    hheader.read_of_getElem? (j := 1) rfl
  have hsize := hheader.declaredSize_eq s.inLen_lt_headerForm
  have heq := s.compressStarted_eq
  have hbeyond := fun a => s.compressStarted_read_beyond (a := a)
  have hx := exec_compress_started hb hf
  generalize s.needsLarge = large at *
  cases large with
  | false =>
    exact ⟨_, hx hcap, heq, hfirst, fun _ => ⟨hsecond, hsize.symm.trans (declaredSize_small _)⟩, nofun, hbeyond⟩
  | true =>
    exact ⟨_, hx hcap, heq, hfirst, nofun, fun _ => ⟨hsecond, hsize.symm.trans (declaredSize_large _)⟩, hbeyond⟩

/-! ### OUT when a command has ended -/

theorem not_idle_of_status {s : State} (h : s.status = 1#32) : ¬ s.busy = false := by
  rw [busy_of_status h]; decide

/-- A step of the engine that ends a command takes an error or halts, and neither takes a free value before. -/
theorem State.Inv.engineStep_ends {s t : State} (h : s.Inv) (hb : s.busy = true) (hs : engineStep s = .next t)
    (ht : t.busy = false) :
    (∃ c ip op, t = s.raise c ip op) ∨ ∃ u : State, u.freeTag = s.freeTag ∧ t = u.halt := by
  have hruns := not_idle_of_status (status_of_busy h.status_legal hb)
  cases hu : s.unit with
  | dec =>
    rw [engineStep_dec hb hu] at hs
    rcases decStep_cases (h.running hb) hu with ⟨c, ip, op, he⟩ | ⟨i, _, _, _, _, _, he⟩ | ⟨lit, _, _, he⟩ <;>
      cases he.symm.trans hs
    · exact .inl ⟨c, ip, op, rfl⟩
    · rw [afterOpcode_latchOpcode_eq] at ht
      exact absurd ht hruns
    · exact .inr ⟨_, by rw [afterEndLiterals_latchOpcode_eq], rfl⟩
  | enc =>
    rw [engineStep_enc hb hu] at hs
    rcases encStep_cases (h.running hb) hu with he | ⟨_, _, he⟩ | ⟨o, len, _, _, _, _, he⟩ | ⟨_, _, he⟩ <;>
      cases he.symm.trans hs
    · exact .inl ⟨_, _, _, rfl⟩
    · exact absurd ht hruns
    · exact absurd ht hruns
    · exact .inr ⟨s.afterEnd, rfl, rfl⟩

/-- A command that its start rule ends takes an error. -/
theorem exec_command_ends {s t : State} {i : Instr} (hb : s.busy = false) (hi : i.isOpcode = false)
    (hs : exec i s = .next t) (ht : t.busy = false) : ∃ u c ip op, t = (s.accept u).raise c ip op := by
  cases hf : s.operandsFit with
  | false => rw [exec_command_beyond i s hi hb hf] at hs; cases hs
  | true =>
    cases i with
    | compress =>
      rcases exec_compress_cases s hb hf with ⟨_, he⟩ | ⟨_, he⟩ <;> cases he.symm.trans hs
      · exact ⟨_, _, _, _, rfl⟩
      · rw [pushAll_eq] at ht
        exact absurd ht (not_idle_of_status rfl)
    | decompress =>
      rcases exec_decompress_cases s hb hf with ⟨_, he⟩ | ⟨_, _, he⟩ | ⟨_, _, _, he⟩ | ⟨_, _, _, he⟩ |
        ⟨_, _, _, he⟩ <;> cases he.symm.trans hs
      · exact ⟨_, _, _, _, rfl⟩
      · exact ⟨_, _, _, _, rfl⟩
      · exact ⟨_, _, _, _, rfl⟩
      · exact ⟨_, _, _, _, rfl⟩
      · exact absurd ht (not_idle_of_status rfl)
    | shortCopy => cases hi
    | mediumCopy => cases hi
    | longCopy => cases hi
    | literalRun => cases hi
    | streamEnd => cases hi

/-- Settles O41: an error frees all of OUT and the normal end what lies at and above OUT_LEN. -/
theorem outputBeyondResultIsFree : Obligations.OutputBeyondResultIsFree := by
  refine ⟨fun s t h hm hb hs ht a ha => ?_, fun s t i hb hi hs ht => ?_⟩
  · rw [step_of_no_host hm] at hs
    obtain ⟨c, ip, op, rfl⟩ | ⟨u, htag, rfl⟩ := h.engineStep_ends hb hs ht
    · exact State.raise_read c ip op s a
    · rw [State.halt_outLen] at ha
      rw [State.halt_read, if_neg ha.not_gt, htag]
  · obtain ⟨u, c, ip, op, rfl⟩ := exec_command_ends hb hi hs ht
    exact ⟨rfl, State.raise_read c ip op (s.accept u)⟩

/-! ### Polling -/

/-- Settles O48: at a `tick` and at an `await` the engine steps, with moves pending that do not matter to it. -/
theorem polledStepIsEngineStep : Obligations.PolledStepIsEngineStep := by
  intro s rest hb
  have halone : step (s.withHost []) = engineStep (s.withHost []) := step_of_no_host rfl
  refine ⟨fun hm => ?_, fun hm => ?_⟩ <;> rw [halone, ← engineStep_withHost]
  · exact step_tick hm
  · rw [step_await_busy hm hb, ← hm]; rfl

/-! ### The host's moves while BUSY -/

/-- A code that is no command's has no effect (43_host_commands R234). -/
theorem writeCmd_unknown {v : Word} (h1 : v.toNat % 256 ≠ 1) (h2 : v.toNat % 256 ≠ 2) (s : State) :
    writeCmd v s = .next s := by
  rw [writeCmd, decodeCommand, if_neg h1, if_neg h2]

theorem writeCmd_busy {s : State} (hb : s.busy = true) (v : Word) : writeCmd v s = .next s := by
  rcases writeCmd_cases v s with h | h | h <;> rw [h]
  · exact exec_command_busy .compress s rfl hb
  · exact exec_command_busy .decompress s rfl hb

theorem writeReg_busy {s : State} (hb : s.busy = true) (r : HostReg) (v : Word) : writeReg r v s = .next s := by
  by_cases hr : r = .cmd
  · subst hr; exact writeCmd_busy hb v
  · rw [writeReg_of_ne_cmd hr, if_pos hb]

theorem readReg_busy {s : State} (hb : s.busy = true) (r : HostReg) :
    readReg r s = { s with readData := s.readBusy r, freeTag := s.freeTag + 1 } := if_pos hb

theorem writeIn_busy {s : State} (hb : s.busy = true) (a : Nat) (b : Byte) :
    writeIn a b s = .refused .hostMemoryAccessWhileBusy := if_pos hb

theorem readOut_busy {s : State} (hb : s.busy = true) (a : Nat) :
    readOut a s = .refused .hostMemoryAccessWhileBusy := if_pos hb

/-- A host read while BUSY changes `readData` and the free-value counter alone (43_host_commands R235). -/
theorem step_readReg_busy {s : State} {r : HostReg} {rest : List HostMove} (hb : s.busy = true)
    (hm : s.host = .readReg r :: rest) :
    step s = .next { s with host := rest, readData := s.readBusy r, freeTag := s.freeTag + 1 } := by
  have hb' : ({ s with host := rest } : State).busy = true := hb
  rw [step_of_host hm, hostMove, readReg_busy hb']
  cases r <;> rfl

/-- The result registers and CMD read 0 while BUSY (43_host_commands R235). -/
theorem readBusy_result {r : HostReg} (s : State)
    (hr : r = .cmd ∨ r = .errInfo ∨ r = .outLen ∨ r = .errIp ∨ r = .errOp) : s.readBusy r = 0#32 := by
  rcases hr with rfl | rfl | rfl | rfl | rfl <;> rfl

theorem ctrlKept_zero_or_one (v : Word) : ctrlKept v = 0#32 ∨ ctrlKept v = 1#32 := by
  rw [ctrlKept_eq]
  split
  · exact .inr rfl
  · exact .inl rfl

/-- Settles O21: an unknown code names no command, and a command while BUSY does nothing. -/
theorem unacceptedCommandsHaveNoEffect : Obligations.UnacceptedCommandsHaveNoEffect := by
  intro s v rest hm hcode
  rw [step_of_host hm, hostMove, writeReg]
  rcases hcode with ⟨h1, h2⟩ | hb
  · exact writeCmd_unknown h1 h2 _
  · exact writeCmd_busy (s := { s with host := rest }) hb v

/-- Settles O38: each move by what the model answers while BUSY, STATUS being 1 then. -/
theorem busyHostAccess : Obligations.BusyHostAccess := by
  intro s rest hst
  have hb : s.busy = true := busy_of_status hst
  have hb' : ({ s with host := rest } : State).busy = true := hb
  refine ⟨fun r v hm => ?_, fun hm => ?_, fun r hr hm => ?_, fun r hr hm => ?_, fun a b hm => ?_, fun a hm => ?_⟩
  · rw [step_of_host hm, hostMove, writeReg_busy hb']
  · exact ⟨_, step_readReg_busy hb hm, by rw [State.readBusy, hst]⟩
  · exact ⟨_, step_readReg_busy hb hm, by rw [readBusy_result s hr]⟩
  · refine ⟨_, step_readReg_busy hb hm, rfl, ?_⟩
    rintro rfl
    exact ctrlKept_zero_or_one _
  · rw [step_of_host hm, hostMove, writeIn_busy hb']
  · rw [step_of_host hm, hostMove, readOut_busy hb']

end Sys2Proof.Machine
end

section
/-! Proofs of the statements about the errors of DEC: the check that each opcode and each header fails on, and what the
command records of it. -/

namespace Sys2Proof.Machine

/-! ### The literals -/

/-- An opcode whose literals fit is not stopped by them. -/
theorem LiteralsFit.not_stop {size lit : Nat} {s : State} {o : Host.Outcome State Fault Refusal}
    (hf : LiteralsFit size lit s) : ¬ LiteralsStop size lit s o := by
  obtain ⟨hin, hout, hic, hoc⟩ := hf
  intro h
  cases h <;> omega

theorem LiteralsFit.of_le {size lit : Nat} {s : State} (hin : s.ip.toNat + size + lit ≤ s.n.toNat)
    (hn : s.n.toNat ≤ s.cfg.inSize) (hout : s.op.toNat + lit ≤ s.dsize.toNat)
    (hd : s.dsize.toNat ≤ s.cfg.outSize) : LiteralsFit size lit s :=
  ⟨hin, hout, hin.trans hn, hout.trans hd⟩

/-- An opcode of any form goes through the literal phase first (40_decoder_opcodes R133). -/
theorem OpcodeOutcome.stop_or_fit {i : Instr} {s : State} {o : Host.Outcome State Fault Refusal}
    (h : OpcodeOutcome i s o) : LiteralsStop (controlBytes i) (literalCount i) s o ∨
      LiteralsFit (controlBytes i) (literalCount i) s := by
  cases h with
  | stopped h => exact .inl h
  | badOffset hf | overrun hf | outAbsent hf | completed hf => exact .inr hf
  | sizeMismatch lit hi hf | expectMismatch lit hi hf | halted lit hi hf => subst hi; exact .inr hf

/-- The literal bytes of an opcode are cut short (60_exceptions R254). -/
theorem exec_literalsCut {i : Instr} {s : State} (hi : i.isOpcode = true)
    (h : s.n.toNat < s.ip.toNat + controlBytes i + literalCount i) :
    exec i s = .next (s.raise .inputExhausted s.ip s.op) := by
  rcases (exec_opcode_outcome i s hi).stop_or_fit with hstop | hf
  · generalize exec i s = o at hstop
    cases hstop with
    | exhausted => rfl
    | overrun hin | inAbsent hin | outAbsent hin => exact absurd h hin.not_gt
  · exact absurd h hf.input.not_gt

/-- The literals of an opcode overrun the declared size (60_exceptions R256). -/
theorem exec_literalsOverrun {i : Instr} {s : State} (hi : i.isOpcode = true)
    (hin : s.ip.toNat + controlBytes i + literalCount i ≤ s.n.toNat)
    (h : s.dsize.toNat < s.op.toNat + literalCount i) :
    exec i s = .next (s.raise .sizeMismatch s.ip s.op) := by
  rcases (exec_opcode_outcome i s hi).stop_or_fit with hstop | hf
  · generalize exec i s = o at hstop
    cases hstop with
    | exhausted hcut => exact absurd hcut hin.not_gt
    | overrun => rfl
    | inAbsent _ hout | outAbsent _ hout => exact absurd h hout.not_gt
  · exact absurd h hf.output.not_gt

/-! ### The fetch -/

/-- A step of DEC whose fetch meets the end of the input (40_decoder_opcodes R132). -/
theorem step_exhausted {s : State} (hm : s.host = []) (hb : s.busy = true) (hu : s.unit = .dec)
    (hf : fetch s = .exhausted) : step s = .next (s.raise .inputExhausted s.ip s.op) := by
  rw [step_dec hm hb hu, decStep, hf]

theorem fetch_at_end {s : State} (h : s.n.toNat ≤ s.ip.toNat) : fetch s = .exhausted := by rw [fetch, if_pos h]

theorem fetch_cut {s : State} (hn : s.n.toNat ≤ s.cfg.inSize)
    (h : s.n.toNat < s.ip.toNat + controlSize (classify (s.inMem.read s.ip.toNat))) : fetch s = .exhausted := by
  rcases fetch_cases s with ⟨_, hf⟩ | ⟨_, _, hf | ⟨habs, _⟩⟩ | ⟨hle, _⟩ | ⟨hle, _⟩
  · exact hf
  · exact hf
  · omega
  · exact absurd h hle.not_gt
  · exact absurd h hle.not_gt

/-- Settles O9: the fetch is exhausted in two of the places, and the literal phase is cut short in the third. -/
theorem inputExhaustedRaised : Obligations.InputExhaustedRaised :=
  ⟨fun s hm hb hu h => ⟨_, step_exhausted hm hb hu (fetch_at_end h), State.raise_ended _ _ _ s _ rfl⟩,
    fun s hm hb hu _ hn h => ⟨_, step_exhausted hm hb hu (fetch_cut hn h), State.raise_ended _ _ _ s _ rfl⟩,
    fun s _ hi h => ⟨_, exec_literalsCut hi h, State.raise_ended _ _ _ s _ rfl⟩⟩

/-! ### The match of a copy -/

/-- All that a copy opcode whose literals fit can answer, in the order of the checks (40_decoder_opcodes R134). -/
theorem exec_copy_cases {i : Instr} {s : State} (hc : i.isCopy = true)
    (hf : LiteralsFit (controlBytes i) (literalCount i) s) (hd : s.dsize.toNat ≤ s.cfg.outSize) :
    (s.op.toNat + literalCount i < matchOffset i ∧
      exec i s = .next (s.raise .badOffset s.ip (s.op + word (literalCount i)))) ∨
    (matchOffset i ≤ s.op.toNat + literalCount i ∧ s.dsize.toNat < s.op.toNat + literalCount i + matchLength i ∧
      exec i s = .next (s.raise .sizeMismatch s.ip (s.op + word (literalCount i)))) ∨
    (matchOffset i ≤ s.op.toNat + literalCount i ∧ s.op.toNat + literalCount i + matchLength i ≤ s.dsize.toNat ∧
      exec i s = .next (afterOpcode i s)) := by
  have ho := exec_opcode_outcome i s (isOpcode_of_isCopy hc)
  generalize exec i s = o at ho
  cases ho with
  | stopped h => exact absurd h hf.not_stop
  | badOffset _ _ h => exact .inl ⟨h, rfl⟩
  | overrun _ _ hoff h => exact .inr (.inl ⟨hoff, h, rfl⟩)
  | outAbsent _ _ h habs => exact absurd (h.trans hd) habs.not_ge
  | completed _ _ hoff h => exact .inr (.inr ⟨hoff, h, rfl⟩)
  | sizeMismatch lit hi | expectMismatch lit hi | halted lit hi => exact absurd hi (ne_streamEnd_of_isCopy hc lit)

/-- Settles O13: the offset is the first check of a copy whose literals fit. -/
theorem badOffsetRaised : Obligations.BadOffsetRaised := by
  intro s i hc hin hn hout hd hoff
  rcases exec_copy_cases hc (.of_le hin hn hout hd) hd with ⟨_, hx⟩ | ⟨hle, _⟩ | ⟨hle, _⟩
  · exact ⟨_, hx, State.raise_ended _ _ _ s _ rfl⟩
  · exact absurd hoff hle.not_gt
  · exact absurd hoff hle.not_gt

/-! ### StreamEnd -/

/-- The `op` that StreamEnd checks, with its own literals counted. -/
theorem toNat_op_add_lit {lit : Nat} {s : State} (h : s.op.toNat + lit ≤ s.dsize.toNat) :
    (s.op + word lit).toNat = s.op.toNat + lit := toNat_add_word _ _ (h.trans_lt s.dsize.isLt)

/-- A StreamEnd whose literals fit, and end before the declared size (60_exceptions R256). -/
theorem exec_streamEnd_short {lit : Nat} {s : State} (hf : LiteralsFit 1 lit s)
    (h : s.op.toNat + lit < s.dsize.toNat) :
    exec (.streamEnd lit) s = .next (s.raise .sizeMismatch s.ip (s.op + word lit)) := by
  have hne : s.op + word lit ≠ s.dsize := fun he => by
    rw [← he, toNat_op_add_lit hf.output] at h
    exact lt_irrefl _ h
  rw [exec]
  rcases execStreamEnd_cases lit s with ⟨_, hstop, _⟩ | ⟨_, _, hx⟩ | ⟨_, he, _⟩ | ⟨_, he, _⟩
  · exact absurd hstop hf.not_stop
  · exact hx
  · exact absurd he hne
  · exact absurd he hne

/-- A StreamEnd at the declared size, where the host expects another (60_exceptions R257). -/
theorem exec_streamEnd_unexpected {lit : Nat} {s : State} (hf : LiteralsFit 1 lit s)
    (hop : s.op + word lit = s.dsize) (hen : s.expectEn = true) (hne : s.expect ≠ s.dsize) :
    exec (.streamEnd lit) s = .next (s.raise .expectMismatch s.ip s.dsize) := by
  rw [exec]
  rcases execStreamEnd_cases lit s with ⟨_, hstop, _⟩ | ⟨_, h, _⟩ | ⟨_, _, _, _, hx⟩ | ⟨_, _, h, _⟩
  · exact absurd hstop hf.not_stop
  · exact absurd hop h
  · rwa [hop] at hx
  · exact absurd ((h hen).symm.trans hop) hne

/-- Settles O14: the literals and the match of an opcode overrun the declared size, or StreamEnd falls short of it. -/
theorem sizeMismatchRaised : Obligations.SizeMismatchRaised := by
  refine ⟨fun s i hi hin h => ?_, fun s i hc hin hn hout hd hoff h => ?_, fun s lit hin hn h hd => ?_⟩
  · exact ⟨_, exec_literalsOverrun hi hin h, State.raise_ended _ _ _ s _ rfl⟩
  · rcases exec_copy_cases hc (.of_le hin hn hout hd) hd with ⟨hlt, _⟩ | ⟨_, _, hx⟩ | ⟨_, hle, _⟩
    · exact absurd hlt hoff.not_gt
    · exact ⟨_, hx, State.raise_ended _ _ _ s _ rfl⟩
    · exact absurd h hle.not_gt
  · exact ⟨_, exec_streamEnd_short (.of_le hin hn h.le hd) h, State.raise_ended _ _ _ s _ rfl⟩

/-- No other cause has the number of EXPECT_MISMATCH (60_exceptions R251). -/
theorem eq_expectMismatch_of_errInfoWord {c : Cause} (h : errInfoWord c = 0x061#32) : c = .expectMismatch := by
  cases c with
  | expectMismatch => rfl
  | hdrTruncated | badMagic | inputExhausted | badOffset | sizeMismatch | outCapacity => exact absurd h (by decide)

/-- An opcode reports an error of its own, or leaves ERRINFO as it was; EXPECT_MISMATCH needs EXPECT_EN. -/
theorem exec_opcode_errInfo {s t : State} {i : Instr} (hi : i.isOpcode = true) (hx : exec i s = .next t) :
    t.errInfo = s.errInfo ∨ ∃ c, t.errInfo = errInfoWord c ∧ (c = .expectMismatch → s.expectEn = true) := by
  have ho := exec_opcode_outcome i s hi
  rw [hx] at ho
  cases ho with
  | stopped h =>
    cases h with
    | exhausted => exact .inr ⟨_, rfl, nofun⟩
    | overrun => exact .inr ⟨_, rfl, nofun⟩
  | badOffset => exact .inr ⟨_, rfl, nofun⟩
  | overrun => exact .inr ⟨_, rfl, nofun⟩
  | completed => exact .inl (by rw [afterOpcode_eq])
  | sizeMismatch => exact .inr ⟨_, rfl, nofun⟩
  | expectMismatch _ _ _ _ hen => exact .inr ⟨_, rfl, fun _ => hen⟩
  | halted lit => exact .inl (halt_afterEndLiterals_ended lit s).errInfo

/-- Settles O15: StreamEnd's last check, which is the only one that gives the cause and needs EXPECT_EN. -/
theorem expectMismatchRaised : Obligations.ExpectMismatchRaised := by
  refine ⟨fun s lit hin hn hout hd hen hne => ?_, fun s t i hi hen hold hx hnew => ?_⟩
  · have hop : s.op + word lit = s.dsize := BitVec.eq_of_toNat_eq ((toNat_op_add_lit hout.le).trans hout)
    exact ⟨_, exec_streamEnd_unexpected (.of_le hin hn hout.le hd) hop hen hne, State.raise_ended _ _ _ s _ rfl⟩
  · rcases exec_opcode_errInfo hi hx with h | ⟨c, h, hc⟩
    · exact hold (h.symm.trans hnew)
    · have hset := hc (eq_expectMismatch_of_errInfoWord (h.symm.trans hnew))
      exact absurd (hen.symm.trans hset) (by decide)

/-! ### The header -/

theorem declaredSize_decide (m : Memory) (p : Prop) [Decidable p] : declaredSize m (decide p) =
    if p then (m.read 2).toNat * 2 ^ 24 + (m.read 3).toNat * 65536 + (m.read 4).toNat * 256 + (m.read 5).toNat
    else (m.read 2).toNat * 65536 + (m.read 3).toNat * 256 + (m.read 4).toNat := by
  by_cases h : p
  · rw [decide_eq_true h, if_pos h, declaredSize_large]
  · rw [decide_eq_false h, if_neg h, declaredSize_small]

/-- Settles O18: DEC_START's checks in their order, each reached where those before it pass. -/
theorem decompressHeaderErrors : Obligations.DecompressHeaderErrors := by
  intro s dsize hb hf recognised large hdr hsize
  have hmagic : magicRecognised s.cfg (s.inMem.read 0) (s.inMem.read 1) = true ↔ recognised :=
    magicRecognised_iff _ _ _
  have hhdr : headerLength (headerIsLarge s.cfg (s.inMem.read 1)) = hdr := headerLength_decide large
  have hdecl : declaredSize s.inMem (headerIsLarge s.cfg (s.inMem.read 1)) = dsize :=
    (declaredSize_decide _ large).trans hsize.symm
  have htwo : 2 ≤ hdr := by rw [← hhdr, headerLength]; omega
  have hended (c : Cause) (k : Nat) (hk : errInfoWord c = word k) :
      s.EndedByError ((s.accept .dec).raise c 0 0) k 0#32 0#32 := State.raise_accept_ended _ _ _ _ _ _ hk
  rw [exec_decompress s hb hf, decStart_accept, hhdr, hdecl]
  refine ⟨fun hlt => ?_, fun h2 hr => ?_, fun h2 hr hlt => ?_, fun hle hr hcap => ?_⟩
  · rw [if_pos hlt]
    exact ⟨_, rfl, hended _ _ rfl⟩
  · rw [if_neg h2.not_gt, if_pos (by simpa using mt hmagic.1 hr)]
    exact ⟨_, rfl, hended _ _ rfl⟩
  · rw [if_neg h2.not_gt, hmagic.2 hr, if_neg (by decide), if_pos hlt]
    exact ⟨_, rfl, hended _ _ rfl⟩
  · rw [if_neg (htwo.trans hle).not_gt, hmagic.2 hr, if_neg (by decide), if_neg hle.not_gt, if_pos hcap]
    exact ⟨_, rfl, hended _ _ rfl⟩

end Sys2Proof.Machine
end

section
/-! Proofs that the result of a command stays while the machine is idle, and that a running command always has a next
step. -/

namespace Sys2Proof.Machine

/-! ### The result while idle -/

/-- The result of the last command is the same (60_exceptions R266). -/
structure State.KeepsResult (s t : State) : Prop where
  status : t.status = s.status
  errInfo : t.errInfo = s.errInfo
  errIp : t.errIp = s.errIp
  errOp : t.errOp = s.errOp
  outLen : t.outLen = s.outLen
  outMem : t.outMem = s.outMem

theorem State.KeepsResult.refl (s : State) : s.KeepsResult s := ⟨rfl, rfl, rfl, rfl, rfl, rfl⟩

/-- No register that the host can write belongs to the result (10_state R35). -/
theorem writeIdle_keepsResult (r : HostReg) (v : Word) (s : State) : s.KeepsResult (writeIdle r v s) := by
  cases r <;> exact ⟨rfl, rfl, rfl, rfl, rfl, rfl⟩

/-- A move of the host while idle, other than the reset event and a command, keeps the result. -/
theorem hostMove_keepsResult {s t : State} {m : HostMove} (hb : s.busy = false) (hne : m ≠ .reset)
    (hcmd : ∀ v, m = .writeReg .cmd v → v.toNat % 256 ≠ 1 ∧ v.toNat % 256 ≠ 2) (hs : hostMove m s = .next t) :
    s.KeepsResult t := by
  cases m with
  | writeReg r v =>
    rw [hostMove] at hs
    by_cases hr : r = .cmd
    · subst hr
      obtain ⟨h1, h2⟩ := hcmd v rfl
      cases (writeCmd_unknown h1 h2 s).symm.trans hs
      exact .refl s
    · rw [writeReg_of_ne_cmd hr, hb] at hs
      cases hs
      exact writeIdle_keepsResult r v s
  | readReg r =>
    rw [hostMove, readReg_idle hb] at hs
    cases hs
    exact ⟨rfl, rfl, rfl, rfl, rfl, rfl⟩
  | writeIn a b =>
    rcases writeIn_cases a b s with ⟨_, hw⟩ | ⟨_, _, hw⟩ | ⟨_, _, hw⟩ <;> cases hw.symm.trans hs
    exact ⟨rfl, rfl, rfl, rfl, rfl, rfl⟩
  | readOut a =>
    rcases readOut_cases a s with ⟨_, hr⟩ | ⟨_, _, hr⟩ | ⟨_, _, hr⟩ <;> cases hr.symm.trans hs
    exact ⟨rfl, rfl, rfl, rfl, rfl, rfl⟩
  | tick =>
    cases (engineStep_idle hb).symm.trans hs
    exact .refl s
  | await =>
    rw [hostMove, hb] at hs
    cases hs
    exact .refl s
  | reset => exact absurd rfl hne

/-- Settles O40: the host's next move is made in the state with the moves after it pending. -/
theorem resultStaysUntilNextCommand : Obligations.ResultStaysUntilNextCommand := by
  intro s t m rest hb hm hne hcmd hs
  rw [step_of_host hm] at hs
  obtain ⟨hstatus, herrInfo, herrIp, herrOp, houtLen, houtMem⟩ :=
    hostMove_keepsResult (s := { s with host := rest }) hb hne hcmd hs
  exact ⟨hstatus, herrInfo, herrIp, herrOp, houtLen, houtMem⟩

/-! ### The engine's next state -/

theorem State.Running.decStep_next {s : State} (h : s.Running) (hu : s.unit = .dec) : ∃ t, decStep s = .next t := by
  rcases decStep_cases h hu with ⟨c, ip, op, he⟩ | ⟨i, _, _, _, _, _, he⟩ | ⟨lit, _, _, he⟩
  · exact ⟨_, he⟩
  · exact ⟨_, he⟩
  · exact ⟨_, he⟩

theorem State.Running.encStep_next {s : State} (h : s.Running) (hu : s.unit = .enc) : ∃ t, encStep s = .next t := by
  rcases encStep_cases h hu with he | ⟨_, _, he⟩ | ⟨o, len, _, _, _, _, he⟩ | ⟨_, _, he⟩
  · exact ⟨_, he⟩
  · exact ⟨_, he⟩
  · exact ⟨_, he⟩
  · exact ⟨_, he⟩

/-- Settles O44: idle nothing changes, and a running unit keeps its accesses inside the memories. -/
theorem engineNeverStops : Obligations.EngineNeverStops := by
  intro s h hm
  rw [step_of_no_host hm]
  cases hb : s.busy with
  | false => exact ⟨s, engineStep_idle hb⟩
  | true =>
    cases hu : s.unit with
    | dec => rw [engineStep_dec hb hu]; exact (h.running hb).decStep_next hu
    | enc => rw [engineStep_enc hb hu]; exact (h.running hb).encStep_next hu

end Sys2Proof.Machine
end

section
/-! Proofs about the reset event, the idle machine and the end of a running command: each step of a unit that goes on
takes at least a byte of its input. -/

namespace Sys2Proof.Machine

/-! ### Reset and idle -/

/-- Settles O35: the reset event forgets both memories from address 0 up. -/
theorem resetEventClears : Obligations.ResetEventClears := by
  intro s rest hm
  exact ⟨_, step_of_host hm, rfl, rfl, rfl, rfl, rfl, rfl, rfl, rfl, rfl, rfl, rfl,
    fun a => Memory.read_forgetFrom s.inMem 0 s.freeTag a,
    fun a => Memory.read_forgetFrom s.outMem 0 (s.freeTag + 1) a⟩

/-- Settles O36: the engine takes no step while idle, and a poll ends at once. -/
theorem idleStaysIdle : Obligations.IdleStaysIdle := by
  intro s hb
  refine ⟨fun hm => step_idle hm hb, fun rest hm => ?_, fun rest hm => ?_⟩ <;>
    have hb' : ({ s with host := rest } : State).busy = false := hb
  · rw [step_tick hm, engineStep_idle hb']
  · rw [step_of_host hm, hostMove, hb']; rfl

/-! ### The input a running unit has left -/

/-- The position in IN that the unit has reached: DEC's program counter, ENC's cursor (10_state R27, R30). -/
def State.inputPosition (s : State) : Nat :=
  match s.unit with
  | .dec => s.ip.toNat
  | .enc => s.cur.toNat

theorem State.inputPosition_dec {s : State} (hu : s.unit = .dec) : s.inputPosition = s.ip.toNat := by
  rw [State.inputPosition, hu]

theorem State.inputPosition_enc {s : State} (hu : s.unit = .enc) : s.inputPosition = s.cur.toNat := by
  rw [State.inputPosition, hu]

/-- The number of input bytes that the unit has left. -/
def State.inputLeft (s : State) : Nat := s.n.toNat - s.inputPosition

theorem State.inputLeft_lt_of_take {s t : State} {k : Nat} (hn : t.n = s.n)
    (hpos : t.inputPosition = s.inputPosition + k) (hk : 1 ≤ k) (hle : s.inputPosition + k ≤ s.n.toNat) :
    t.inputLeft < s.inputLeft := by
  rw [State.inputLeft, State.inputLeft, hn, hpos]
  omega

/-- A step of DEC ends the command, or takes at least the control byte of an opcode. -/
theorem State.Running.decStep_takes {s t : State} (h : s.Running) (hu : s.unit = .dec) (hs : decStep s = .next t)
    (ht : t.busy = true) : t.inputLeft < s.inputLeft := by
  rcases decStep_cases h hu with ⟨c, ip, op, he⟩ | ⟨i, _, hcb, hf, _, _, he⟩ | ⟨lit, _, _, he⟩ <;>
    cases he.symm.trans hs
  · simp at ht
  · have hin := hf.input
    have hn := s.n.isLt
    have hip : (s.ip + word (controlBytes i + literalCount i)).toNat =
        s.ip.toNat + (controlBytes i + literalCount i) := toNat_add_word _ _ (by omega)
    rw [afterOpcode_latchOpcode_eq]
    rw [← State.inputPosition_dec hu] at hip hin
    exact State.inputLeft_lt_of_take rfl ((State.inputPosition_dec (by exact hu)).trans hip) (by omega) (by omega)
  · simp at ht

/-- A step of ENC ends the command, or moves the cursor past a byte or a match. -/
theorem State.Running.encStep_takes {s t : State} (h : s.Running) (hu : s.unit = .enc) (hs : encStep s = .next t)
    (ht : t.busy = true) : t.inputLeft < s.inputLeft := by
  have hn := s.n.isLt
  rcases encStep_cases h hu with he | ⟨hc, _, he⟩ | ⟨o, len, _, hlen, hc, hfit, he⟩ | ⟨_, _, he⟩ <;>
    cases he.symm.trans hs
  · simp at ht
  · have hcur : (s.cur + 1#32).toNat = s.cur.toNat + 1 := toNat_add_word s.cur 1 (by omega)
    rw [← State.inputPosition_enc hu] at hcur hc
    exact State.inputLeft_lt_of_take rfl ((State.inputPosition_enc (by exact hu)).trans hcur) (Nat.le_refl 1) hc
  · obtain ⟨-, hcur, -⟩ := State.toNat_afterMatch hc hfit
    rw [← State.inputPosition_enc hu] at hcur hc
    exact State.inputLeft_lt_of_take rfl ((State.inputPosition_enc (by exact hu)).trans hcur) (by omega) hc
  · simp at ht

theorem State.Running.engineStep_takes {s t : State} (h : s.Running) (hb : s.busy = true)
    (hs : engineStep s = .next t) (ht : t.busy = true) : t.inputLeft < s.inputLeft := by
  cases hu : s.unit with
  | dec => exact h.decStep_takes hu ((engineStep_dec hb hu).symm.trans hs) ht
  | enc => exact h.encStep_takes hu ((engineStep_enc hb hu).symm.trans hs) ht

/-! ### The end of a run -/

/-- As many steps as there is input left, and one more, end the command (70_reset_and_hazards R303). -/
theorem State.Inv.run_ends {s : State} {d : Nat} (h : s.Inv) (hm : s.host = [])
    (hd : s.busy = true → s.inputLeft < d) :
    ∃ (k : Nat) (t : State), k ≤ d ∧ Host.Core.run core k s = .next t ∧ t.busy = false := by
  induction d generalizing s with
  | zero => exact ⟨0, s, Nat.le_refl 0, rfl, Bool.eq_false_iff.2 fun hb => Nat.not_lt_zero _ (hd hb)⟩
  | succ d ih =>
    cases hb : s.busy with
    | false => exact ⟨0, s, Nat.zero_le _, rfl, hb⟩
    | true =>
      obtain ⟨u, hs⟩ := engineNeverStops s h hm
      have he : engineStep s = .next u := (step_of_no_host hm).symm.trans hs
      have hum : u.host = [] := (engineStep_keeps s u he).host.trans hm
      have hud : u.busy = true → u.inputLeft < d := fun hub =>
        ((h.running hb).engineStep_takes hb he hub).trans_le (Nat.le_of_lt_succ (hd hb))
      obtain ⟨k, t, hk, hrun, ht⟩ := ih (h.engineStep_inv he) hum hud
      exact ⟨k + 1, t, Nat.succ_le_succ hk, (run_succ k s u hs).trans hrun, ht⟩

/-- Settles O31: the input a unit has left counts its steps, and the step that ends the command is one more. -/
theorem runningCommandEnds : Obligations.RunningCommandEnds := by
  refine ⟨fun s h hm _ hu => ?_, fun s h hm _ hu => ?_⟩
  · rw [← State.inputPosition_dec hu]
    exact h.run_ends hm fun _ => Nat.lt_succ_self _
  · rw [← State.inputPosition_enc hu]
    exact h.run_ends hm fun _ => Nat.lt_succ_self _

end Sys2Proof.Machine
end
